-- ==== Sys2Proof/Word.lean ====
section
/-! DEFINITION. The widths of the spec's values (00_scope R7, R9): a byte has 8 bits, a word 16, a long-word 32.
A register, an address and the program counter are long-words; an opcode and an extension word are words. -/

namespace Sys2Proof

/-- 8 bits (R7). -/
abbrev Byte := BitVec 8

/-- 16 bits: one bus transaction (`BUSW`), one opcode (`OPW`), one extension word (R7). -/
abbrev Word := BitVec 16

/-- 32 bits: a register, an address, the program counter (`XLEN`, `AW`, R7). -/
abbrev Long := BitVec 32

/-- A register number, 0 to 7 (`NDREG` = `NAREG` = 8, R7). -/
abbrev RegNum := Fin 8

end Sys2Proof
end

