-- ==== Sys2Proof/Config.lean ====
section
/-! DEFINITION. What an implementation fixes: the `Cost` record (00_scope R8), the OPEN structural parameters (R7)
and the one capability of the bus layer that the block depends on (20_memory R58). "A model takes `Cost` as an
argument": the record is a field of the machine's state that no step changes, so every statement about every state is
a statement about every configuration (DESIGN CHOICE, safe; log 3). -/

namespace Sys2Proof

/-- The cost parameters of R8. Only `instr` = 4 and `prefetch` = 4 are the source's numbers. -/
structure Cost where
  /-- `C_INSTR`, charged in state `PREFETCH`. -/
  instr : Nat
  /-- `C_PREFETCH`, nominal cost of one `PREFETCH` transaction. -/
  prefetch : Nat
  /-- `C_READ_WAIT`, charged for each unresolved poll (OPEN). -/
  readWait : Nat
  /-- `C_LONG`, charged in state `LONG` (OPEN). -/
  long : Nat
  /-- `C_READ`, nominal cost of `READ_B` and `READ_W` (OPEN). -/
  read : Nat
  /-- `C_WRITE`, nominal cost of `WRITE_B` and `WRITE_W` (OPEN; recorded by no rule in scope). -/
  write : Nat
  /-- `C_IDLE`, nominal cost of `IDLE_N` (OPEN). -/
  idle : Nat
  deriving DecidableEq, Repr

/-- The instruction classes a configuration may register (`CLASSES`, R7, 44 R189). The source describes one. -/
inductive InstrClass where
  | compare
  deriving DecidableEq, Repr

/-- The configuration of one machine. -/
structure Config where
  cost : Cost
  /-- `LONG_HIGH_FIRST` (R7, 20_memory R54): the high word of a long-word operand is read first. -/
  longHighFirst : Bool
  /-- `A7_BYTE_STEP` (R7, 40 R115). -/
  a7ByteStep : Nat
  /-- `CLASSES` (R7, 44 R189). -/
  classes : List InstrClass
  /-- Byte addresses of which the bus layer cannot give a side-effect-free view (R58). -/
  unpeekable : List Nat
  deriving DecidableEq, Repr

/-- The defaults of R8. -/
def Cost.default : Cost :=
  { instr := 4, prefetch := 4, readWait := 2, long := 2, read := 4, write := 4, idle := 2 }

/-- The defaults of R7: high word first, A7 steps by 2, COMPARE alone, `Peek` offered everywhere. -/
def Config.default : Config :=
  { cost := Cost.default, longHighFirst := true, a7ByteStep := 2, classes := [.compare], unpeekable := [] }

end Sys2Proof
end

