-- ==== Sys2Proof/Syntax.lean ====
section
/-! DEFINITION. The instruction set as syntax: one constructor of `Instr` for each of the 29 rows of
`opcode_table.json` (30_encoding R88), and the fields an opcode value decodes to. An extension word is no part of the
syntax: the handler fetches it at the tick that needs it (20_memory R65; log 19). -/

namespace Sys2Proof

/-- The three operand sizes (00_scope R9). -/
inductive Size where
  | b
  | w
  | l
  deriving DecidableEq, Repr

/-- The ten addressing modes (30_encoding R83). -/
inductive Mode where
  | dreg
  | areg
  | ind
  | postinc
  | predec
  | disp16
  | index
  | absW
  | absL
  | imm
  deriving DecidableEq, Repr

/-- The fields of a COMPARE opcode value, before any legality check (30_encoding R81): `size` is `none` for the size
code 0b11, `mode` is `none` for an `ea` that names no supported mode. -/
structure Form where
  size : Option Size
  mode : Option Mode
  dreg : RegNum
  reg : RegNum
  deriving DecidableEq, Repr

/-- The instructions: COMPARE of a source operand with the data register `dreg`, one constructor per row of the
opcode table. `reg` is the addressing register of the modes that have one. -/
inductive Instr where
  /-- `CMP.B Dm,Dn` (R167, R103). -/
  | cmpBDreg (dreg reg : RegNum)
  /-- `CMP.B (Am),Dn` (R167, R105). -/
  | cmpBInd (dreg reg : RegNum)
  /-- `CMP.B (Am)+,Dn` (R167, R106). -/
  | cmpBPostinc (dreg reg : RegNum)
  /-- `CMP.B -(Am),Dn` (R167, R107). -/
  | cmpBPredec (dreg reg : RegNum)
  /-- `CMP.B $dddd(Am),Dn` (R167, R108). -/
  | cmpBDisp16 (dreg reg : RegNum)
  /-- `CMP.B $dd(Am,Xi.s),Dn` (R167, R109). -/
  | cmpBIndex (dreg reg : RegNum)
  /-- `CMP.B $aaaa.W,Dn` (R167, R110). -/
  | cmpBAbsW (dreg : RegNum)
  /-- `CMP.B $aaaaaaaa.L,Dn` (R167, R111). -/
  | cmpBAbsL (dreg : RegNum)
  /-- `CMP.B #$v,Dn` (R167, R112). -/
  | cmpBImm (dreg : RegNum)
  /-- `CMP.W Dm,Dn` (R168, R103). -/
  | cmpWDreg (dreg reg : RegNum)
  /-- `CMP.W Am,Dn` (R168, R104). -/
  | cmpWAreg (dreg reg : RegNum)
  /-- `CMP.W (Am),Dn` (R168, R105). -/
  | cmpWInd (dreg reg : RegNum)
  /-- `CMP.W (Am)+,Dn` (R168, R106). -/
  | cmpWPostinc (dreg reg : RegNum)
  /-- `CMP.W -(Am),Dn` (R168, R107). -/
  | cmpWPredec (dreg reg : RegNum)
  /-- `CMP.W $dddd(Am),Dn` (R168, R108). -/
  | cmpWDisp16 (dreg reg : RegNum)
  /-- `CMP.W $dd(Am,Xi.s),Dn` (R168, R109). -/
  | cmpWIndex (dreg reg : RegNum)
  /-- `CMP.W $aaaa.W,Dn` (R168, R110). -/
  | cmpWAbsW (dreg : RegNum)
  /-- `CMP.W $aaaaaaaa.L,Dn` (R168, R111). -/
  | cmpWAbsL (dreg : RegNum)
  /-- `CMP.W #$v,Dn` (R168, R112). -/
  | cmpWImm (dreg : RegNum)
  /-- `CMP.L Dm,Dn` (R169, R103). -/
  | cmpLDreg (dreg reg : RegNum)
  /-- `CMP.L Am,Dn` (R169, R104). -/
  | cmpLAreg (dreg reg : RegNum)
  /-- `CMP.L (Am),Dn` (R169, R105). -/
  | cmpLInd (dreg reg : RegNum)
  /-- `CMP.L (Am)+,Dn` (R169, R106). -/
  | cmpLPostinc (dreg reg : RegNum)
  /-- `CMP.L -(Am),Dn` (R169, R107). -/
  | cmpLPredec (dreg reg : RegNum)
  /-- `CMP.L $dddd(Am),Dn` (R169, R108). -/
  | cmpLDisp16 (dreg reg : RegNum)
  /-- `CMP.L $dd(Am,Xi.s),Dn` (R169, R109). -/
  | cmpLIndex (dreg reg : RegNum)
  /-- `CMP.L $aaaa.W,Dn` (R169, R110). -/
  | cmpLAbsW (dreg : RegNum)
  /-- `CMP.L $aaaaaaaa.L,Dn` (R169, R111). -/
  | cmpLAbsL (dreg : RegNum)
  /-- `CMP.L #$v,Dn` (R169, R112). -/
  | cmpLImm (dreg : RegNum)
  deriving DecidableEq, Repr

end Sys2Proof
end

