-- ==== Sys2Proof/WellFormed.lean ====
section
/-! DEFINITION. Which fields make an instruction: the checks of 30_encoding R82, R83, R88 and R89, each a named
`Bool`. -/

namespace Sys2Proof

/-- The size field is one of "the three recognized encodings" (R82). -/
def Form.sizeKnown (f : Form) : Bool := f.size.isSome

/-- The `ea` field names one of the ten supported modes (R83). -/
def Form.modeKnown (f : Form) : Bool := f.mode.isSome

/-- `excl(B)` = {AREG}, `excl(W)` = `excl(L)` = {} (R88). -/
def Form.eaAllowed (f : Form) : Bool := !(f.size == some .b && f.mode == some .areg)

/-- The modes that share `mode` code 7 are told apart by `reg`: 0, 1 and 4 (R83). -/
def Form.regFits (f : Form) : Bool :=
  match f.mode with
  | some .absW => f.reg == 0
  | some .absL => f.reg == 1
  | some .imm => f.reg == 4
  | _ => true

/-- The fields of a legal COMPARE (R88). -/
def Form.wellFormed (f : Form) : Bool := f.sizeKnown && f.modeKnown && f.eaAllowed && f.regFits

/-- The fields of an instruction (R81). -/
def Instr.form : Instr → Form
  | .cmpBDreg d r => { size := some .b, mode := some .dreg, dreg := d, reg := r }
  | .cmpBInd d r => { size := some .b, mode := some .ind, dreg := d, reg := r }
  | .cmpBPostinc d r => { size := some .b, mode := some .postinc, dreg := d, reg := r }
  | .cmpBPredec d r => { size := some .b, mode := some .predec, dreg := d, reg := r }
  | .cmpBDisp16 d r => { size := some .b, mode := some .disp16, dreg := d, reg := r }
  | .cmpBIndex d r => { size := some .b, mode := some .index, dreg := d, reg := r }
  | .cmpBAbsW d => { size := some .b, mode := some .absW, dreg := d, reg := 0 }
  | .cmpBAbsL d => { size := some .b, mode := some .absL, dreg := d, reg := 1 }
  | .cmpBImm d => { size := some .b, mode := some .imm, dreg := d, reg := 4 }
  | .cmpWDreg d r => { size := some .w, mode := some .dreg, dreg := d, reg := r }
  | .cmpWAreg d r => { size := some .w, mode := some .areg, dreg := d, reg := r }
  | .cmpWInd d r => { size := some .w, mode := some .ind, dreg := d, reg := r }
  | .cmpWPostinc d r => { size := some .w, mode := some .postinc, dreg := d, reg := r }
  | .cmpWPredec d r => { size := some .w, mode := some .predec, dreg := d, reg := r }
  | .cmpWDisp16 d r => { size := some .w, mode := some .disp16, dreg := d, reg := r }
  | .cmpWIndex d r => { size := some .w, mode := some .index, dreg := d, reg := r }
  | .cmpWAbsW d => { size := some .w, mode := some .absW, dreg := d, reg := 0 }
  | .cmpWAbsL d => { size := some .w, mode := some .absL, dreg := d, reg := 1 }
  | .cmpWImm d => { size := some .w, mode := some .imm, dreg := d, reg := 4 }
  | .cmpLDreg d r => { size := some .l, mode := some .dreg, dreg := d, reg := r }
  | .cmpLAreg d r => { size := some .l, mode := some .areg, dreg := d, reg := r }
  | .cmpLInd d r => { size := some .l, mode := some .ind, dreg := d, reg := r }
  | .cmpLPostinc d r => { size := some .l, mode := some .postinc, dreg := d, reg := r }
  | .cmpLPredec d r => { size := some .l, mode := some .predec, dreg := d, reg := r }
  | .cmpLDisp16 d r => { size := some .l, mode := some .disp16, dreg := d, reg := r }
  | .cmpLIndex d r => { size := some .l, mode := some .index, dreg := d, reg := r }
  | .cmpLAbsW d => { size := some .l, mode := some .absW, dreg := d, reg := 0 }
  | .cmpLAbsL d => { size := some .l, mode := some .absL, dreg := d, reg := 1 }
  | .cmpLImm d => { size := some .l, mode := some .imm, dreg := d, reg := 4 }

/-- An instruction is well formed when its fields are. -/
def Instr.wellFormed (i : Instr) : Bool := i.form.wellFormed

/-- The operand size of an instruction (R82). -/
def Instr.size : Instr → Size
  | .cmpBDreg _ _ | .cmpBInd _ _ | .cmpBPostinc _ _ | .cmpBPredec _ _ | .cmpBDisp16 _ _ | .cmpBIndex _ _
  | .cmpBAbsW _ | .cmpBAbsL _ | .cmpBImm _ => .b
  | .cmpWDreg _ _ | .cmpWAreg _ _ | .cmpWInd _ _ | .cmpWPostinc _ _ | .cmpWPredec _ _ | .cmpWDisp16 _ _
  | .cmpWIndex _ _ | .cmpWAbsW _ | .cmpWAbsL _ | .cmpWImm _ => .w
  | .cmpLDreg _ _ | .cmpLAreg _ _ | .cmpLInd _ _ | .cmpLPostinc _ _ | .cmpLPredec _ _ | .cmpLDisp16 _ _
  | .cmpLIndex _ _ | .cmpLAbsW _ | .cmpLAbsL _ | .cmpLImm _ => .l

/-- The addressing mode of an instruction's source operand (R83). -/
def Instr.mode : Instr → Mode
  | .cmpBDreg _ _ | .cmpWDreg _ _ | .cmpLDreg _ _ => .dreg
  | .cmpWAreg _ _ | .cmpLAreg _ _ => .areg
  | .cmpBInd _ _ | .cmpWInd _ _ | .cmpLInd _ _ => .ind
  | .cmpBPostinc _ _ | .cmpWPostinc _ _ | .cmpLPostinc _ _ => .postinc
  | .cmpBPredec _ _ | .cmpWPredec _ _ | .cmpLPredec _ _ => .predec
  | .cmpBDisp16 _ _ | .cmpWDisp16 _ _ | .cmpLDisp16 _ _ => .disp16
  | .cmpBIndex _ _ | .cmpWIndex _ _ | .cmpLIndex _ _ => .index
  | .cmpBAbsW _ | .cmpWAbsW _ | .cmpLAbsW _ => .absW
  | .cmpBAbsL _ | .cmpWAbsL _ | .cmpLAbsL _ => .absL
  | .cmpBImm _ | .cmpWImm _ | .cmpLImm _ => .imm

/-- The destination data register of an instruction (R81). -/
def Instr.dreg (i : Instr) : RegNum := i.form.dreg

/-- The `reg` field of an instruction (R81). -/
def Instr.reg (i : Instr) : RegNum := i.form.reg

end Sys2Proof
end

