-- ==== Sys2Proof/Decode.lean ====
section
/-! DEFINITION. Decoding, total on any bytes, and encoding (30_encoding R80 to R92). The bit positions are the spec's
adopted layout (R81, D1). The decoder gives the instruction in the opcode word; the extension words behind it stay in
the instruction stream, where the handler fetches them tick by tick (20_memory R65; log 19). -/

namespace Sys2Proof

/-! ## Bit fields of the opcode word (R81) -/

/-- Bits 15..12, `class`. -/
def classField (op : Word) : BitVec 4 := op.extractLsb' 12 4

/-- Bits 11..9, `dreg`. -/
def dregField (op : Word) : RegNum := (op.extractLsb' 9 3).toFin

/-- Bit 8, `dir`. -/
def dirField (op : Word) : BitVec 1 := op.extractLsb' 8 1

/-- Bits 7..6, `size`. -/
def sizeField (op : Word) : BitVec 2 := op.extractLsb' 6 2

/-- Bits 5..0, `ea`. -/
def eaField (op : Word) : BitVec 6 := op.extractLsb' 0 6

/-- Bits 2..0, `reg`. -/
def regField (op : Word) : RegNum := (op.extractLsb' 0 3).toFin

/-! ## The encoding tables -/

/-- The size codes (R82). -/
def sizeOfCode (c : BitVec 2) : Option Size :=
  match c.toNat with
  | 0 => some .b
  | 1 => some .w
  | 2 => some .l
  | _ => none

/-- The size codes (R82), read the other way. -/
def Size.code : Size → Nat
  | .b => 0
  | .w => 1
  | .l => 2

/-- `ModeOf(ea)` (R83): the mode a 6-bit `ea` names, none for 3A, 3B, 3D, 3E and 3F. -/
def modeOf (ea : BitVec 6) : Option Mode :=
  match (ea.extractLsb' 3 3).toNat, (ea.extractLsb' 0 3).toNat with
  | 0, _ => some .dreg
  | 1, _ => some .areg
  | 2, _ => some .ind
  | 3, _ => some .postinc
  | 4, _ => some .predec
  | 5, _ => some .disp16
  | 6, _ => some .index
  | 7, 0 => some .absW
  | 7, 1 => some .absL
  | 7, 4 => some .imm
  | _, _ => none

/-- The `mode` codes (R83), read the other way. -/
def Mode.code : Mode → Nat
  | .dreg => 0
  | .areg => 1
  | .ind => 2
  | .postinc => 3
  | .predec => 4
  | .disp16 => 5
  | .index => 6
  | .absW => 7
  | .absL => 7
  | .imm => 7

/-- Field extraction, "recomputed from the opcode input on every tick" (43 R160, R161). -/
def formOf (op : Word) : Form :=
  { size := sizeOfCode (sizeField op), mode := modeOf (eaField op), dreg := dregField op, reg := regField op }

/-- `0xB000 | dreg << 9 | size << 6 | mode << 3 | reg` (R81). -/
def opcodeOf (sz : Size) (m : Mode) (dreg reg : RegNum) : Word :=
  0xB000#16 ||| BitVec.ofNat 16 (dreg.val <<< 9) ||| BitVec.ofNat 16 (sz.code <<< 6) |||
    BitVec.ofNat 16 (m.code <<< 3) ||| BitVec.ofNat 16 reg.val

/-- The number of extension words by mode and size (R84). -/
def extWords : Mode → Size → Nat
  | .dreg, _ => 0
  | .areg, _ => 0
  | .ind, _ => 0
  | .postinc, _ => 0
  | .predec, _ => 0
  | .disp16, _ => 1
  | .index, _ => 1
  | .absW, _ => 1
  | .absL, _ => 2
  | .imm, .b => 1
  | .imm, .w => 1
  | .imm, .l => 2

/-- Instruction length in bytes (R84). -/
def lengthBytes (m : Mode) (sz : Size) : Nat := 2 + 2 * extWords m sz

/-! ## The INDEX extension word (R85) -/

/-- The fields of the brief index word. Bits 10..8 are ignored and have no field (U12). -/
structure IndexWord where
  /-- `xa`: the index register is an address register. -/
  isAddress : Bool
  /-- `xreg`. -/
  reg : RegNum
  /-- `xl`: all 32 bits of the index register count. -/
  isLong : Bool
  /-- `d8`. -/
  disp : Byte
  deriving DecidableEq, Repr

/-- Reading an INDEX extension word (R85). -/
def indexWordOf (x : Word) : IndexWord :=
  { isAddress := x.getLsbD 15, reg := (x.extractLsb' 12 3).toFin, isLong := x.getLsbD 11, disp := x.extractLsb' 0 8 }

/-! ## The decoder -/

/-- Why a byte sequence is no instruction (R89). -/
inductive Reject where
  /-- Fewer than two bytes: there is no opcode word. -/
  | tooShort
  /-- `class` is not 0b1011: R89 (b). -/
  | otherClass
  /-- `dir` is 1: R89 (a). -/
  | dirSet
  /-- `size` is 0b11: R89 (a). -/
  | sizeUnrecognized
  /-- `ea` in {3A, 3B, 3D, 3E, 3F}: R89 (a). -/
  | eaUnsupported
  /-- Address-register-direct at byte size: R89 (a). -/
  | aregAtByteSize
  deriving DecidableEq, Repr

/-- The instruction with given fields (R88): one row of the opcode table for each legal size and mode. -/
def instrOfForm (f : Form) : Except Reject Instr :=
  match f.size, f.mode with
  | none, _ => .error .sizeUnrecognized
  | some _, none => .error .eaUnsupported
  | some .b, some .areg => .error .aregAtByteSize
  | some .b, some .dreg => .ok (.cmpBDreg f.dreg f.reg)
  | some .b, some .ind => .ok (.cmpBInd f.dreg f.reg)
  | some .b, some .postinc => .ok (.cmpBPostinc f.dreg f.reg)
  | some .b, some .predec => .ok (.cmpBPredec f.dreg f.reg)
  | some .b, some .disp16 => .ok (.cmpBDisp16 f.dreg f.reg)
  | some .b, some .index => .ok (.cmpBIndex f.dreg f.reg)
  | some .b, some .absW => .ok (.cmpBAbsW f.dreg)
  | some .b, some .absL => .ok (.cmpBAbsL f.dreg)
  | some .b, some .imm => .ok (.cmpBImm f.dreg)
  | some .w, some .dreg => .ok (.cmpWDreg f.dreg f.reg)
  | some .w, some .areg => .ok (.cmpWAreg f.dreg f.reg)
  | some .w, some .ind => .ok (.cmpWInd f.dreg f.reg)
  | some .w, some .postinc => .ok (.cmpWPostinc f.dreg f.reg)
  | some .w, some .predec => .ok (.cmpWPredec f.dreg f.reg)
  | some .w, some .disp16 => .ok (.cmpWDisp16 f.dreg f.reg)
  | some .w, some .index => .ok (.cmpWIndex f.dreg f.reg)
  | some .w, some .absW => .ok (.cmpWAbsW f.dreg)
  | some .w, some .absL => .ok (.cmpWAbsL f.dreg)
  | some .w, some .imm => .ok (.cmpWImm f.dreg)
  | some .l, some .dreg => .ok (.cmpLDreg f.dreg f.reg)
  | some .l, some .areg => .ok (.cmpLAreg f.dreg f.reg)
  | some .l, some .ind => .ok (.cmpLInd f.dreg f.reg)
  | some .l, some .postinc => .ok (.cmpLPostinc f.dreg f.reg)
  | some .l, some .predec => .ok (.cmpLPredec f.dreg f.reg)
  | some .l, some .disp16 => .ok (.cmpLDisp16 f.dreg f.reg)
  | some .l, some .index => .ok (.cmpLIndex f.dreg f.reg)
  | some .l, some .absW => .ok (.cmpLAbsW f.dreg)
  | some .l, some .absL => .ok (.cmpLAbsL f.dreg)
  | some .l, some .imm => .ok (.cmpLImm f.dreg)

/-- The decoder on an opcode word: R88 makes it legal or R89 says why not. -/
def decodeWord (op : Word) : Except Reject Instr :=
  if classField op ≠ 0b1011#4 then .error .otherClass
  else if dirField op ≠ 0#1 then .error .dirSet
  else instrOfForm (formOf op)

/-- The decoder on bytes: the opcode word is big-endian (20_memory R52), the rest of the bytes stay. -/
def decode : List Byte → Except Reject (Instr × List Byte)
  | hi :: lo :: rest =>
    match decodeWord (hi ++ lo) with
    | .ok i => .ok (i, rest)
    | .error r => .error r
  | _ => .error .tooShort

/-! ## The encoder -/

/-- The opcode word of an instruction (R81). -/
def encodeWord : Instr → Word
  | .cmpBDreg d r => opcodeOf .b .dreg d r
  | .cmpBInd d r => opcodeOf .b .ind d r
  | .cmpBPostinc d r => opcodeOf .b .postinc d r
  | .cmpBPredec d r => opcodeOf .b .predec d r
  | .cmpBDisp16 d r => opcodeOf .b .disp16 d r
  | .cmpBIndex d r => opcodeOf .b .index d r
  | .cmpBAbsW d => opcodeOf .b .absW d 0
  | .cmpBAbsL d => opcodeOf .b .absL d 1
  | .cmpBImm d => opcodeOf .b .imm d 4
  | .cmpWDreg d r => opcodeOf .w .dreg d r
  | .cmpWAreg d r => opcodeOf .w .areg d r
  | .cmpWInd d r => opcodeOf .w .ind d r
  | .cmpWPostinc d r => opcodeOf .w .postinc d r
  | .cmpWPredec d r => opcodeOf .w .predec d r
  | .cmpWDisp16 d r => opcodeOf .w .disp16 d r
  | .cmpWIndex d r => opcodeOf .w .index d r
  | .cmpWAbsW d => opcodeOf .w .absW d 0
  | .cmpWAbsL d => opcodeOf .w .absL d 1
  | .cmpWImm d => opcodeOf .w .imm d 4
  | .cmpLDreg d r => opcodeOf .l .dreg d r
  | .cmpLAreg d r => opcodeOf .l .areg d r
  | .cmpLInd d r => opcodeOf .l .ind d r
  | .cmpLPostinc d r => opcodeOf .l .postinc d r
  | .cmpLPredec d r => opcodeOf .l .predec d r
  | .cmpLDisp16 d r => opcodeOf .l .disp16 d r
  | .cmpLIndex d r => opcodeOf .l .index d r
  | .cmpLAbsW d => opcodeOf .l .absW d 0
  | .cmpLAbsL d => opcodeOf .l .absL d 1
  | .cmpLImm d => opcodeOf .l .imm d 4

/-- The words of an instruction that the instruction itself fixes: its opcode word. -/
def encode (i : Instr) : List Word := [encodeWord i]

/-- A word as it lies in memory, high byte at the lower address (20_memory R52). -/
def wordBytes (x : Word) : List Byte := [x.extractLsb' 8 8, x.extractLsb' 0 8]

/-- Words as they lie in memory at ascending addresses. -/
def wordsBytes : List Word → List Byte
  | [] => []
  | x :: t => wordBytes x ++ wordsBytes t

/-- The three words of the longest instruction, from the number of `spec/opcode_table.json`: its first word is bits
15..0, its second bits 31..16, its third bits 47..32; every bit above `nbits` is 0. -/
def tableWords (nbits w : Nat) : List Word :=
  [BitVec.ofNat 16 (w % 2 ^ nbits), BitVec.ofNat 16 ((w % 2 ^ nbits) / 65536),
    BitVec.ofNat 16 ((w % 2 ^ nbits) / 4294967296)]

/-- What the decoder reads from an instruction numbered as the opcode table numbers it. -/
def decodeTableWord (nbits w : Nat) : Option Instr :=
  match decode (wordsBytes (tableWords nbits w)) with
  | .ok (i, _) => some i
  | .error _ => none

/-! ## The opcode table (`opcode_table.json`, R88) -/

/-- One row of the opcode table: `op & mask = bits` selects exactly the slots of the row. -/
structure OpcodeRow where
  size : Size
  mode : Mode
  bits : Word
  mask : Word
  extWords : Nat
  slots : Nat
  deriving DecidableEq, Repr

/-- Whether an opcode value is one of the row's slots. -/
def OpcodeRow.selects (r : OpcodeRow) (op : Word) : Bool := op &&& r.mask == r.bits

/-- The rows of CMP.B. -/
def opcodeRowsB : List OpcodeRow :=
  [⟨.b, .dreg, 0xB000, 0xF1F8, 0, 64⟩,
   ⟨.b, .ind, 0xB010, 0xF1F8, 0, 64⟩,
   ⟨.b, .postinc, 0xB018, 0xF1F8, 0, 64⟩,
   ⟨.b, .predec, 0xB020, 0xF1F8, 0, 64⟩,
   ⟨.b, .disp16, 0xB028, 0xF1F8, 1, 64⟩,
   ⟨.b, .index, 0xB030, 0xF1F8, 1, 64⟩,
   ⟨.b, .absW, 0xB038, 0xF1FF, 1, 8⟩,
   ⟨.b, .absL, 0xB039, 0xF1FF, 2, 8⟩,
   ⟨.b, .imm, 0xB03C, 0xF1FF, 1, 8⟩]

/-- The rows of CMP.W. -/
def opcodeRowsW : List OpcodeRow :=
  [⟨.w, .dreg, 0xB040, 0xF1F8, 0, 64⟩,
   ⟨.w, .areg, 0xB048, 0xF1F8, 0, 64⟩,
   ⟨.w, .ind, 0xB050, 0xF1F8, 0, 64⟩,
   ⟨.w, .postinc, 0xB058, 0xF1F8, 0, 64⟩,
   ⟨.w, .predec, 0xB060, 0xF1F8, 0, 64⟩,
   ⟨.w, .disp16, 0xB068, 0xF1F8, 1, 64⟩,
   ⟨.w, .index, 0xB070, 0xF1F8, 1, 64⟩,
   ⟨.w, .absW, 0xB078, 0xF1FF, 1, 8⟩,
   ⟨.w, .absL, 0xB079, 0xF1FF, 2, 8⟩,
   ⟨.w, .imm, 0xB07C, 0xF1FF, 1, 8⟩]

/-- The rows of CMP.L. -/
def opcodeRowsL : List OpcodeRow :=
  [⟨.l, .dreg, 0xB080, 0xF1F8, 0, 64⟩,
   ⟨.l, .areg, 0xB088, 0xF1F8, 0, 64⟩,
   ⟨.l, .ind, 0xB090, 0xF1F8, 0, 64⟩,
   ⟨.l, .postinc, 0xB098, 0xF1F8, 0, 64⟩,
   ⟨.l, .predec, 0xB0A0, 0xF1F8, 0, 64⟩,
   ⟨.l, .disp16, 0xB0A8, 0xF1F8, 1, 64⟩,
   ⟨.l, .index, 0xB0B0, 0xF1F8, 1, 64⟩,
   ⟨.l, .absW, 0xB0B8, 0xF1FF, 1, 8⟩,
   ⟨.l, .absL, 0xB0B9, 0xF1FF, 2, 8⟩,
   ⟨.l, .imm, 0xB0BC, 0xF1FF, 2, 8⟩]

/-- The 29 rows. -/
def opcodeRows : List OpcodeRow := opcodeRowsB ++ opcodeRowsW ++ opcodeRowsL

end Sys2Proof
end

