-- ==== Sys2Proof/Machine/State.lean ====
section
/-! DEFINITION. Every piece of state the spec gives the machine (10_state), the reasons a step can stop (60 R220 to
R224), and the machine right after reset (R43). The state is plain data. -/

namespace Sys2Proof.Machine

/-- `MARKER`, a 3-bit register (10_state R25): the five named values and the codes 4, 5 and 6, which are never
produced and which a tick refuses. -/
inductive Marker where
  | none
  | read
  | prefetch
  | long
  | bad4
  | bad5
  | bad6
  | finished
  deriving DecidableEq, Repr

/-- The four condition flags (R23). -/
structure Flags where
  n : Bool
  z : Bool
  v : Bool
  c : Bool
  deriving DecidableEq, Repr

/-- The Effective Address Descriptor (R26). -/
structure Ea where
  /-- From `EaBeginRead` until the poll that reports done. -/
  active : Bool
  mode : Mode
  reg : RegNum
  size : Size
  /-- The number of steps already performed. -/
  step : BitVec 3
  /-- The operand's memory address once computed. -/
  addr : Long
  /-- The operand value being assembled. -/
  value : Long
  deriving DecidableEq, Repr

/-- The tags of the transaction log (41 R134). -/
inductive Tag where
  | readB
  | readW
  | writeB
  | writeW
  | prefetch
  | idleN
  deriving DecidableEq, Repr

/-- The Cycle/Bus Ledger (R28): an unbounded count and the tags in the order recorded. -/
structure Ledger where
  cycles : Nat
  log : List Tag
  deriving DecidableEq, Repr

/-- `FATAL_REASON` (R29). -/
inductive FatalReason where
  | unsupportedEaMode
  | badSizeField
  deriving DecidableEq, Repr

/-- An entry of `EXEC` (R27): the sentinel or a handler identity. -/
inductive ExecEntry where
  | illegal
  | hCmp
  deriving DecidableEq, Repr

/-- An entry of `PRINT` (R27): the sentinel or a handler identity. -/
inductive PrintEntry where
  | illegal
  | pCmp
  deriving DecidableEq, Repr

/-- The machine's state. `built`, `opcode` and `config` are the model's own fields (log 4, 8, 3); `mem` is the bus
layer's memory (log 2); the two tables are held sparsely, an unlisted slot being `ILLEGAL` (log 11). -/
structure State where
  /-- `D[0..7]` (R21). -/
  d : Vector Long 8
  /-- `A[0..7]` (R22). -/
  a : Vector Long 8
  /-- `N`, `Z`, `V`, `C` (R23). -/
  flags : Flags
  /-- The program counter (R24). -/
  pc : Long
  /-- `MARKER` (R25). -/
  marker : Marker
  /-- `EA` (R26). -/
  ea : Ea
  /-- `FATAL` (R29). -/
  fatal : Bool
  /-- `FATAL_REASON` (R29). -/
  fatalReason : FatalReason
  /-- `EXEC[0..65535]` (R27). -/
  execTable : List (Nat × ExecEntry)
  /-- `PRINT[0..65535]` (R27). -/
  printTable : List (Nat × PrintEntry)
  /-- Whether `BuildTables` has completed (70 R251, R265). -/
  built : Bool
  /-- `LEDGER` (R28). -/
  ledger : Ledger
  /-- The byte memory behind the bus port (20_memory R51). -/
  mem : List Host.Cell
  /-- The ghost copy of the opcode presented at the first tick (70 R262). -/
  opcode : Option Word
  /-- The configuration (00_scope R7, R8). -/
  config : Config
  deriving DecidableEq, Repr

/-- Why the machine stops with a fault. -/
inductive Fault where
  /-- `Illegal(op)` (60 R221): raised by the lookup of an opcode value whose slot is the sentinel. Safe: what the
  emulated machine does next is outside the spec, and nothing is claimed of it. -/
  | illegal (op : Word)
  /-- `Fatal(reason)` (60 R222, R223): raised by `EaBeginRead` on an `ea` or a size that no legal slot has. Safe: the
  spec maps it to a fault that is never final (R11). -/
  | fatal (r : FatalReason)
  deriving DecidableEq, Repr

/-- Why the machine refuses (60 R224): the spec gives the situation no meaning. Every refusal errs toward
unprovable, so each is safe. -/
inductive Refusal where
  /-- An instruction that has no meaning yet. No arm of `exec` raises it. -/
  | notModelled (mnemonic : String)
  /-- A 2-byte request at an odd address: a data read, an extension-word fetch or a `Peek` (20_memory R55). -/
  | oddWordAccess
  /-- `EaBeginRead` while a resolution is active (10_state R33, 40 R100). -/
  | eaBusy
  /-- `EaPoll` while none is active (10_state R33, 40 R101). -/
  | eaIdle
  /-- Any tick with `FATAL` = 1 (43 R161, 70 R267). -/
  | afterFatal
  /-- A tick with an opcode whose `EXEC` entry is not the handler (43 R161, 70 R261). -/
  | notDispatched
  /-- A tick that finds a marker code of 4, 5 or 6 (10_state R25, 43 R161); and, by the model's choice (log 10), what
  the core may do only at `NONE` or `FINISHED`, at such a code. -/
  | badMarker
  /-- A tick in mid-instruction with another opcode than the first tick's (70 R262). -/
  | opcodeChanged
  /-- A write by another agent to registers, flags, `pc`, `MARKER` or `EA` in mid-instruction (70 R263). -/
  | foreignWrite
  /-- A reload of `MARKER` or the start of another instruction before `FINISHED` (70 R264). -/
  | restartBeforeFinished
  /-- A write to a table after `BuildTables` (70 R265). -/
  | tableWriteAfterBuild
  /-- A clear of the ledger in mid-instruction (41 R136, 70 R266). -/
  | clearInProgress
  /-- A lookup before `BuildTables` has completed (70 R251, R265). -/
  | dispatchBeforeBuild
  /-- A configuration in which two classes register one opcode value (44 R189). -/
  | slotClaimedTwice
  /-- A `Peek` where the bus layer offers no side-effect-free view (20_memory R58). -/
  | peekHasSideEffect
  deriving DecidableEq, Repr

/-- The elements whose value after reset is unspecified (R43): inputs of the initial state. -/
structure Unspecified where
  d : Vector Long 8
  a : Vector Long 8
  flags : Flags
  pc : Long
  eaMode : Mode
  eaReg : RegNum
  eaSize : Size
  eaStep : BitVec 3
  eaAddr : Long
  eaValue : Long
  fatalReason : FatalReason
  deriving DecidableEq, Repr

/-- The machine after reset (R43, R250), over every value the spec leaves unspecified, a configuration and the
contents of the external memory, which reset does not touch. -/
def State.resetWith (u : Unspecified) (config : Config) (mem : List Host.Cell) : State :=
  { d := u.d, a := u.a, flags := u.flags, pc := u.pc, marker := .none,
    ea := { active := false, mode := u.eaMode, reg := u.eaReg, size := u.eaSize, step := u.eaStep, addr := u.eaAddr,
            value := u.eaValue },
    fatal := false, fatalReason := u.fatalReason, execTable := [], printTable := [], built := false,
    ledger := { cycles := 0, log := [] }, mem := mem, opcode := none, config := config }

/-- The values the model names for what R43 leaves unspecified: zero, and the first name of an enumeration
(DESIGN CHOICE, unsafe; log 1). -/
def Unspecified.named : Unspecified :=
  { d := Vector.replicate 8 0, a := Vector.replicate 8 0, flags := { n := false, z := false, v := false, c := false },
    pc := 0, eaMode := .dreg, eaReg := 0, eaSize := .b, eaStep := 0, eaAddr := 0, eaValue := 0,
    fatalReason := .unsupportedEaMode }

/-- The machine right after reset: R43, with the named values of log 1, the default configuration (log 3) and no
memory cell listed (log 2). -/
def State.reset : State := State.resetWith Unspecified.named Config.default []

end Sys2Proof.Machine
end

