-- ==== Sys2Proof/Machine/Sparse.lean ====
section
/-! DEFINITION. A total map from numbers to values, held as the list of the keys whose value is not the default, keys
strictly rising: equal maps are equal lists. Memory (20_memory R51) and the two dispatch tables (10_state R27) are
held so. -/

namespace Sys2Proof.Machine

/-- The value at a key: the listed one, or the default. -/
def Sparse.read {β : Type} (dflt : β) (k : Nat) : List (Nat × β) → β
  | [] => dflt
  | (k', v) :: t => if k' = k then v else Sparse.read dflt k t

/-- The list with one key prepended, unless its value is the default. -/
def Sparse.put {β : Type} [DecidableEq β] (dflt : β) (k : Nat) (v : β) (t : List (Nat × β)) : List (Nat × β) :=
  if v = dflt then t else (k, v) :: t

/-- Storing a value at a key; storing the default removes the entry. -/
def Sparse.write {β : Type} [DecidableEq β] (dflt : β) (k : Nat) (v : β) : List (Nat × β) → List (Nat × β)
  | [] => Sparse.put dflt k v []
  | (k', v') :: t =>
    if k < k' then Sparse.put dflt k v ((k', v') :: t)
    else if k = k' then Sparse.put dflt k v t
    else (k', v') :: Sparse.write dflt k v t

/-- Every key is above `lo` and the rest is strictly rising; no entry holds the default; every key is below `hi`. -/
def Sparse.wfAbove {β : Type} [DecidableEq β] (dflt : β) (hi : Nat) : Option Nat → List (Nat × β) → Bool
  | _, [] => true
  | lo, (k, v) :: t =>
    (match lo with
      | none => true
      | some l => decide (l < k)) && decide (k < hi) && decide (v ≠ dflt) && Sparse.wfAbove dflt hi (some k) t

/-- The canonical form: keys strictly rising and below `hi`, no entry equal to the default. -/
def Sparse.wf {β : Type} [DecidableEq β] (dflt : β) (hi : Nat) (l : List (Nat × β)) : Bool :=
  Sparse.wfAbove dflt hi none l

/-- What an unlisted byte of memory reads as (DESIGN CHOICE, unsafe; log 2). -/
def Memory.unlisted : Byte := 0

/-- The byte at an address. -/
def Memory.read (m : List Host.Cell) (a : Long) : Byte := Sparse.read Memory.unlisted a.toNat m

/-- Storing a byte at an address. -/
def Memory.write (m : List Host.Cell) (a : Long) (v : Byte) : List Host.Cell :=
  Sparse.write Memory.unlisted a.toNat v m

/-- The canonical form of memory: addresses strictly rising and inside the 2^32 of R50, no entry equal to what an
unlisted address reads as. -/
def Memory.wf (m : List Host.Cell) : Bool := Sparse.wf Memory.unlisted (2 ^ 32) m

end Sys2Proof.Machine
end

