-- ==== Sys2Proof/Machine/Ops.lean ====
section
/-! DEFINITION. The named operations over registers, memory, the ledger and the fatal latch, each from its rule. -/

namespace Sys2Proof.Machine

/-! ## Bits (00_scope R9) -/

/-- `sext_8`. -/
def sext8 (v : Byte) : Long := v.signExtend 32

/-- `sext_16`. -/
def sext16 (v : Word) : Long := v.signExtend 32

/-- `zext_8`. -/
def zext8 (v : Byte) : Long := v.setWidth 32

/-- `zext_16`. -/
def zext16 (v : Word) : Long := v.setWidth 32

/-- `bits(sz)`. -/
def Size.bits : Size → Nat
  | .b => 8
  | .w => 16
  | .l => 32

/-- `bytes(sz)`. -/
def Size.bytes : Size → Nat
  | .b => 1
  | .w => 2
  | .l => 4

/-- `mask(sz, v) = v mod 2^bits(sz)`. -/
def mask (sz : Size) (v : Long) : Long := BitVec.ofNat 32 (v.toNat % 2 ^ Size.bits sz)

/-- `msb(sz, v) = v[bits(sz)-1]`. -/
def msb (sz : Size) (v : Long) : Bool := v.getLsbD (Size.bits sz - 1)

/-- `MARKER` as a 3-bit code (10_state R25). -/
def Marker.code : Marker → BitVec 3
  | .none => 0
  | .read => 1
  | .prefetch => 2
  | .long => 3
  | .bad4 => 4
  | .bad5 => 5
  | .bad6 => 6
  | .finished => 7

/-- The values at which a handler is in progress, "non-terminal" (10_state R25, R32). That the codes 4, 5 and 6 are not
among them is the model's reading (DESIGN CHOICE; log 10): they are neither "non-terminal" nor one of the two values at
which no handler is in progress, and `Machine/Protocol.lean` refuses at them by another name. -/
def Marker.inProgress : Marker → Bool
  | .read => true
  | .prefetch => true
  | .long => true
  | .none => false
  | .finished => false
  | .bad4 => false
  | .bad5 => false
  | .bad6 => false

/-- The five named values (R25). -/
def Marker.named : Marker → Bool
  | .none => true
  | .read => true
  | .prefetch => true
  | .long => true
  | .finished => true
  | .bad4 => false
  | .bad5 => false
  | .bad6 => false

/-- The packed view `CCR[3:0] = N:Z:V:C` (10_state R23). -/
def Flags.ccr (f : Flags) : BitVec 4 :=
  BitVec.ofBool f.n ++ BitVec.ofBool f.z ++ BitVec.ofBool f.v ++ BitVec.ofBool f.c

/-! ## Registers (10_state R21, R22) -/

/-- Reading `D[i]`. -/
def State.readD (s : State) (i : RegNum) : Long := s.d[i]

/-- Reading `A[i]`. -/
def State.readA (s : State) (i : RegNum) : Long := s.a[i]

/-- `D[i] <- v`. No instruction writes a data register (43 R170); the core does at boot (70 R251). -/
def State.writeD (s : State) (i : RegNum) (v : Long) : State := { s with d := s.d.set i v }

/-- `A[i] <- v`. -/
def State.writeA (s : State) (i : RegNum) (v : Long) : State := { s with a := s.a.set i v }

/-! ## The ledger (41 R130 to R136) -/

/-- `cost(tag)` (R134). -/
def Tag.cost (c : Cost) : Tag → Nat
  | .readB => c.read
  | .readW => c.read
  | .writeB => c.write
  | .writeW => c.write
  | .prefetch => c.prefetch
  | .idleN => c.idle

/-- `Charge(c)` (R131). -/
def State.charge (s : State) (c : Nat) : State :=
  { s with ledger := { s.ledger with cycles := s.ledger.cycles + c } }

/-- `Record(tag)` (R132). -/
def State.record (s : State) (t : Tag) : State :=
  { s with ledger := { cycles := s.ledger.cycles + Tag.cost s.config.cost t, log := s.ledger.log ++ [t] } }

/-- `Prefetch()` (R133): a tag, no data request, no change of `pc`. -/
def State.completionPrefetch (s : State) : State := s.record .prefetch

/-- `LedgerClear()` (R136). -/
def State.ledgerClear (s : State) : State := { s with ledger := { cycles := 0, log := [] } }

/-! ## Memory (20_memory R51 to R58) -/

/-- `MemRead(addr, 1)` (R51). -/
def State.memReadByte (s : State) (a : Long) : Byte := Memory.read s.mem a

/-- `MemRead(addr, 2)`, big-endian (R52). -/
def State.memReadWord (s : State) (a : Long) : Word := Memory.read s.mem a ++ Memory.read s.mem (a + 1)

/-- `MemWrite(addr, 1, v)` (R56): used by no instruction. -/
def State.memWriteByte (s : State) (a : Long) (v : Byte) : State := { s with mem := Memory.write s.mem a v }

/-- `MemWrite(addr, 2, v)`, big-endian (R56): used by no instruction. -/
def State.memWriteWord (s : State) (a : Long) (v : Word) : State :=
  (s.memWriteByte a (v.extractLsb' 8 8)).memWriteByte (a + 1) (v.extractLsb' 0 8)

/-- A 2-byte request is legal at an even address only (R55). -/
def isOdd (a : Long) : Bool := a.getLsbD 0

/-- `BusRead(READ_B, addr, 1)` (41 R132): legal at any address (R55). -/
def State.busReadByte (s : State) (a : Long) : Byte × State := (s.memReadByte a, s.record .readB)

/-- `BusRead(tag, addr, 2)` (41 R132), refused at an odd address (R55). -/
def State.busReadWord (s : State) (t : Tag) (a : Long) : Except Refusal (Word × State) :=
  if isOdd a then .error .oddWordAccess else .ok (s.memReadWord a, s.record t)

/-- An extension-word fetch: `w <- BusRead(PREFETCH, pc, 2); pc <- pc + 2` (40 R108 to R112). -/
def State.fetchExt (s : State) : Except Refusal (Word × State) :=
  match s.busReadWord .prefetch s.pc with
  | .error r => .error r
  | .ok (w, s1) => .ok (w, { s1 with pc := s.pc + 2 })

/-- `Peek(addr, 2)` (R58): what `MemRead` would return, with no bus activity; refused at an odd address (R55) and
where the bus layer offers no side-effect-free view of one of the two bytes. -/
def State.peekWord (s : State) (a : Long) : Except Refusal Word :=
  if isOdd a then .error .oddWordAccess
  else if s.config.unpeekable.contains a.toNat || s.config.unpeekable.contains (a + 1).toNat then
    .error .peekHasSideEffect
  else .ok (s.memReadWord a)

/-! ## Raising an event (60 R220 to R223) -/

/-- `raise Fatal(r)`: latches `FATAL` and `FATAL_REASON` and leaves every other element (10_state R29, 60 R222,
R223). It is the whole of trap entry: nothing is saved, no mode changes, there is no vector (R226), and only reset
undoes it (R227). -/
def State.raiseFatal (s : State) (r : FatalReason) : State := { s with fatal := true, fatalReason := r }

/-- What a port of the block answers (00_scope R11): a next state, an event with the state it leaves, or a refusal. -/
inductive Result where
  | next (s : State)
  /-- `Illegal(op)`: the state is the one before the lookup (60 R221). -/
  | illegal (op : Word) (s : State)
  /-- `Fatal(r)`: the state has the latch set (60 R222). -/
  | fatal (r : FatalReason) (s : State)
  | refused (r : Refusal)
  deriving DecidableEq, Repr

/-- The outcome of a step: "A model maps `Fatal` to a fault that is never final, and a refusal to its refusal mark"
(R11; log 6); `Illegal` is a fault outcome (60 R221; log 7). -/
def Result.toOutcome : Result → Host.Outcome State Fault Refusal
  | .next s => .next s
  | .illegal op _ => .fault (.illegal op)
  | .fatal r _ => .fault (.fatal r)
  | .refused r => .refused r

end Sys2Proof.Machine
end

