-- ==== Sys2Proof/Machine/Flags.lean ====
section
/-! DEFINITION. The ALU and the flag engine (42). The only operation is the subtraction of COMPARE. -/

namespace Sys2Proof.Machine

/-- What `Sub` returns: the masked result and the three sign bits (42 R150). -/
structure SubResult where
  r : Long
  sm : Bool
  dm : Bool
  rm : Bool
  deriving DecidableEq, Repr

/-- `Sub(sz, dst, src)` (R150): modular subtraction at the operation's width. -/
def sub (sz : Size) (dst src : Long) : SubResult :=
  let d := mask sz dst
  let s := mask sz src
  let r := mask sz (d - s)
  { r := r, sm := msb sz s, dm := msb sz d, rm := msb sz r }

/-- `Z` (R152). -/
def zeroFlag (x : SubResult) : Bool := decide (x.r = 0)

/-- `N` (R153). -/
def negativeFlag (x : SubResult) : Bool := x.rm

/-- `V` (R154). -/
def overflowFlag (x : SubResult) : Bool := (x.sm ^^ x.dm) && (x.rm ^^ x.dm)

/-- `C` (R155). -/
def carryFlag (x : SubResult) : Bool := (x.sm && !x.dm) || (x.rm && !x.dm) || (x.sm && x.rm)

/-- `SetFlagsCompare(Sm, Dm, Rm, r)` (R151): all four flags. -/
def compareFlags (x : SubResult) : Flags :=
  { n := negativeFlag x, z := zeroFlag x, v := overflowFlag x, c := carryFlag x }

/-- Committing the four flags of `D[dreg] - src` and nothing else (R151, R157). -/
def State.setFlagsCompare (s : State) (sz : Size) (dreg : RegNum) (src : Long) : State :=
  { s with flags := compareFlags (sub sz (s.readD dreg) src) }

end Sys2Proof.Machine
end

