-- ==== Sys2Proof/Machine/Operands.lean ====
section
/-! DEFINITION. The Effective-Address Resolver (40): the step table, the steps of the ten modes, `EaBeginRead` and
`EaPoll`. -/

namespace Sys2Proof.Machine

/-! ## The step table (R102) -/

/-- The tag of a one-request data read (20_memory R53). -/
def dataTag : Size → Tag
  | .b => .readB
  | .w => .readW
  | .l => .readW

/-- The tags of `DataRead(sz)`: a long-word is two word reads (20_memory R54). -/
def dataTags : Size → List Tag
  | .b => [.readB]
  | .w => [.readW]
  | .l => [.readW, .readW]

/-- The tags recorded by the steps of an operand fetch, in order (R102). -/
def fetchTags (m : Mode) (sz : Size) : List Tag :=
  match m with
  | .dreg => []
  | .areg => []
  | .ind => dataTags sz
  | .postinc => dataTags sz
  | .predec => .idleN :: dataTags sz
  | .disp16 => .prefetch :: dataTags sz
  | .index => .idleN :: .prefetch :: dataTags sz
  | .absW => .prefetch :: dataTags sz
  | .absL => .prefetch :: .prefetch :: dataTags sz
  | .imm =>
    match sz with
    | .b => [.prefetch]
    | .w => [.prefetch]
    | .l => [.prefetch, .prefetch]

/-- `NSteps` (R102). -/
def nSteps (m : Mode) (sz : Size) : Nat :=
  match m, sz with
  | .dreg, _ => 0
  | .areg, _ => 0
  | .ind, .l => 2
  | .ind, _ => 1
  | .postinc, .l => 2
  | .postinc, _ => 1
  | .predec, .l => 3
  | .predec, _ => 2
  | .disp16, .l => 3
  | .disp16, _ => 2
  | .index, .l => 4
  | .index, _ => 3
  | .absW, .l => 3
  | .absW, _ => 2
  | .absL, .l => 4
  | .absL, _ => 3
  | .imm, .l => 2
  | .imm, _ => 1

/-! ## The descriptor -/

/-- `EA.addr <- v`. -/
def State.setEaAddr (s : State) (v : Long) : State := { s with ea := { s.ea with addr := v } }

/-- `EA.value <- v`. -/
def State.setEaValue (s : State) (v : Long) : State := { s with ea := { s.ea with value := v } }

/-- `Inc(sz, reg)` (R115). -/
def inc (c : Config) (sz : Size) (reg : RegNum) : Long :=
  match sz with
  | .b => if reg = 7 then BitVec.ofNat 32 c.a7ByteStep else 1
  | .w => 2
  | .l => 4

/-! ## The data reads (R102: RB, RW, RH, RL) -/

/-- `RB`. -/
def readDataByte (s : State) : Except Refusal State :=
  let (v, s1) := s.busReadByte s.ea.addr
  .ok (s1.setEaValue (zext8 v))

/-- `RW`. -/
def readDataWord (s : State) : Except Refusal State :=
  match s.busReadWord .readW s.ea.addr with
  | .error r => .error r
  | .ok (w, s1) => .ok (s1.setEaValue (zext16 w))

/-- The high word of a long-word operand, at `EA.addr`, put in bits 31..16 over `low` (`RH`). -/
def readDataHigh (s : State) (low : Long) : Except Refusal State :=
  match s.busReadWord .readW s.ea.addr with
  | .error r => .error r
  | .ok (w, s1) => .ok (s1.setEaValue (low ||| (zext16 w <<< 16)))

/-- The low word of a long-word operand, at `EA.addr + 2`, put in bits 15..0 over `high` (`RL`). -/
def readDataLow (s : State) (high : Long) : Except Refusal State :=
  match s.busReadWord .readW (s.ea.addr + 2) with
  | .error r => .error r
  | .ok (w, s1) => .ok (s1.setEaValue (high ||| zext16 w))

/-- `DataRead(sz)[1]`; at size L the half that `LONG_HIGH_FIRST` names first, on an empty value. -/
def dataReadFirst (sz : Size) (s : State) : Except Refusal State :=
  match sz with
  | .b => readDataByte s
  | .w => readDataWord s
  | .l => if s.config.longHighFirst then readDataHigh s 0 else readDataLow s 0

/-- `DataRead(L)[2]`: the other half, over the value so far. -/
def dataReadSecond (s : State) : Except Refusal State :=
  if s.config.longHighFirst then readDataLow s s.ea.value else readDataHigh s s.ea.value

/-! ## The steps of the ten modes; `k` counts the steps already performed -/

/-- Register-direct modes have no step (R103, R104). -/
def stepNone (s : State) : Except Refusal State := .ok s

/-- IND (R105). -/
def stepInd (sz : Size) (k : Nat) (s : State) : Except Refusal State :=
  match k with
  | 0 => dataReadFirst sz (s.setEaAddr (s.readA s.ea.reg))
  | _ => dataReadSecond s

/-- The post-increment of `A[reg]`, after the last data read (R106). -/
def State.increment (s : State) (sz : Size) : State :=
  s.writeA s.ea.reg (s.readA s.ea.reg + inc s.config sz s.ea.reg)

/-- POSTINC (R106). -/
def stepPostinc (sz : Size) (k : Nat) (s : State) : Except Refusal State :=
  match k with
  | 0 =>
    match dataReadFirst sz (s.setEaAddr (s.readA s.ea.reg)) with
    | .error r => .error r
    | .ok s1 => if sz = .l then .ok s1 else .ok (s1.increment sz)
  | _ =>
    match dataReadSecond s with
    | .error r => .error r
    | .ok s1 => .ok (s1.increment sz)

/-- `Record(IDLE_N); A[reg] <- A[reg] - Inc(sz, reg); EA.addr <- A[reg]` (R107, step 1). -/
def State.decrement (s : State) (sz : Size) : State :=
  let v := s.readA s.ea.reg - inc s.config sz s.ea.reg
  ((s.record .idleN).writeA s.ea.reg v).setEaAddr v

/-- PREDEC (R107). -/
def stepPredec (sz : Size) (k : Nat) (s : State) : Except Refusal State :=
  match k with
  | 0 => .ok (s.decrement sz)
  | 1 => dataReadFirst sz s
  | _ => dataReadSecond s

/-- DISP16 (R108). -/
def stepDisp16 (sz : Size) (k : Nat) (s : State) : Except Refusal State :=
  match k with
  | 0 =>
    match s.fetchExt with
    | .error r => .error r
    | .ok (w, s1) => .ok (s1.setEaAddr (s.readA s.ea.reg + sext16 w))
  | 1 => dataReadFirst sz s
  | _ => dataReadSecond s

/-- The index value `idx` (30_encoding R85). -/
def indexValue (s : State) (x : IndexWord) : Long :=
  let v := if x.isAddress then s.readA x.reg else s.readD x.reg
  if x.isLong then v else sext16 (v.extractLsb' 0 16)

/-- The operand address of INDEX: `A[reg] + sext_8(d8) + idx` (30_encoding R85). -/
def indexAddress (s : State) (reg : RegNum) (x : IndexWord) : Long :=
  s.readA reg + sext8 x.disp + indexValue s x

/-- INDEX (R109). -/
def stepIndex (sz : Size) (k : Nat) (s : State) : Except Refusal State :=
  match k with
  | 0 => .ok (s.record .idleN)
  | 1 =>
    match s.fetchExt with
    | .error r => .error r
    | .ok (w, s1) => .ok (s1.setEaAddr (indexAddress s s.ea.reg (indexWordOf w)))
  | 2 => dataReadFirst sz s
  | _ => dataReadSecond s

/-- ABS_W (R110). -/
def stepAbsW (sz : Size) (k : Nat) (s : State) : Except Refusal State :=
  match k with
  | 0 =>
    match s.fetchExt with
    | .error r => .error r
    | .ok (w, s1) => .ok (s1.setEaAddr (sext16 w))
  | 1 => dataReadFirst sz s
  | _ => dataReadSecond s

/-- ABS_L (R111). -/
def stepAbsL (sz : Size) (k : Nat) (s : State) : Except Refusal State :=
  match k with
  | 0 =>
    match s.fetchExt with
    | .error r => .error r
    | .ok (w, s1) => .ok (s1.setEaAddr (zext16 w <<< 16))
  | 1 =>
    match s.fetchExt with
    | .error r => .error r
    | .ok (w, s1) => .ok (s1.setEaAddr (s.ea.addr ||| zext16 w))
  | 2 => dataReadFirst sz s
  | _ => dataReadSecond s

/-- The first word of an immediate: at size B its low byte, at W the word, at L the high half (R112, 30 R86). -/
def immediateFirst (sz : Size) (w : Word) : Long :=
  match sz with
  | .b => zext8 (w.extractLsb' 0 8)
  | .w => zext16 w
  | .l => zext16 w <<< 16

/-- IMM (R112). -/
def stepImm (sz : Size) (k : Nat) (s : State) : Except Refusal State :=
  match k with
  | 0 =>
    match s.fetchExt with
    | .error r => .error r
    | .ok (w, s1) => .ok (s1.setEaValue (immediateFirst sz w))
  | _ =>
    match s.fetchExt with
    | .error r => .error r
    | .ok (w, s1) => .ok (s1.setEaValue (s.ea.value ||| zext16 w))

/-- Step number `k + 1` of a mode and size (R102). -/
def eaStep (m : Mode) (sz : Size) (k : Nat) (s : State) : Except Refusal State :=
  match m with
  | .dreg => stepNone s
  | .areg => stepNone s
  | .ind => stepInd sz k s
  | .postinc => stepPostinc sz k s
  | .predec => stepPredec sz k s
  | .disp16 => stepDisp16 sz k s
  | .index => stepIndex sz k s
  | .absW => stepAbsW sz k s
  | .absL => stepAbsL sz k s
  | .imm => stepImm sz k s

/-! ## The resolver's two entries -/

/-- What `EaBeginRead` answers. -/
inductive Begin where
  | begun (s : State)
  | fatal (r : FatalReason) (s : State)
  | refused (r : Refusal)
  deriving DecidableEq, Repr

/-- `EaBeginRead(op, sz)` (R100): the mode check, then the size check, then AREG at size B; nothing is recorded or
charged, and `EA.addr`, `EA.value` keep what they held. -/
def eaBeginRead (f : Form) (s : State) : Begin :=
  if s.ea.active then .refused .eaBusy
  else
    match f.mode, f.size with
    | none, _ => .fatal .unsupportedEaMode (s.raiseFatal .unsupportedEaMode)
    | some _, none => .fatal .badSizeField (s.raiseFatal .badSizeField)
    | some m, some sz =>
      if m = .areg ∧ sz = .b then .fatal .unsupportedEaMode (s.raiseFatal .unsupportedEaMode)
      else .begun { s with ea := { s.ea with active := true, mode := m, reg := f.reg, size := sz, step := 0 } }

/-- What `EaPoll` answers: the out value of an unresolved poll is undefined (R101) and is not given. -/
inductive Poll where
  | unresolved (s : State)
  | done (value : Long) (s : State)
  | refused (r : Refusal)
  deriving DecidableEq, Repr

/-- The value reported when done: a register-direct operand is sampled now, masked; any other was assembled by the
steps (R101, R118). -/
def eaResult (s : State) : Long :=
  match s.ea.mode with
  | .dreg => mask s.ea.size (s.readD s.ea.reg)
  | .areg => mask s.ea.size (s.readA s.ea.reg)
  | _ => s.ea.value

/-- `EaPoll()` (R101). -/
def eaPoll (s : State) : Poll :=
  if s.ea.active then
    if s.ea.step.toNat < nSteps s.ea.mode s.ea.size then
      match eaStep s.ea.mode s.ea.size s.ea.step.toNat s with
      | .error r => .refused r
      | .ok s1 => .unresolved { s1 with ea := { s1.ea with step := s.ea.step + 1 } }
    else .done (eaResult s) { s with ea := { s.ea with active := false } }
  else .refused .eaIdle

/-- `C_EA(mode, sz)` (R116). -/
def eaCost (c : Cost) (m : Mode) (sz : Size) : Nat :=
  ((fetchTags m sz).map (Tag.cost c)).sum + nSteps m sz * c.readWait

end Sys2Proof.Machine
end

