-- ==== Sys2Proof/Machine/Tables.lean ====
section
/-! DEFINITION. The Dispatch Table Builder and the lookup (44). -/

namespace Sys2Proof.Machine

/-- `EXEC[op]` (10_state R27). -/
def State.execAt (s : State) (op : Word) : ExecEntry := Sparse.read .illegal op.toNat s.execTable

/-- `PRINT[op]` (10_state R27). -/
def State.printAt (s : State) (op : Word) : PrintEntry := Sparse.read .illegal op.toNat s.printTable

/-- `EaValid(ea, excl)` (R181). -/
def eaValid (ea : BitVec 6) (excl : List Mode) : Bool :=
  match modeOf ea with
  | none => false
  | some m => !excl.contains m

/-- The pairs of size code and exclusion set of COMPARE (R182, R183). -/
def compareSizes : List (Nat × List Mode) := [(0, [.areg]), (1, []), (2, [])]

/-- The slots of one destination register and size, in the order of the loop over `ea` (R183). -/
def compareSlotsOf (dreg : Nat) (sizeCode : Nat) (excl : List Mode) : List Nat :=
  ((List.range 64).filter fun ea => eaValid (BitVec.ofNat 6 ea) excl).map
    fun ea => 0xB000 ||| dreg <<< 9 ||| sizeCode <<< 6 ||| ea

/-- Every slot that `RegisterCompare` writes (R183). -/
def compareSlots : List Nat :=
  (List.range 8).flatMap fun dreg => compareSizes.flatMap fun p => compareSlotsOf dreg p.1 p.2

/-- `EXEC[op] <- h` for each slot. "The order of the loops does not matter" (R183): the last slot is written first. -/
def writeSlots {β : Type} [DecidableEq β] (dflt h : β) (slots : List Nat) (t : List (Nat × β)) : List (Nat × β) :=
  slots.foldr (fun op t => Sparse.write dflt op h t) t

/-- `RegisterCompare(EXEC, PRINT)` (R183), the registration port of the COMPARE class (10_state R38). -/
def registerCompare (s : State) : State :=
  { s with execTable := writeSlots .illegal .hCmp compareSlots s.execTable,
           printTable := writeSlots .illegal .pCmp compareSlots s.printTable }

/-- The slots a class claims (R189). -/
def classSlots : InstrClass → List Nat
  | .compare => compareSlots

/-- The registration routine of a class (R189). -/
def registerClass : InstrClass → State → State
  | .compare => registerCompare

/-- Whether two classes of a configuration claim one slot (R189). -/
def claimsTwice : List InstrClass → Bool
  | [] => false
  | c :: t => t.any (fun c' => (classSlots c).any fun op => (classSlots c').contains op) || claimsTwice t

/-- Tables whose every entry is `ILLEGAL` (R184). -/
def State.clearTables (s : State) : State := { s with execTable := [], printTable := [] }

/-- `BuildTables()` (R184): all `ILLEGAL`, then each class of `CLASSES`; a configuration in which two classes claim
one slot is refused (R189). -/
def buildTables (s : State) : Result :=
  if claimsTwice s.config.classes then .refused .slotClaimedTwice
  else .next { s.config.classes.foldl (fun t c => registerClass c t) s.clearTables with built := true }

/-- `Dispatch(op)` (R185), the lookup port: changes no state; before the build it is refused (70 R251). -/
def dispatch (op : Word) (s : State) : Result :=
  if s.built then
    match s.execAt op with
    | .illegal => .illegal op s
    | .hCmp => .next s
  else .refused .dispatchBeforeBuild

/-- `PrintDispatch(op)` (R185). -/
def printDispatch (op : Word) (s : State) : Result :=
  if s.built then
    match s.printAt op with
    | .illegal => .illegal op s
    | .pCmp => .next s
  else .refused .dispatchBeforeBuild

/-- The closed form of the decoder (R187). -/
def legalCompare (op : Word) : Bool :=
  classField op == 0b1011#4 && dirField op == 0#1 && sizeField op != 0b11#2 &&
    !([0x3A#6, 0x3B#6, 0x3D#6, 0x3E#6, 0x3F#6].contains (eaField op)) &&
    !(sizeField op == 0#2 && op.extractLsb' 3 3 == 0b001#3)

end Sys2Proof.Machine
end

