-- ==== Sys2Proof/Machine/Compare.lean ====
section
/-! DEFINITION. The per-opcode state machine (43): the micro-steps of the COMPARE handler and the tick, one call of
the execute port (10_state R36). -/

namespace Sys2Proof.Machine

/-- What one micro-step answers: `again` has consumed no time and chains, `consumed` ends the tick (R161). -/
inductive Micro where
  | again (s : State)
  | consumed (s : State)
  | fatal (r : FatalReason) (s : State)
  | refused (r : Refusal)
  deriving DecidableEq, Repr

/-- State `NONE` (R162). The ghost copy of the opcode is taken here (70 R262). -/
def microNone (op : Word) (f : Form) (s : State) : Micro :=
  match eaBeginRead f s with
  | .begun s1 => .again { s1 with marker := .read, opcode := some op }
  | .fatal r s1 => .fatal r s1
  | .refused r => .refused r

/-- State `READ` (R163). A size outside the three encodings cannot reach it and is the internal-consistency failure
of 60 R220 (c) if it does (DEDUCED, safe; log 14). -/
def microRead (f : Form) (s : State) : Micro :=
  match f.size with
  | none => .fatal .badSizeField (s.raiseFatal .badSizeField)
  | some sz =>
    match eaPoll s with
    | .refused r => .refused r
    | .unresolved s1 => .consumed (s1.charge s.config.cost.readWait)
    | .done v s1 => .again { s1.setFlagsCompare sz f.dreg v with marker := .prefetch }

/-- State `PREFETCH` (R164). -/
def microPrefetch (f : Form) (s : State) : Micro :=
  .consumed { (s.charge s.config.cost.instr).completionPrefetch with
    marker := if f.size = some .l then .long else .finished }

/-- State `LONG` (R165). -/
def microLong (s : State) : Micro :=
  .consumed { s.charge s.config.cost.long with marker := .finished }

/-- One micro-step of the handler (R161). -/
def microStep (op : Word) (f : Form) (s : State) : Micro :=
  match s.marker with
  | .none => microNone op f s
  | .read => microRead f s
  | .prefetch => microPrefetch f s
  | .long => microLong s
  | .finished => .consumed s
  | .bad4 => .refused .badMarker
  | .bad5 => .refused .badMarker
  | .bad6 => .refused .badMarker

/-- `repeat … until consumed` (R161), with fuel: at most three micro-steps chain (`NONE`, `READ`, `PREFETCH`), so
three are enough and the fuel never runs out. -/
def untilConsumed (op : Word) (f : Form) : Nat → State → Result
  | 0, s => .next s
  | k + 1, s =>
    match microStep op f s with
    | .again s1 => untilConsumed op f k s1
    | .consumed s1 => .next s1
    | .fatal r s1 => .fatal r s1
    | .refused r => .refused r

/-- `Tick(op)` (R161), with the fields of `op` given: the guards, the no-op at `FINISHED` (R166), the stability of
the opcode in mid-instruction (70 R262), then micro-steps until one has consumed time. -/
def compareTick (op : Word) (f : Form) (s : State) : Result :=
  if s.fatal then .refused .afterFatal
  else
    match s.execAt op with
    | .illegal => .refused .notDispatched
    | .hCmp =>
      match s.marker with
      | .finished => .next s
      | .bad4 => .refused .badMarker
      | .bad5 => .refused .badMarker
      | .bad6 => .refused .badMarker
      | .none => untilConsumed op f 3 s
      | .read => if s.opcode = some op then untilConsumed op f 3 s else .refused .opcodeChanged
      | .prefetch => if s.opcode = some op then untilConsumed op f 3 s else .refused .opcodeChanged
      | .long => if s.opcode = some op then untilConsumed op f 3 s else .refused .opcodeChanged

/-- The execute port, `execute(processor_state, opcode)` (10_state R36): one tick, the fields taken from the opcode. -/
def executePort (op : Word) (s : State) : Result := compareTick op (formOf op) s

/-- One tick of the COMPARE with the given size, mode and registers: the shared operation of the 29 meanings. -/
def tickCompare (sz : Size) (m : Mode) (dreg reg : RegNum) (s : State) : Host.Outcome State Fault Refusal :=
  (compareTick (opcodeOf sz m dreg reg) { size := some sz, mode := some m, dreg := dreg, reg := reg } s).toOutcome

end Sys2Proof.Machine
end

