-- ==== Sys2Proof/Machine/CmpB.lean ====
section
/-! DEFINITION. The meanings of the rows of CMP.B (43 R167): one call of `execute` is one tick (R161). -/

namespace Sys2Proof.Machine

/-- `CMP.B` with a DREG source (R167, 40 R103). -/
def execCmpBDreg (dreg reg : RegNum) (s : State) : Host.Outcome State Fault Refusal :=
  tickCompare .b .dreg dreg reg s

/-- `CMP.B` with a IND source (R167, 40 R105). -/
def execCmpBInd (dreg reg : RegNum) (s : State) : Host.Outcome State Fault Refusal :=
  tickCompare .b .ind dreg reg s

/-- `CMP.B` with a POSTINC source (R167, 40 R106). -/
def execCmpBPostinc (dreg reg : RegNum) (s : State) : Host.Outcome State Fault Refusal :=
  tickCompare .b .postinc dreg reg s

/-- `CMP.B` with a PREDEC source (R167, 40 R107). -/
def execCmpBPredec (dreg reg : RegNum) (s : State) : Host.Outcome State Fault Refusal :=
  tickCompare .b .predec dreg reg s

/-- `CMP.B` with a DISP16 source (R167, 40 R108). -/
def execCmpBDisp16 (dreg reg : RegNum) (s : State) : Host.Outcome State Fault Refusal :=
  tickCompare .b .disp16 dreg reg s

/-- `CMP.B` with a INDEX source (R167, 40 R109). -/
def execCmpBIndex (dreg reg : RegNum) (s : State) : Host.Outcome State Fault Refusal :=
  tickCompare .b .index dreg reg s

/-- `CMP.B` with an ABS_W source (R167, 40 R110). -/
def execCmpBAbsW (dreg : RegNum) (s : State) : Host.Outcome State Fault Refusal :=
  tickCompare .b .absW dreg 0 s

/-- `CMP.B` with an ABS_L source (R167, 40 R111). -/
def execCmpBAbsL (dreg : RegNum) (s : State) : Host.Outcome State Fault Refusal :=
  tickCompare .b .absL dreg 1 s

/-- `CMP.B` with an IMM source (R167, 40 R112). -/
def execCmpBImm (dreg : RegNum) (s : State) : Host.Outcome State Fault Refusal :=
  tickCompare .b .imm dreg 4 s

end Sys2Proof.Machine
end

