-- ==== Sys2Proof/Machine/CmpW.lean ====
section
/-! DEFINITION. The meanings of the rows of CMP.W (43 R168): one call of `execute` is one tick (R161). -/

namespace Sys2Proof.Machine

/-- `CMP.W` with a DREG source (R168, 40 R103). -/
def execCmpWDreg (dreg reg : RegNum) (s : State) : Host.Outcome State Fault Refusal :=
  tickCompare .w .dreg dreg reg s

/-- `CMP.W` with a AREG source (R168, 40 R104). -/
def execCmpWAreg (dreg reg : RegNum) (s : State) : Host.Outcome State Fault Refusal :=
  tickCompare .w .areg dreg reg s

/-- `CMP.W` with a IND source (R168, 40 R105). -/
def execCmpWInd (dreg reg : RegNum) (s : State) : Host.Outcome State Fault Refusal :=
  tickCompare .w .ind dreg reg s

/-- `CMP.W` with a POSTINC source (R168, 40 R106). -/
def execCmpWPostinc (dreg reg : RegNum) (s : State) : Host.Outcome State Fault Refusal :=
  tickCompare .w .postinc dreg reg s

/-- `CMP.W` with a PREDEC source (R168, 40 R107). -/
def execCmpWPredec (dreg reg : RegNum) (s : State) : Host.Outcome State Fault Refusal :=
  tickCompare .w .predec dreg reg s

/-- `CMP.W` with a DISP16 source (R168, 40 R108). -/
def execCmpWDisp16 (dreg reg : RegNum) (s : State) : Host.Outcome State Fault Refusal :=
  tickCompare .w .disp16 dreg reg s

/-- `CMP.W` with a INDEX source (R168, 40 R109). -/
def execCmpWIndex (dreg reg : RegNum) (s : State) : Host.Outcome State Fault Refusal :=
  tickCompare .w .index dreg reg s

/-- `CMP.W` with an ABS_W source (R168, 40 R110). -/
def execCmpWAbsW (dreg : RegNum) (s : State) : Host.Outcome State Fault Refusal :=
  tickCompare .w .absW dreg 0 s

/-- `CMP.W` with an ABS_L source (R168, 40 R111). -/
def execCmpWAbsL (dreg : RegNum) (s : State) : Host.Outcome State Fault Refusal :=
  tickCompare .w .absL dreg 1 s

/-- `CMP.W` with an IMM source (R168, 40 R112). -/
def execCmpWImm (dreg : RegNum) (s : State) : Host.Outcome State Fault Refusal :=
  tickCompare .w .imm dreg 4 s

end Sys2Proof.Machine
end

