-- ==== Sys2Proof/Machine/CmpL.lean ====
section
/-! DEFINITION. The meanings of the rows of CMP.L (43 R169): one call of `execute` is one tick (R161). -/

namespace Sys2Proof.Machine

/-- `CMP.L` with a DREG source (R169, 40 R103). -/
def execCmpLDreg (dreg reg : RegNum) (s : State) : Host.Outcome State Fault Refusal :=
  tickCompare .l .dreg dreg reg s

/-- `CMP.L` with a AREG source (R169, 40 R104). -/
def execCmpLAreg (dreg reg : RegNum) (s : State) : Host.Outcome State Fault Refusal :=
  tickCompare .l .areg dreg reg s

/-- `CMP.L` with a IND source (R169, 40 R105). -/
def execCmpLInd (dreg reg : RegNum) (s : State) : Host.Outcome State Fault Refusal :=
  tickCompare .l .ind dreg reg s

/-- `CMP.L` with a POSTINC source (R169, 40 R106). -/
def execCmpLPostinc (dreg reg : RegNum) (s : State) : Host.Outcome State Fault Refusal :=
  tickCompare .l .postinc dreg reg s

/-- `CMP.L` with a PREDEC source (R169, 40 R107). -/
def execCmpLPredec (dreg reg : RegNum) (s : State) : Host.Outcome State Fault Refusal :=
  tickCompare .l .predec dreg reg s

/-- `CMP.L` with a DISP16 source (R169, 40 R108). -/
def execCmpLDisp16 (dreg reg : RegNum) (s : State) : Host.Outcome State Fault Refusal :=
  tickCompare .l .disp16 dreg reg s

/-- `CMP.L` with a INDEX source (R169, 40 R109). -/
def execCmpLIndex (dreg reg : RegNum) (s : State) : Host.Outcome State Fault Refusal :=
  tickCompare .l .index dreg reg s

/-- `CMP.L` with an ABS_W source (R169, 40 R110). -/
def execCmpLAbsW (dreg : RegNum) (s : State) : Host.Outcome State Fault Refusal :=
  tickCompare .l .absW dreg 0 s

/-- `CMP.L` with an ABS_L source (R169, 40 R111). -/
def execCmpLAbsL (dreg : RegNum) (s : State) : Host.Outcome State Fault Refusal :=
  tickCompare .l .absL dreg 1 s

/-- `CMP.L` with an IMM source (R169, 40 R112). -/
def execCmpLImm (dreg : RegNum) (s : State) : Host.Outcome State Fault Refusal :=
  tickCompare .l .imm dreg 4 s

end Sys2Proof.Machine
end

