-- ==== Sys2Proof/Machine/Dispatch.lean ====
section
/-! DEFINITION. One arm per constructor of `Instr`, each one call of its meaning. -/

namespace Sys2Proof.Machine

/-- What an instruction does in one tick (43 R161). -/
def exec (i : Instr) (s : State) : Host.Outcome State Fault Refusal :=
  match i with
  | .cmpBDreg dreg reg => Sys2Proof.Machine.execCmpBDreg dreg reg s
  | .cmpBInd dreg reg => Sys2Proof.Machine.execCmpBInd dreg reg s
  | .cmpBPostinc dreg reg => Sys2Proof.Machine.execCmpBPostinc dreg reg s
  | .cmpBPredec dreg reg => Sys2Proof.Machine.execCmpBPredec dreg reg s
  | .cmpBDisp16 dreg reg => Sys2Proof.Machine.execCmpBDisp16 dreg reg s
  | .cmpBIndex dreg reg => Sys2Proof.Machine.execCmpBIndex dreg reg s
  | .cmpBAbsW dreg => Sys2Proof.Machine.execCmpBAbsW dreg s
  | .cmpBAbsL dreg => Sys2Proof.Machine.execCmpBAbsL dreg s
  | .cmpBImm dreg => Sys2Proof.Machine.execCmpBImm dreg s
  | .cmpWDreg dreg reg => Sys2Proof.Machine.execCmpWDreg dreg reg s
  | .cmpWAreg dreg reg => Sys2Proof.Machine.execCmpWAreg dreg reg s
  | .cmpWInd dreg reg => Sys2Proof.Machine.execCmpWInd dreg reg s
  | .cmpWPostinc dreg reg => Sys2Proof.Machine.execCmpWPostinc dreg reg s
  | .cmpWPredec dreg reg => Sys2Proof.Machine.execCmpWPredec dreg reg s
  | .cmpWDisp16 dreg reg => Sys2Proof.Machine.execCmpWDisp16 dreg reg s
  | .cmpWIndex dreg reg => Sys2Proof.Machine.execCmpWIndex dreg reg s
  | .cmpWAbsW dreg => Sys2Proof.Machine.execCmpWAbsW dreg s
  | .cmpWAbsL dreg => Sys2Proof.Machine.execCmpWAbsL dreg s
  | .cmpWImm dreg => Sys2Proof.Machine.execCmpWImm dreg s
  | .cmpLDreg dreg reg => Sys2Proof.Machine.execCmpLDreg dreg reg s
  | .cmpLAreg dreg reg => Sys2Proof.Machine.execCmpLAreg dreg reg s
  | .cmpLInd dreg reg => Sys2Proof.Machine.execCmpLInd dreg reg s
  | .cmpLPostinc dreg reg => Sys2Proof.Machine.execCmpLPostinc dreg reg s
  | .cmpLPredec dreg reg => Sys2Proof.Machine.execCmpLPredec dreg reg s
  | .cmpLDisp16 dreg reg => Sys2Proof.Machine.execCmpLDisp16 dreg reg s
  | .cmpLIndex dreg reg => Sys2Proof.Machine.execCmpLIndex dreg reg s
  | .cmpLAbsW dreg => Sys2Proof.Machine.execCmpLAbsW dreg s
  | .cmpLAbsL dreg => Sys2Proof.Machine.execCmpLAbsL dreg s
  | .cmpLImm dreg => Sys2Proof.Machine.execCmpLImm dreg s

end Sys2Proof.Machine
end

