-- ==== Sys2Proof/Machine/Fetch.lean ====
section
/-! DEFINITION. The core's per-instruction protocol around the block (70 R251, R252), cut at the tick boundaries: boot,
the fetch-and-dispatch with the first tick, and the later ticks of the instruction in progress. -/

namespace Sys2Proof.Machine

/-- `op <- the 16-bit word at a`, "the core's own fetch, not logged by the block" (R252). It is not a request of the
block, so R55 does not bind it: an odd `pc` is fetched like any other (DEDUCED, unsafe; log 9). -/
def State.fetchOpcode (s : State) : Word := s.memReadWord s.pc

/-- `pc <- a + 2; LedgerClear(); MARKER <- NONE` (R252). -/
def beginInstruction (s : State) : State := { s.ledgerClear with pc := s.pc + 2, marker := .none }

/-- One call of the execute port with the opcode the core presents: the decoded instruction's tick, or, for an opcode
that no legal slot has and that only a corrupted table could dispatch, the handler's tick on its raw fields. -/
def tickOpcode (op : Word) (s : State) : Host.Outcome State Fault Refusal :=
  match decodeWord op with
  | .ok i => exec i s
  | .error _ => (executePort op s).toOutcome

/-- `RunOne` up to its first tick (R252): `require EA.active = 0`, fetch, dispatch, begin, tick. -/
def firstTick (s : State) : Host.Outcome State Fault Refusal :=
  if s.ea.active then .refused .eaBusy
  else
    match dispatch s.fetchOpcode s with
    | .next s1 => tickOpcode s1.fetchOpcode (beginInstruction s1)
    | .illegal op s1 => (Result.illegal op s1).toOutcome
    | .fatal r s1 => (Result.fatal r s1).toOutcome
    | .refused r => .refused r

/-- A later tick of `RunOne` (R252): the core presents the same opcode again (R262). -/
def laterTick (s : State) : Host.Outcome State Fault Refusal :=
  match s.opcode with
  | some op => tickOpcode op s
  | none => .refused .opcodeChanged

/-- The boot step (R251): the initializer runs `BuildTables`. -/
def bootStep (s : State) : Host.Outcome State Fault Refusal := (buildTables s).toOutcome

/-- One step of the machine: refused after a `Fatal` (R267); the boot step until the tables are built (R251); then
one tick, which begins the next instruction at `NONE` or `FINISHED` and goes on with the one in progress otherwise. -/
def machineStep (s : State) : Host.Outcome State Fault Refusal :=
  if s.fatal then .refused .afterFatal
  else if s.built then
    match s.marker with
    | .none => firstTick s
    | .finished => firstTick s
    | .read => laterTick s
    | .prefetch => laterTick s
    | .long => laterTick s
    | .bad4 => .refused .badMarker
    | .bad5 => .refused .badMarker
    | .bad6 => .refused .badMarker
  else bootStep s

/-- The words of `spec/opcode_table.json`'s number, stored at consecutive addresses from `a`. -/
def placeWords (a : Long) : List Word → State → State
  | [], s => s
  | x :: t, s => placeWords (a + 2) t (s.memWriteWord a x)

/-- All that it takes for the very next step to fetch and run the placed words: the words at `pc`, the tables built
with COMPARE, no instruction in progress and no latch set (log 4). -/
def placeInstruction (s : State) (nbits w : Nat) : State :=
  let s1 := placeWords s.pc (tableWords nbits w) s
  { registerCompare s1.clearTables with
    built := true, fatal := false, ea := { s.ea with active := false },
    marker := if s.marker = .finished then .finished else .none }

end Sys2Proof.Machine
end

