-- ==== Sys2Proof/Machine/Step.lean ====
section
/-! DEFINITION. One step of the machine, and where it fetches. Both only call `Machine/Fetch.lean`. -/

namespace Sys2Proof.Machine

/-- One step: the boot step or one tick (70 R251, R252; log 5). -/
def step (s : State) : Host.Outcome State Fault Refusal := machineStep s

/-- The state with an instruction of the opcode table stored where the next step fetches it (log 4). -/
def State.withFetchWord (s : State) (nbits w : Nat) : State := placeInstruction s nbits w

end Sys2Proof.Machine
end

