-- ==== Sys2Proof/Machine/BigStep.lean ====
section
/-! DEFINITION. The big-step effect of a whole instruction (43 section 2, `Compare(sz, dreg, mode, reg)`), written from
the operand definitions of 30 R85 to R87 and 40 R103 to R116 and not from the tick function: the statements compare
the two. -/

namespace Sys2Proof.Machine

/-- The value of `sz` width at an address, zero-extended; a long-word is its high word at the lower address
(20_memory R52). -/
def memOperand (sz : Size) (s : State) (a : Long) : Long :=
  match sz with
  | .b => zext8 (s.memReadByte a)
  | .w => zext16 (s.memReadWord a)
  | .l => s.memReadWord a ++ s.memReadWord (a + 2)

/-- The first extension word, at `pc`. -/
def State.ext1 (s : State) : Word := s.memReadWord s.pc

/-- The second extension word, at `pc + 2`. -/
def State.ext2 (s : State) : Word := s.memReadWord (s.pc + 2)

/-- The operand's address in the modes whose operand is in memory (R105 to R111); in the other modes the descriptor's
address is not written. -/
def operandAddress (m : Mode) (reg : RegNum) (sz : Size) (s : State) : Long :=
  match m with
  | .dreg => s.ea.addr
  | .areg => s.ea.addr
  | .imm => s.ea.addr
  | .ind => s.readA reg
  | .postinc => s.readA reg
  | .predec => s.readA reg - inc s.config sz reg
  | .disp16 => s.readA reg + sext16 s.ext1
  | .index => indexAddress s reg (indexWordOf s.ext1)
  | .absW => sext16 s.ext1
  | .absL => s.ext1 ++ s.ext2

/-- Whether the operand is in memory at `operandAddress`. -/
def Mode.inMemory : Mode → Bool
  | .dreg => false
  | .areg => false
  | .imm => false
  | .ind => true
  | .postinc => true
  | .predec => true
  | .disp16 => true
  | .index => true
  | .absW => true
  | .absL => true

/-- The immediate operand (30 R86). -/
def immediateOperand (sz : Size) (s : State) : Long :=
  match sz with
  | .b => zext8 (s.ext1.extractLsb' 0 8)
  | .w => zext16 s.ext1
  | .l => s.ext1 ++ s.ext2

/-- `Operand(mode, reg, sz)`: the source operand's value, masked and zero-extended (R101). -/
def operandValue (m : Mode) (reg : RegNum) (sz : Size) (s : State) : Long :=
  match m with
  | .dreg => mask sz (s.readD reg)
  | .areg => mask sz (s.readA reg)
  | .imm => immediateOperand sz s
  | _ => memOperand sz s (operandAddress m reg sz s)

/-- The address registers after the operand fetch: `A[reg]` in POSTINC and PREDEC, nothing else (R106, R107, R119). -/
def operandA (m : Mode) (reg : RegNum) (sz : Size) (s : State) : Vector Long 8 :=
  match m with
  | .postinc => s.a.set reg (s.readA reg + inc s.config sz reg)
  | .predec => s.a.set reg (s.readA reg - inc s.config sz reg)
  | _ => s.a

/-- `pc` after the operand fetch: 2 for each extension word (10_state R24). -/
def operandPc (m : Mode) (sz : Size) (s : State) : Long := s.pc + BitVec.ofNat 32 (2 * extWords m sz)

/-- When the operand fetch is refused (20_memory R55): an extension word at an odd `pc`, or a word or long-word
operand at an odd address. -/
def operandRefused (m : Mode) (reg : RegNum) (sz : Size) (s : State) : Bool :=
  (decide (0 < extWords m sz) && isOdd s.pc) ||
    (Mode.inMemory m && decide (sz ≠ .b) && isOdd (operandAddress m reg sz s))

/-- The descriptor a completed operand fetch leaves: inactive, every step performed. -/
def operandEa (m : Mode) (reg : RegNum) (sz : Size) (s : State) : Ea :=
  { active := false, mode := m, reg := reg, size := sz, step := BitVec.ofNat 3 (nSteps m sz),
    addr := operandAddress m reg sz s,
    value := if m = .dreg ∨ m = .areg then s.ea.value else operandValue m reg sz s }

/-- The cycles of a whole instruction (41 R138). -/
def compareCycles (c : Cost) (m : Mode) (sz : Size) : Nat :=
  eaCost c m sz + c.instr + c.prefetch + (if sz = .l then c.long else 0)

/-- The log of a whole instruction (41 R138). -/
def compareLog (m : Mode) (sz : Size) : List Tag := fetchTags m sz ++ [.prefetch]

/-- The ticks of a whole instruction (43 R171). -/
def compareTicks (m : Mode) (sz : Size) : Nat := nSteps m sz + 1 + (if sz = .l then 1 else 0)

/-- `Compare(sz, dreg, mode, reg)` (43 section 2): the state at `FINISHED`. -/
def compareEffect (sz : Size) (m : Mode) (dreg reg : RegNum) (s : State) : State :=
  { s with
    a := operandA m reg sz s
    pc := operandPc m sz s
    flags := compareFlags (sub sz (s.readD dreg) (operandValue m reg sz s))
    marker := .finished
    ea := operandEa m reg sz s
    opcode := some (opcodeOf sz m dreg reg)
    ledger := { cycles := s.ledger.cycles + compareCycles s.config.cost m sz,
                log := s.ledger.log ++ compareLog m sz } }

/-- `k` ticks of one instruction. -/
def execTicks (i : Instr) : Nat → State → Host.Outcome State Fault Refusal
  | 0, s => .next s
  | k + 1, s =>
    match exec i s with
    | .next s1 => execTicks i k s1
    | .fault r => .fault r
    | .refused r => .refused r

/-- Ticks of one instruction with the memory replaced before each: what other agents do between ticks (20_memory
R62). -/
def execTicksWith (i : Instr) : List (List Host.Cell) → State → Host.Outcome State Fault Refusal
  | [], s => .next s
  | m :: t, s =>
    match exec i { s with mem := m } with
    | .next s1 => execTicksWith i t s1
    | .fault r => .fault r
    | .refused r => .refused r

end Sys2Proof.Machine
end

