-- ==== Sys2Proof/Machine/Print.lean ====
section
/-! DEFINITION. The Disassembly/Print Adapter (45): the render port (10_state R37). It takes the state to read the
print table, the peeked words and the bus layer's capability; it returns no state. -/

namespace Sys2Proof.Machine

/-- A Disassembly Record (10_state R31, 45 R204). -/
structure DisassemblyRecord where
  address : Long
  mnemonic : String
  operands : String
  deriving DecidableEq, Repr

/-- What `render` answers. -/
inductive Rendered where
  | record (r : DisassemblyRecord)
  /-- `PRINT[op]` is the sentinel: there is no record (R207). -/
  | illegal (op : Word)
  | refused (r : Refusal)
  deriving DecidableEq, Repr

/-- The upper-case hexadecimal digit of a value below 16. -/
def hexDigit (n : Nat) : Char :=
  match n with
  | 0 => '0'
  | 1 => '1'
  | 2 => '2'
  | 3 => '3'
  | 4 => '4'
  | 5 => '5'
  | 6 => '6'
  | 7 => '7'
  | 8 => '8'
  | 9 => '9'
  | 10 => 'A'
  | 11 => 'B'
  | 12 => 'C'
  | 13 => 'D'
  | 14 => 'E'
  | _ => 'F'

/-- The `k` lowest hexadecimal digits of a value, high digit first. -/
def hexDigits : Nat → Nat → List Char
  | 0, _ => []
  | k + 1, v => hexDigit (v / 16 ^ k % 16) :: hexDigits k v

/-- `hexK(v)` (R202). -/
def hexText (k v : Nat) : String := String.ofList (hexDigits k v)

/-- A register number in decimal. -/
def regText (n : RegNum) : String := String.ofList [hexDigit n.val]

/-- The mnemonic, by the width field (R201). -/
def mnemonicText : Size → String
  | .b => "CMP.B"
  | .w => "CMP.W"
  | .l => "CMP.L"

/-- `(A` n `)`. -/
def baseText (n : RegNum) : String := "(A" ++ regText n ++ ")"

/-- The index register with its size suffix: `Xm.s` (R202). -/
def indexText (x : IndexWord) : String :=
  (if x.isAddress then "A" else "D") ++ regText x.reg ++ (if x.isLong then ".L" else ".W")

/-- The source operand string of an instruction whose extension words are `w` and `w2` (R202). -/
def sourceText (m : Mode) (sz : Size) (n : RegNum) (w w2 : Word) : String :=
  match m with
  | .dreg => "D" ++ regText n
  | .areg => "A" ++ regText n
  | .ind => baseText n
  | .postinc => baseText n ++ "+"
  | .predec => "-" ++ baseText n
  | .disp16 => "$" ++ hexText 4 w.toNat ++ baseText n
  | .index =>
    "$" ++ hexText 2 (w.extractLsb' 0 8).toNat ++ "(A" ++ regText n ++ "," ++ indexText (indexWordOf w) ++ ")"
  | .absW => "$" ++ hexText 4 w.toNat ++ ".W"
  | .absL => "$" ++ hexText 8 (w ++ w2).toNat ++ ".L"
  | .imm =>
    match sz with
    | .b => "#$" ++ hexText 2 (w.extractLsb' 0 8).toNat
    | .w => "#$" ++ hexText 4 w.toNat
    | .l => "#$" ++ hexText 8 (w ++ w2).toNat

/-- The operand string: the source, a comma, the destination register (R203). -/
def operandsText (m : Mode) (sz : Size) (n dreg : RegNum) (w w2 : Word) : String :=
  sourceText m sz n w w2 ++ "," ++ "D" ++ regText dreg

/-- The record of the given fields and words (R204). -/
def recordOf (address : Long) (m : Mode) (sz : Size) (n dreg : RegNum) (w w2 : Word) : DisassemblyRecord :=
  { address := address, mnemonic := mnemonicText sz, operands := operandsText m sz n dreg w w2 }

/-- Peeking only the words the mode and size need (R205), the first at `address + 2`, the second at `address + 4`. -/
def renderForm (address : Long) (m : Mode) (sz : Size) (n dreg : RegNum) (s : State) : Rendered :=
  match extWords m sz with
  | 0 => .record (recordOf address m sz n dreg 0 0)
  | 1 =>
    match s.peekWord (address + 2) with
    | .error r => .refused r
    | .ok w => .record (recordOf address m sz n dreg w 0)
  | _ =>
    match s.peekWord (address + 2) with
    | .error r => .refused r
    | .ok w =>
      match s.peekWord (address + 4) with
      | .error r => .refused r
      | .ok w2 => .record (recordOf address m sz n dreg w w2)

/-- `render(address, opcode)` (R200). Before `BuildTables` its lookup of `PRINT` is refused as `DISPATCH_BEFORE_BUILD`
(70 R251, R265), although 70 R268 lets `render` be called at any time: which of the two governs is left open
(DESIGN CHOICE, safe; log 22). An opcode that `PRINT` dispatches and whose fields are no COMPARE can only come
of a corrupted table and is refused as not dispatched (DEDUCED, safe; log 14). -/
def render (address : Long) (op : Word) (s : State) : Rendered :=
  match printDispatch op s with
  | .illegal op1 _ => .illegal op1
  | .refused r => .refused r
  | .fatal _ _ => .refused .notDispatched
  | .next _ =>
    match (formOf op).mode, (formOf op).size with
    | some m, some sz => renderForm address m sz (formOf op).reg (formOf op).dreg s
    | _, _ => .refused .notDispatched

end Sys2Proof.Machine
end

