-- ==== Sys2Proof/Machine/Protocol.lean ====
section
/-! DEFINITION. What the block's users may do to it between ticks, and the refusals of 70 R261 to R267: the core, the
initializer, and the other agents of the emulated machine, which write memory only (20_memory R62). -/

namespace Sys2Proof.Machine

/-- One action of a user of the block. -/
inductive Action where
  /-- Reset (70 R250), with the values R43 leaves unspecified. -/
  | reset (u : Unspecified)
  /-- The initializer's `BuildTables` (44 R184), and any re-run of it (70 R265). -/
  | buildTables
  /-- A write of one slot of `EXEC`. -/
  | writeExec (op : Word) (e : ExecEntry)
  /-- A write of one slot of `PRINT`. -/
  | writePrint (op : Word) (e : PrintEntry)
  /-- The lookup port, `EXEC` (10_state R41). -/
  | lookup (op : Word)
  /-- The lookup port, `PRINT` (10_state R41). -/
  | lookupPrint (op : Word)
  /-- The execute port: one tick (10_state R36). -/
  | tick (op : Word)
  /-- The scheduler's `LedgerClear` (41 R136). -/
  | clearLedger
  /-- `MARKER <- NONE`: the core starts the next instruction (70 R252). -/
  | reloadMarker
  /-- Any other write of `MARKER`, to any of its codes (log 17). -/
  | writeMarker (m : Marker)
  /-- The core gives `D[i]` a value (70 R251). -/
  | writeD (i : RegNum) (v : Long)
  /-- The core gives `A[i]` a value (70 R251). -/
  | writeA (i : RegNum) (v : Long)
  /-- The core gives the flags a value (70 R251). -/
  | writeFlags (f : Flags)
  /-- The core sets `pc` (10_state R24). -/
  | writePc (v : Long)
  /-- A write of the EA descriptor by another component. -/
  | writeEa (e : Ea)
  /-- Another agent writes a byte of memory between ticks (20_memory R62). -/
  | busWrite (a : Long) (v : Byte)
  deriving DecidableEq, Repr

/-- An action that the spec allows only while no handler is in progress, "`MARKER` is `NONE` or `FINISHED`" (10_state
R25, 41 R136, 70 R252): refused as `r` at `READ`, `PREFETCH` and `LONG`. At the codes 4, 5 and 6 the spec names no
refusal but the tick's; the model refuses these actions as `BAD_MARKER` too (DESIGN CHOICE, safe; log 10). -/
def atBoundary (r : Refusal) (s t : State) : Result :=
  if s.marker.inProgress then .refused r else if s.marker.named then .next t else .refused .badMarker

/-- A write to what the handler in progress owns: `FOREIGN_WRITE` in mid-instruction (70 R263); at `NONE` and
`FINISHED` it is the core's and is done (DESIGN CHOICE; log 17). -/
def ownedWrite (s t : State) : Result := atBoundary .foreignWrite s t

/-- A write to a table slot: refused after the build (70 R265); before it the write is done (DESIGN CHOICE; log 17). -/
def tableWrite (s t : State) : Result := if s.built then .refused .tableWriteAfterBuild else .next t

/-- What an action does. After a `Fatal` the spec refuses every tick and lets lookups and `render` answer (10_state R29,
70 R267) and says nothing of the core's other actions: only the tick looks at `FATAL`, and the writes, the ledger clear,
the reload and the builder do what they do without it (DESIGN CHOICE; log 23). What owns a bit of Processor State between ticks is decided by `MARKER` alone; reset, the
builder, the lookups and another agent's write to memory look at no marker. -/
def act (a : Action) (s : State) : Result :=
  match a with
  | .reset u => .next (State.resetWith u s.config s.mem)
  | .buildTables => Sys2Proof.Machine.buildTables s
  | .writeExec op e => tableWrite s { s with execTable := Sparse.write .illegal op.toNat e s.execTable }
  | .writePrint op e => tableWrite s { s with printTable := Sparse.write .illegal op.toNat e s.printTable }
  | .lookup op => dispatch op s
  | .lookupPrint op => printDispatch op s
  | .tick op => executePort op s
  | .clearLedger => atBoundary .clearInProgress s s.ledgerClear
  | .reloadMarker => atBoundary .restartBeforeFinished s { s with marker := .none }
  | .writeMarker m => ownedWrite s { s with marker := m }
  | .writeD i v => ownedWrite s (s.writeD i v)
  | .writeA i v => ownedWrite s (s.writeA i v)
  | .writeFlags f => ownedWrite s { s with flags := f }
  | .writePc v => ownedWrite s { s with pc := v }
  | .writeEa e => ownedWrite s { s with ea := e }
  | .busWrite addr v => .next (s.memWriteByte addr v)

/-- Actions in order, up to the first that answers no next state. -/
def actAll : List Action → State → Result
  | [], s => .next s
  | a :: t, s =>
    match act a s with
    | .next s1 => actAll t s1
    | .illegal op s1 => .illegal op s1
    | .fatal r s1 => .fatal r s1
    | .refused r => .refused r

/-- The core's actions around the first tick of an instruction, in the order of `RunOne` (70 R252). -/
def runOneActions (s : State) : List Action :=
  [.lookup s.fetchOpcode, .writePc (s.pc + 2), .clearLedger, .reloadMarker, .tick s.fetchOpcode]

end Sys2Proof.Machine
end

