-- ==== Sys2Proof/Safety.lean ====
section
/-! DEFINITION. The terms of the statements: the hypotheses under which an instruction runs, and the invariant of the
machine between two ticks. -/

namespace Sys2Proof.Machine

/-! ## Hypotheses of an instruction's ticks -/

/-- The block may be ticked with the instruction: no latch (70 R267) and its slot dispatched (70 R261). -/
def Dispatched (i : Instr) (s : State) : Prop := s.fatal = false ∧ s.execAt (encodeWord i) = .hCmp

/-- The start of an instruction (43 section 2): `MARKER` = `NONE`, `EA.active` = 0, the slot dispatched. -/
def Ready (i : Instr) (s : State) : Prop := Dispatched i s ∧ s.marker = .none ∧ s.ea.active = false

/-- The instruction's operand fetch is in progress: the descriptor is its own, and the opcode presented at the first
tick was its own (10_state R33, 70 R262). -/
def Fetching (i : Instr) (s : State) : Prop :=
  Dispatched i s ∧ s.marker = .read ∧ s.opcode = some (encodeWord i) ∧ s.ea.active = true ∧ s.ea.mode = i.mode ∧
    s.ea.reg = i.reg ∧ s.ea.size = i.size ∧ s.ea.step.toNat ≤ nSteps i.mode i.size

/-- In a `READ` state the descriptor is the instruction's: true of every state a run reaches (10_state R33). -/
def DescriptorIsOf (i : Instr) (s : State) : Prop :=
  s.marker = .read → s.ea.mode = i.mode ∧ s.ea.reg = i.reg ∧ s.ea.size = i.size

/-! ## Terms of the per-tick statements -/

/-- A ledger with cycles and tags added. -/
def Ledger.plus (l : Ledger) (c : Nat) (tags : List Tag) : Ledger :=
  { cycles := l.cycles + c, log := l.log ++ tags }

/-- The value after the first data read of an operand at `a`; at size L only the half that is read first
(20_memory R54, 40 R102). -/
def firstRead (sz : Size) (s : State) (a : Long) : Long :=
  match sz with
  | .b => zext8 (s.memReadByte a)
  | .w => zext16 (s.memReadWord a)
  | .l => if s.config.longHighFirst then zext16 (s.memReadWord a) <<< 16 else zext16 (s.memReadWord (a + 2))

/-- The half of a long-word operand at `a` that is read second. -/
def secondRead (s : State) (a : Long) : Long :=
  if s.config.longHighFirst then zext16 (s.memReadWord (a + 2)) else zext16 (s.memReadWord a) <<< 16

/-- An operand of the given size at `a` is not refused (20_memory R55). -/
def Accessible (sz : Size) (a : Long) : Prop := sz = .b ∨ isOdd a = false

/-- The cost of one step of an operand fetch: its tag's and the unresolved poll's (40 R116). -/
def stepCost (s : State) (t : Tag) : Nat := Tag.cost s.config.cost t + s.config.cost.readWait

/-- The two's-complement number that the low `bits(sz)` bits of a value spell (00_scope R9). -/
def signedValue (sz : Size) (v : Long) : Int :=
  if msb sz v then (mask sz v).toNat - 2 ^ Size.bits sz else (mask sz v).toNat

/-! ## The invariant -/

/-- The ledger after `k` steps of an operand fetch begun with a clear ledger (41 R138, 40 R116). -/
def ledgerAfterSteps (c : Cost) (m : Mode) (sz : Size) (k : Nat) : Ledger :=
  { cycles := (((fetchTags m sz).take k).map (Tag.cost c)).sum + k * c.readWait, log := (fetchTags m sz).take k }

/-- The ledger after state `PREFETCH` (43 R164). -/
def ledgerAfterPrefetch (c : Cost) (m : Mode) (sz : Size) : Ledger :=
  { cycles := eaCost c m sz + c.instr + c.prefetch, log := compareLog m sz }

/-- The ledger at `FINISHED` (41 R138). -/
def ledgerAtEnd (c : Cost) (m : Mode) (sz : Size) : Ledger :=
  { cycles := compareCycles c m sz, log := compareLog m sz }

/-- The memory is in its canonical form. -/
def MemoryInv (s : State) : Prop := Memory.wf s.mem = true

/-- The tables are all `ILLEGAL` until the builder has run, and then are what it builds (44 R184, 70 R265). -/
def TablesInv (s : State) : Prop :=
  if s.built then buildTables s = .next s else s.execTable = [] ∧ s.printTable = [] ∧ s.marker = .none

/-- `MARKER` between two ticks is `NONE`, `READ`, `LONG` or `FINISHED` (43 R174), and the descriptor is active
exactly in `READ` (10_state R33). -/
def MarkerInv (s : State) : Prop :=
  (s.marker = .none ∨ s.marker = .read ∨ s.marker = .long ∨ s.marker = .finished) ∧
    (s.ea.active = true ↔ s.marker = .read)

/-- What the machine holds of the instruction it has begun: in `READ` its descriptor, between 1 and `NSteps` steps
performed (43 R174), and the ledger of those steps; in `LONG` size L; at `FINISHED` its whole ledger (41 R138). -/
def InstructionInv (s : State) : Prop :=
  s.marker = .none ∨
    ∃ i, s.opcode = some (encodeWord i) ∧ s.execAt (encodeWord i) = .hCmp ∧
      ((s.marker = .read ∧ s.ea.mode = i.mode ∧ s.ea.reg = i.reg ∧ s.ea.size = i.size ∧ 1 ≤ s.ea.step.toNat ∧
          s.ea.step.toNat ≤ nSteps i.mode i.size ∧
          s.ledger = ledgerAfterSteps s.config.cost i.mode i.size s.ea.step.toNat) ∨
        (s.marker = .long ∧ i.size = .l ∧ s.ledger = ledgerAfterPrefetch s.config.cost i.mode i.size) ∨
        (s.marker = .finished ∧ s.ledger = ledgerAtEnd s.config.cost i.mode i.size))

/-- The invariant of the machine between two ticks: no latch, canonical memory, the builder's tables, a legal marker,
and an exact account of the instruction in progress. -/
def Inv (s : State) : Prop := s.fatal = false ∧ MemoryInv s ∧ TablesInv s ∧ MarkerInv s ∧ InstructionInv s

end Sys2Proof.Machine
end

