-- ==== Sys2Proof/Certificates/Slice0/Obligations.lean ====
section
/-! DEFINITION. The statements, from the numbered rules of the spec. Every statement is about every configuration,
because the configuration is part of the state (log 3). Where a statement gives `opcode` in a next state, that is the
model's ghost copy (70 R262; log 8). -/

open Sys2Proof Sys2Proof.Machine

/-! ## Encoding and decoding -/

/-- 30_encoding R81, R88: the decoder gives back every instruction the encoder writes, with every register number, and
leaves the rest of the bytes; and every opcode value the decoder accepts is the encoding of what it gives, which is
well formed. -/
def Obligations.DecodeAndEncodeAgree : Prop :=
  (∀ (i : Instr) (rest : List Byte), decode (wordsBytes (encode i) ++ rest) = .ok (i, rest)) ∧
    ∀ (op : Word) (i : Instr), decodeWord op = .ok i → encodeWord i = op ∧ i.wellFormed = true

/-- 44 R187: the decoder accepts exactly the values of the closed form. -/
def Obligations.DecoderAcceptsExactlyTheClosedForm : Prop :=
  ∀ op : Word, (∃ i, decodeWord op = .ok i) ↔
    (op.extractLsb' 12 4 = 0b1011#4 ∧ op.getLsbD 8 = false ∧ op.extractLsb' 6 2 ≠ 0b11#2 ∧
      op.extractLsb' 0 6 ∉ [0x3A#6, 0x3B#6, 0x3D#6, 0x3E#6, 0x3F#6] ∧
      ¬(op.extractLsb' 6 2 = 0b00#2 ∧ op.extractLsb' 3 3 = 0b001#3))

/-- 30_encoding R88: `op & mask = match` selects exactly the slots of a row of the opcode table; no two rows share a
slot; the row's number of extension words is R84's. -/
def Obligations.OpcodeRowsSelectTheDecodedForms : Prop :=
  ∀ op : Word,
    (∀ i, decodeWord op = .ok i → ∃ r ∈ opcodeRows, r.selects op = true ∧ r.size = i.size ∧ r.mode = i.mode ∧
      r.extWords = extWords i.mode i.size ∧ ∀ r' ∈ opcodeRows, r'.selects op = true → r' = r) ∧
    ((∃ r ∈ opcodeRows, r.selects op = true) → ∃ i, decodeWord op = .ok i)

/-- 30_encoding R81 to R83, R88, R89: opcode words written out bit by bit, one for each mode and size class, and the
values of R89 (a) and (b) rejected by name. -/
def Obligations.SpecWordsDecode : Prop :=
  decodeWord 0b1011011000000001 = .ok (.cmpBDreg 3 1) ∧
  decodeWord 0b1011011001001010 = .ok (.cmpWAreg 3 2) ∧
  decodeWord 0b1011011010010000 = .ok (.cmpLInd 3 0) ∧
  decodeWord 0b1011011000011111 = .ok (.cmpBPostinc 3 7) ∧
  decodeWord 0b1011011010100000 = .ok (.cmpLPredec 3 0) ∧
  decodeWord 0b1011011001101010 = .ok (.cmpWDisp16 3 2) ∧
  decodeWord 0b1011101001110000 = .ok (.cmpWIndex 5 0) ∧
  decodeWord 0b1011000000111000 = .ok (.cmpBAbsW 0) ∧
  decodeWord 0b1011100010111001 = .ok (.cmpLAbsL 4) ∧
  decodeWord 0b1011111010111100 = .ok (.cmpLImm 7) ∧
  decodeWord 0b1011011000001001 = .error .aregAtByteSize ∧
  decodeWord 0b1011011000111010 = .error .eaUnsupported ∧
  decodeWord 0b1011011011000000 = .error .sizeUnrecognized ∧
  decodeWord 0b1011011100000000 = .error .dirSet ∧
  decodeWord 0b0100111001110001 = .error .otherClass

/-! ## Reset and boot -/

/-- 10_state R43: what reset leaves, whatever the values it leaves unspecified, the configuration and the memory. -/
def Obligations.ResetGivesEveryStatedValue : Prop :=
  ∀ (u : Unspecified) (c : Config) (m : List Host.Cell),
    let s := State.resetWith u c m
    s.marker = .none ∧ s.ea.active = false ∧ s.fatal = false ∧ s.ledger.cycles = 0 ∧ s.ledger.log = [] ∧
      (∀ op, s.execAt op = .illegal ∧ s.printAt op = .illegal) ∧
      s.d = u.d ∧ s.a = u.a ∧ s.flags = u.flags ∧ s.pc = u.pc ∧ s.ea.mode = u.eaMode ∧ s.ea.reg = u.eaReg ∧
      s.ea.size = u.eaSize ∧ s.ea.step = u.eaStep ∧ s.ea.addr = u.eaAddr ∧ s.ea.value = u.eaValue ∧
      s.fatalReason = u.fatalReason

/-- 70 R267, R250, 10_state R29: once `FATAL` is set, every tick is refused, lookups and `render` answer as they did
without the latch, and no action but reset clears it. That every step of the machine is refused too, before it boots or
looks an opcode up, is the model's order of a step's checks (log 5), and no rule's. -/
def Obligations.OnlyResetClearsFatal : Prop :=
  ∀ s : State, s.fatal = true →
    (∀ op, act (.tick op) s = .refused .afterFatal) ∧ step s = .refused .afterFatal ∧
    (s.built = true → ∀ op,
      act (.lookup op) s = (if s.execAt op = .illegal then .illegal op s else .next s) ∧
      act (.lookupPrint op) s = (if s.printAt op = .illegal then .illegal op s else .next s)) ∧
    (∀ a op, render a op s = render a op { s with fatal := false }) ∧
    (∀ (x : Action) (t : State), act x s = .next t → t.fatal = false → ∃ u, x = .reset u) ∧
    (∀ u, ∃ t, act (.reset u) s = .next t ∧ t.fatal = false)

/-- From any reset state with `CLASSES` = [COMPARE], the first step runs `BuildTables` and changes nothing but the tables
and that they are built. 70 R251 puts `BuildTables` first in the order of boot duties; that it is one step of the
machine, the first, and does nothing else, is the model's cut (DEDUCED; log 4). -/
def Obligations.FirstStepBuildsTheTables : Prop :=
  ∀ (u : Unspecified) (c : Config) (m : List Host.Cell), c.classes = [.compare] →
    ∃ t, step (State.resetWith u c m) = .next t ∧ buildTables t = .next t ∧
      { t with execTable := [], printTable := [], built := false } = State.resetWith u c m

/-- The invariant of the machine holds after reset, over every unspecified value, every configuration and every
canonical memory, and so at the model's own reset state (log 1, 2, 3). -/
def Obligations.ResetStatesMeetTheInvariant : Prop :=
  (∀ (u : Unspecified) (c : Config) (m : List Host.Cell), Memory.wf m = true → Inv (State.resetWith u c m)) ∧
    Inv State.reset

/-- Every step keeps the invariant: canonical memory (the model's form; log 2), the builder's tables (70 R265), a marker
of 43 R174, the descriptor active exactly in `READ` (10_state R33), and the exact ledger of the instruction in progress
(41 R138), which rests on the step's ledger clear (log 5). -/
def Obligations.EveryStepKeepsTheInvariant : Prop :=
  ∀ s t : State, Inv s → step s = .next t → Inv t

/-- From a state of the invariant a step stops only on an illegal opcode at an instruction boundary, on an odd word
access, or on a configuration whose classes share a slot: no `Fatal` (40 R113, R114), no misuse of the descriptor
(10_state R33), no undispatched or changed opcode. What one step is, is the model's cut (log 4, 5), and so is a
configuration whose classes share a slot (log 12). -/
def Obligations.StepStopsOnlyWhereTheSpecSays : Prop :=
  ∀ s : State, Inv s →
    (∃ t, step s = .next t) ∨
    (s.built = true ∧ (s.marker = .none ∨ s.marker = .finished) ∧ s.execAt s.fetchOpcode = .illegal ∧
      step s = .fault (.illegal s.fetchOpcode)) ∨
    step s = .refused .oddWordAccess ∨
    (s.built = false ∧ claimsTwice s.config.classes = true ∧ step s = .refused .slotClaimedTwice)

/-! ## The dispatch tables -/

/-- 44 R187: after `BuildTables` with `CLASSES` = [COMPARE], `EXEC[op]` = `H_CMP` exactly under the closed form, and
`ILLEGAL` otherwise; 1352 values are legal. The closed form is the spec's own inference ("[derived: from rules R181,
R182 and R183]"). -/
def Obligations.BuiltTableIsTheClosedForm : Prop :=
  ∀ s : State, s.config.classes = [.compare] →
    ∃ t, buildTables s = .next t ∧
      (∀ op : Word,
        if op.extractLsb' 12 4 = 0b1011#4 ∧ op.getLsbD 8 = false ∧ op.extractLsb' 6 2 ≠ 0b11#2 ∧
            op.extractLsb' 0 6 ∉ [0x3A#6, 0x3B#6, 0x3D#6, 0x3E#6, 0x3F#6] ∧
            ¬(op.extractLsb' 6 2 = 0b00#2 ∧ op.extractLsb' 3 3 = 0b001#3)
        then t.execAt op = .hCmp else t.execAt op = .illegal) ∧
      ∃ slots : List Word, slots.Nodup ∧ slots.length = 1352 ∧ ∀ op, op ∈ slots ↔ t.execAt op = .hCmp

/-- 44 R184: building twice yields what building once does, and what it yields does not depend on what the tables
held. -/
def Obligations.BuildTablesIsIdempotent : Prop :=
  ∀ s t : State, buildTables s = .next t →
    buildTables t = .next t ∧
    ∀ x y, ∃ t', buildTables { s with execTable := x, printTable := y } = .next t' ∧
      t'.execTable = t.execTable ∧ t'.printTable = t.printTable

/-- 44 R180: built tables are parallel. -/
def Obligations.BuiltTablesAreParallel : Prop :=
  ∀ s t : State, buildTables s = .next t → ∀ op, t.execAt op = .illegal ↔ t.printAt op = .illegal

/-- 44 R189, R184: a configuration in which two classes claim one slot is refused; with no class registered every value
is illegal. The source describes one class: that a list which names COMPARE twice is such a configuration, and that an
empty list leaves every slot `ILLEGAL`, is the model's choice (DESIGN CHOICE; log 12). -/
def Obligations.ClassesMayNotShareASlot : Prop :=
  (∀ (s : State) (t : List InstrClass), s.config.classes = .compare :: .compare :: t →
    buildTables s = .refused .slotClaimedTwice) ∧
  (∀ s : State, s.config.classes = [] → ∃ t, buildTables s = .next t ∧ ∀ op, t.execAt op = .illegal)

/-- 44 R185, 60 R221, 70 R251: a lookup reads one entry and changes no state; the sentinel is reported as `Illegal`
with the opcode; before the build it is refused; and at an instruction boundary the step reports the same, as a fault
outcome (the model's cut of a step and its outcome; log 5, 7). -/
def Obligations.LookupReportsIllegalAndChangesNothing : Prop :=
  ∀ (op : Word) (s : State),
    (s.built = false → dispatch op s = .refused .dispatchBeforeBuild ∧ printDispatch op s = .refused .dispatchBeforeBuild) ∧
    (s.built = true →
      dispatch op s = (if s.execAt op = .illegal then .illegal op s else .next s) ∧
      printDispatch op s = (if s.printAt op = .illegal then .illegal op s else .next s)) ∧
    (s.built = true → s.fatal = false → s.ea.active = false → s.marker = .none ∨ s.marker = .finished →
      s.execAt s.fetchOpcode = .illegal → step s = .fault (.illegal s.fetchOpcode))

/-! ## A step runs the decoded instruction -/

/-- At an instruction boundary, when the word at `pc` decodes to `i` and its slot is dispatched, the step is `exec i` on
the state with `pc` past the opcode word, the ledger clear and `MARKER` = `NONE`; in mid-instruction it is `exec i` of
the instruction begun, on the state as it is. 70 R252 gives `RunOne` and its order; that one step is `RunOne` up to its
first tick, and later one more tick with the ghost copy of the opcode, is the model's cut (DEDUCED; log 5, 8). -/
def Obligations.StepRunsTheDecodedInstruction : Prop :=
  (∀ (s : State) (i : Instr), s.fatal = false → s.built = true → s.ea.active = false →
    s.marker = .none ∨ s.marker = .finished → decodeWord s.fetchOpcode = .ok i → s.execAt s.fetchOpcode = .hCmp →
    step s = exec i { s with pc := s.pc + 2, ledger := { cycles := 0, log := [] }, marker := .none }) ∧
  (∀ (s : State) (i : Instr) (op : Word), s.fatal = false → s.built = true →
    s.marker = .read ∨ s.marker = .prefetch ∨ s.marker = .long → s.opcode = some op → decodeWord op = .ok i →
    step s = exec i s)

/-- 70 R252: at an instruction boundary a step is the core's actions in the order of `RunOne`: look up, set `pc`,
clear the ledger, reload `MARKER`, tick. The order is the rule's; that a step is `RunOne` cut after its first tick is
the model's (DEDUCED; log 5). -/
def Obligations.StepIsTheCoresActions : Prop :=
  ∀ s : State, s.fatal = false → s.built = true → s.ea.active = false → s.marker = .none ∨ s.marker = .finished →
    step s = (actAll (runOneActions s) s).toOutcome

/-! ## Whole instructions -/

/-- 43 section 2, R167 to R169, 41 R138: for every instruction, ticking from the start of the instruction as often as
R171 says answers the state that `Compare(sz, dreg, mode, reg)` gives, in every field, when no access is odd. -/
def Obligations.TicksAreTheBigStep : Prop :=
  ∀ (i : Instr) (s : State), Ready i s → operandRefused i.mode i.reg i.size s = false →
    execTicks i (compareTicks i.mode i.size) s = .next (compareEffect i.size i.mode i.dreg i.reg s)

/-- 20_memory R55, 43 R175: and when an access is odd, the run is refused. -/
def Obligations.OddAccessRefusesTheRun : Prop :=
  ∀ (i : Instr) (s : State), Ready i s → operandRefused i.mode i.reg i.size s = true →
    execTicks i (compareTicks i.mode i.size) s = .refused .oddWordAccess

/-- 43 R171, R172: every run reaches `FINISHED` in at most six ticks or meets an odd access, whatever the data. -/
def Obligations.RunsFinishWithinSixTicks : Prop :=
  ∀ (i : Instr) (s : State), Ready i s →
    compareTicks i.mode i.size ≤ 6 ∧
    ((∃ t, execTicks i 6 s = .next t ∧ t.marker = .finished) ∨ execTicks i 6 s = .refused .oddWordAccess)

/-- 70 R252, 43 R171: from a boundary state of the invariant, as many steps as the instruction at `pc` has ticks
answer its whole effect, begun with `pc` past the opcode word and a clear ledger. That one step is one tick, begun by
the core's protocol, is the model's cut (DEDUCED; log 5), and no other agent writes memory between these steps
(DEDUCED; log 15). -/
def Obligations.StepsRunTheWholeInstruction : Prop :=
  ∀ (s : State) (i : Instr), Inv s → s.built = true → s.marker = .none ∨ s.marker = .finished →
    decodeWord s.fetchOpcode = .ok i → s.execAt s.fetchOpcode = .hCmp →
    operandRefused i.mode i.reg i.size (beginInstruction s) = false →
    core.run (compareTicks i.mode i.size) s =
      .next (compareEffect i.size i.mode i.dreg i.reg
        { s with pc := s.pc + 2, ledger := { cycles := 0, log := [] }, marker := .none })

/-- 41 R137, R138: whatever other agents do to memory between the ticks, a run that is not refused ends `FINISHED`
with the cycle total and the log that the size and mode alone fix. What the agents do is any replacement of the memory
(log 2, 15). -/
def Obligations.TotalsDoNotDependOnData : Prop :=
  ∀ (i : Instr) (s : State) (ms : List (List Host.Cell)), Ready i s → ms.length = compareTicks i.mode i.size →
    (∃ t, execTicksWith i ms s = .next t ∧ t.marker = .finished ∧
      t.ledger.cycles = s.ledger.cycles + (eaCost s.config.cost i.mode i.size + s.config.cost.instr +
        s.config.cost.prefetch + (if i.size = .l then s.config.cost.long else 0)) ∧
      t.ledger.log = s.ledger.log ++ (fetchTags i.mode i.size ++ [.prefetch])) ∨
    execTicksWith i ms s = .refused .oddWordAccess

/-- 41 R141: the whole table at the default costs, in the order DREG, AREG (W, L), IND, POSTINC, PREDEC, DISP16, INDEX,
ABS_W, ABS_L, IMM: the tags' costs, `C_EA`, the instruction totals and the ticks. The defaults other than `C_INSTR` and
`C_PREFETCH` are the spec's choice (log 3). -/
def Obligations.TimingTableAtTheDefaults : Prop :=
  let modes : List Mode := [.dreg, .areg, .ind, .postinc, .predec, .disp16, .index, .absW, .absL, .imm]
  let tagsCost (m : Mode) (sz : Size) : Nat := ((fetchTags m sz).map (Tag.cost Cost.default)).sum
  (modes.erase .areg).map (fun m => tagsCost m .b) = [0, 4, 4, 6, 8, 10, 8, 12, 4] ∧
  modes.map (fun m => tagsCost m .w) = [0, 0, 4, 4, 6, 8, 10, 8, 12, 4] ∧
  modes.map (fun m => tagsCost m .l) = [0, 0, 8, 8, 10, 12, 14, 12, 16, 8] ∧
  (modes.erase .areg).map (fun m => eaCost Cost.default m .b) = [0, 6, 6, 10, 12, 16, 12, 18, 6] ∧
  modes.map (fun m => eaCost Cost.default m .w) = [0, 0, 6, 6, 10, 12, 16, 12, 18, 6] ∧
  modes.map (fun m => eaCost Cost.default m .l) = [0, 0, 12, 12, 16, 18, 22, 18, 24, 12] ∧
  (modes.erase .areg).map (fun m => compareCycles Cost.default m .b) = [8, 14, 14, 18, 20, 24, 20, 26, 14] ∧
  modes.map (fun m => compareCycles Cost.default m .w) = [8, 8, 14, 14, 18, 20, 24, 20, 26, 14] ∧
  modes.map (fun m => compareCycles Cost.default m .l) = [10, 10, 22, 22, 26, 28, 32, 28, 34, 22] ∧
  (modes.erase .areg).map (fun m => compareTicks m .b) = [1, 2, 2, 3, 3, 4, 3, 4, 2] ∧
  modes.map (fun m => compareTicks m .w) = [1, 1, 2, 2, 3, 3, 4, 3, 4, 2] ∧
  modes.map (fun m => compareTicks m .l) = [2, 2, 4, 4, 5, 5, 6, 5, 6, 4]

/-! ## The ticks of each mode -/

/-- 40 R103, R104, 43 R161, R163, R164: a register-direct source is resolved, the flags are committed and the
completion is charged in the first tick; at size L the tick ends in `LONG`. -/
def Obligations.RegisterDirectCompletesInTheFirstTick : Prop :=
  ∀ (i : Instr) (s : State), i.mode = .dreg ∨ i.mode = .areg → Ready i s →
    let src := mask i.size (if i.mode = .dreg then s.readD i.reg else s.readA i.reg)
    exec i s = .next { s with
      flags := compareFlags (sub i.size (s.readD i.dreg) src)
      marker := if i.size = .l then .long else .finished
      ea := { s.ea with active := false, mode := i.mode, reg := i.reg, size := i.size, step := 0 }
      opcode := some (encodeWord i)
      ledger := s.ledger.plus (s.config.cost.instr + s.config.cost.prefetch) [.prefetch] }

/-- 40 R105: the first tick of IND latches the address and performs the first data read. -/
def Obligations.IndirectFirstTick : Prop :=
  ∀ (i : Instr) (s : State), i.mode = .ind → Ready i s → Accessible i.size (s.readA i.reg) →
    exec i s = .next { s with
      marker := .read
      opcode := some (encodeWord i)
      ea := { active := true, mode := .ind, reg := i.reg, size := i.size, step := 1, addr := s.readA i.reg,
              value := firstRead i.size s (s.readA i.reg) }
      ledger := s.ledger.plus (stepCost s (dataTag i.size)) [dataTag i.size] }

/-- 40 R106, R115: the first tick of POSTINC does the same and, at sizes B and W, then increments the register: by 1 at
size B, but for register 7 by `A7_BYTE_STEP`, and by 2 at size W. -/
def Obligations.PostincrementFirstTick : Prop :=
  ∀ (i : Instr) (s : State), i.mode = .postinc → Ready i s → Accessible i.size (s.readA i.reg) →
    let amount : Long :=
      if i.size = .b then (if i.reg = 7 then BitVec.ofNat 32 s.config.a7ByteStep else 1) else 2
    exec i s = .next { s with
      a := if i.size = .l then s.a else s.a.set i.reg (s.readA i.reg + amount)
      marker := .read
      opcode := some (encodeWord i)
      ea := { active := true, mode := .postinc, reg := i.reg, size := i.size, step := 1, addr := s.readA i.reg,
              value := firstRead i.size s (s.readA i.reg) }
      ledger := s.ledger.plus (stepCost s (dataTag i.size)) [dataTag i.size] }

/-- 40 R107, R115: the first tick of PREDEC records the idle entry, decrements the register and latches the address, at
any address: by 1 at size B, but for register 7 by `A7_BYTE_STEP`, by 2 at size W and by 4 at size L. -/
def Obligations.PredecrementFirstTick : Prop :=
  ∀ (i : Instr) (s : State), i.mode = .predec → Ready i s →
    let amount : Long :=
      if i.size = .b then (if i.reg = 7 then BitVec.ofNat 32 s.config.a7ByteStep else 1)
      else if i.size = .w then 2 else 4
    exec i s = .next { s with
      a := s.a.set i.reg (s.readA i.reg - amount)
      marker := .read
      opcode := some (encodeWord i)
      ea := { active := true, mode := .predec, reg := i.reg, size := i.size, step := 1,
              addr := s.readA i.reg - amount, value := s.ea.value }
      ledger := s.ledger.plus (stepCost s .idleN) [.idleN] }

/-- 40 R108, R110: the first tick of DISP16 and ABS_W fetches the extension word at an even `pc` and computes the
operand's address, sign-extending the word. -/
def Obligations.OneWordAddressFirstTick : Prop :=
  ∀ (i : Instr) (s : State), i.mode = .disp16 ∨ i.mode = .absW → Ready i s → isOdd s.pc = false →
    exec i s = .next { s with
      pc := s.pc + 2
      marker := .read
      opcode := some (encodeWord i)
      ea := { active := true, mode := i.mode, reg := i.reg, size := i.size, step := 1,
              addr := if i.mode = .disp16 then s.readA i.reg + (s.memReadWord s.pc).signExtend 32
                      else (s.memReadWord s.pc).signExtend 32,
              value := s.ea.value }
      ledger := s.ledger.plus (stepCost s .prefetch) [.prefetch] }

/-- 40 R109, 30_encoding R85: the first tick of INDEX is the idle entry alone; the second fetches the index word at an
even `pc` and computes the address from the base, the signed displacement and the index register its bits name. -/
def Obligations.IndexTicks : Prop :=
  (∀ (i : Instr) (s : State), i.mode = .index → Ready i s →
    exec i s = .next { s with
      marker := .read
      opcode := some (encodeWord i)
      ea := { active := true, mode := .index, reg := i.reg, size := i.size, step := 1, addr := s.ea.addr,
              value := s.ea.value }
      ledger := s.ledger.plus (stepCost s .idleN) [.idleN] }) ∧
  (∀ (i : Instr) (s : State), i.mode = .index → Fetching i s → s.ea.step = 1 → isOdd s.pc = false →
    let x := s.memReadWord s.pc
    let n : RegNum := (x.extractLsb' 12 3).toFin
    let r := if x.getLsbD 15 then s.readA n else s.readD n
    let idx := if x.getLsbD 11 then r else (r.extractLsb' 0 16).signExtend 32
    exec i s = .next { s with
      pc := s.pc + 2
      ea := { s.ea with step := 2, addr := s.readA i.reg + (x.extractLsb' 0 8).signExtend 32 + idx }
      ledger := s.ledger.plus (stepCost s .prefetch) [.prefetch] })

/-- 40 R111: the first tick of ABS_L puts the first extension word in the high half of the address, the second tick
the second word in its low half. -/
def Obligations.AbsoluteLongTicks : Prop :=
  (∀ (i : Instr) (s : State), i.mode = .absL → Ready i s → isOdd s.pc = false →
    exec i s = .next { s with
      pc := s.pc + 2
      marker := .read
      opcode := some (encodeWord i)
      ea := { active := true, mode := .absL, reg := i.reg, size := i.size, step := 1,
              addr := s.memReadWord s.pc ++ 0#16, value := s.ea.value }
      ledger := s.ledger.plus (stepCost s .prefetch) [.prefetch] }) ∧
  (∀ (i : Instr) (s : State), i.mode = .absL → Fetching i s → s.ea.step = 1 → isOdd s.pc = false →
    exec i s = .next { s with
      pc := s.pc + 2
      ea := { s.ea with step := 2, addr := s.ea.addr ||| (0#16 ++ s.memReadWord s.pc) }
      ledger := s.ledger.plus (stepCost s .prefetch) [.prefetch] })

/-- 40 R112, 30_encoding R86: the first tick of IMM takes the low byte of the extension word at size B, the word at W,
the high half at L; at L the second tick adds the low half. -/
def Obligations.ImmediateTicks : Prop :=
  (∀ (i : Instr) (s : State), i.mode = .imm → Ready i s → isOdd s.pc = false →
    exec i s = .next { s with
      pc := s.pc + 2
      marker := .read
      opcode := some (encodeWord i)
      ea := { active := true, mode := .imm, reg := i.reg, size := i.size, step := 1, addr := s.ea.addr,
              value := match i.size with
                | .b => 0#24 ++ (s.memReadWord s.pc).extractLsb' 0 8
                | .w => 0#16 ++ s.memReadWord s.pc
                | .l => s.memReadWord s.pc ++ 0#16 }
      ledger := s.ledger.plus (stepCost s .prefetch) [.prefetch] }) ∧
  (∀ (i : Instr) (s : State), i.mode = .imm → i.size = .l → Fetching i s → s.ea.step = 1 → isOdd s.pc = false →
    exec i s = .next { s with
      pc := s.pc + 2
      ea := { s.ea with step := 2, value := s.ea.value ||| (0#16 ++ s.memReadWord s.pc) }
      ledger := s.ledger.plus (stepCost s .prefetch) [.prefetch] })

/-- 40 R107 to R111, 20_memory R55: the tick of the first data read of a mode that has computed its address: it reads
at the latched address, or is refused when that is odd and the operand is no byte. -/
def Obligations.FirstDataReadTick : Prop :=
  ∀ (i : Instr) (s : State),
    i.mode = .predec ∨ i.mode = .disp16 ∨ i.mode = .index ∨ i.mode = .absW ∨ i.mode = .absL → Fetching i s →
    s.ea.step.toNat + (dataTags i.size).length = nSteps i.mode i.size →
    (Accessible i.size s.ea.addr →
      exec i s = .next { s with
        ea := { s.ea with step := s.ea.step + 1, value := firstRead i.size s s.ea.addr }
        ledger := s.ledger.plus (stepCost s (dataTag i.size)) [dataTag i.size] }) ∧
    (¬Accessible i.size s.ea.addr → exec i s = .refused .oddWordAccess)

/-- 20_memory R54, 40 R102, R106: the tick of the second word read of a long-word operand at an even address; POSTINC
then increments its register by 4. -/
def Obligations.SecondWordReadTick : Prop :=
  ∀ (i : Instr) (s : State), i.size = .l → Mode.inMemory i.mode = true → Fetching i s →
    s.ea.step.toNat + 1 = nSteps i.mode i.size → isOdd s.ea.addr = false →
    exec i s = .next { s with
      a := if i.mode = .postinc then s.a.set i.reg (s.readA i.reg + 4) else s.a
      ea := { s.ea with step := s.ea.step + 1, value := s.ea.value ||| secondRead s s.ea.addr }
      ledger := s.ledger.plus (stepCost s .readW) [.readW] }

/-- 43 R163, R164, for each of the 29 instructions: in the tick after the last step of the operand fetch, the flags of
`D[dreg]` less the source are committed, the completion is charged and its prefetch recorded, and the marker is
`LONG` at size L and `FINISHED` otherwise; nothing else changes. -/
def Obligations.ResolvedTickCommitsTheFlags : Prop :=
  ∀ (i : Instr) (s : State), Fetching i s → s.ea.step.toNat = nSteps i.mode i.size →
    let src := if i.mode = .dreg then mask i.size (s.readD i.reg)
      else if i.mode = .areg then mask i.size (s.readA i.reg) else s.ea.value
    exec i s = .next { s with
      flags := compareFlags (sub i.size (s.readD i.dreg) src)
      marker := if i.size = .l then .long else .finished
      ea := { s.ea with active := false }
      ledger := s.ledger.plus (s.config.cost.instr + s.config.cost.prefetch) [.prefetch] }

/-- 43 R165: in state `LONG` a tick charges `C_LONG`, records nothing and finishes. -/
def Obligations.LongStateTick : Prop :=
  ∀ (i : Instr) (s : State), Dispatched i s → s.marker = .long → s.opcode = some (encodeWord i) →
    exec i s = .next { s with
      marker := .finished, ledger := { s.ledger with cycles := s.ledger.cycles + s.config.cost.long } }

/-- 43 R166: a tick that starts with `MARKER` = `FINISHED` changes nothing and charges nothing. -/
def Obligations.FinishedTickChangesNothing : Prop :=
  ∀ (i : Instr) (s : State), Dispatched i s → s.marker = .finished → exec i s = .next s

/-- 43 R161, 70 R261, R262, R267, 10_state R25: the refusals of the tick. `FATAL`, `EXEC` and `MARKER` are checked in
the order of R161's pseudocode; that `OPCODE_CHANGED` comes after all of them, and that a missing ghost copy is
`OPCODE_CHANGED`, is the model's (DEDUCED; log 8). -/
def Obligations.TicksOutsideTheProtocolAreRefused : Prop :=
  ∀ (i : Instr) (s : State),
    (s.fatal = true → exec i s = .refused .afterFatal) ∧
    (s.fatal = false → s.execAt (encodeWord i) = .illegal → exec i s = .refused .notDispatched) ∧
    (Dispatched i s → s.marker = .bad4 ∨ s.marker = .bad5 ∨ s.marker = .bad6 → exec i s = .refused .badMarker) ∧
    (Dispatched i s → s.marker.inProgress = true → s.opcode ≠ some (encodeWord i) →
      exec i s = .refused .opcodeChanged)

/-- 60 R222, R223: when a corrupted table dispatches an opcode no legal slot has, the first tick raises the `Fatal` of
40 R100's order of checks, latches it and changes nothing else. -/
def Obligations.FatalTickLatchesAndChangesNothingElse : Prop :=
  ∀ (op : Word) (s : State), s.fatal = false → s.execAt op = .hCmp → s.marker = .none → s.ea.active = false →
    (modeOf (op.extractLsb' 0 6) = none →
      executePort op s =
        .fatal .unsupportedEaMode { s with fatal := true, fatalReason := .unsupportedEaMode }) ∧
    (modeOf (op.extractLsb' 0 6) ≠ none → op.extractLsb' 6 2 = 0b11#2 →
      executePort op s = .fatal .badSizeField { s with fatal := true, fatalReason := .badSizeField }) ∧
    (modeOf (op.extractLsb' 0 6) = some .areg → op.extractLsb' 6 2 = 0b00#2 →
      executePort op s =
        .fatal .unsupportedEaMode { s with fatal := true, fatalReason := .unsupportedEaMode })

/-! ## What a tick leaves unchanged -/

/-- 43 R170, 40 R119, 42 R157, for each of the 29 instructions: a tick writes no data register, no byte of memory, no
table, no latch and no configuration; an address register only in POSTINC and PREDEC and only `A[reg]`; `pc` only by 2
and only with extension words; the flags only in the tick that leaves `NONE` or `READ` for `LONG` or `FINISHED`. -/
def Obligations.TickFrame : Prop :=
  ∀ (i : Instr) (s t : State), exec i s = .next t → DescriptorIsOf i s →
    t.d = s.d ∧ (∀ a, t.memReadByte a = s.memReadByte a) ∧ t.mem = s.mem ∧
    t.fatal = s.fatal ∧ t.fatalReason = s.fatalReason ∧ t.execTable = s.execTable ∧ t.printTable = s.printTable ∧
    t.built = s.built ∧ t.config = s.config ∧
    (i.mode ≠ .postinc → i.mode ≠ .predec → t.a = s.a) ∧
    (∀ j, j ≠ i.reg → t.readA j = s.readA j) ∧
    (t.pc = s.pc ∨ t.pc = s.pc + 2) ∧ (extWords i.mode i.size = 0 → t.pc = s.pc) ∧
    (t.flags = s.flags ∨
      ((s.marker = .none ∨ s.marker = .read) ∧ (t.marker = .long ∨ t.marker = .finished))) ∧
    (t.opcode = s.opcode ∨ (s.marker = .none ∧ t.opcode = some (encodeWord i)))

/-- 40 R119: the resolver changes `A[reg]` in POSTINC and PREDEC, `pc` in the modes with extension words and its own
descriptor; it never writes `D`, the flags, `MARKER` or the tables, and it charges no cycles other than through the
tags it records. -/
def Obligations.ResolverWritesOnlyWhatIsListed : Prop :=
  (∀ (f : Form) (s t : State), eaBeginRead f s = .begun t → t = { s with ea := t.ea }) ∧
  (∀ s t : State, eaPoll s = .unresolved t →
    t = { s with a := t.a, pc := t.pc, ea := t.ea, ledger := t.ledger } ∧
    (t.a ≠ s.a → s.ea.mode = .postinc ∨ s.ea.mode = .predec) ∧
    (∀ j, j ≠ s.ea.reg → t.readA j = s.readA j) ∧
    (t.pc ≠ s.pc → extWords s.ea.mode s.ea.size ≠ 0) ∧
    ∃ tag, t.ledger = { cycles := s.ledger.cycles + Tag.cost s.config.cost tag, log := s.ledger.log ++ [tag] }) ∧
  (∀ (v : Long) (s t : State), eaPoll s = .done v t → t = { s with ea := t.ea })

/-- 40 R102: every step of every mode and size records the one tag that the step table gives it, and the table has
`NSteps` tags. -/
def Obligations.EachStepRecordsItsTag : Prop :=
  ∀ (m : Mode) (sz : Size), (fetchTags m sz).length = nSteps m sz ∧
    ∀ (k : Nat) (tag : Tag), (fetchTags m sz)[k]? = some tag → ∀ s t : State, eaStep m sz k s = .ok t →
      t.ledger = { cycles := s.ledger.cycles + Tag.cost s.config.cost tag, log := s.ledger.log ++ [tag] }

/-- 40 R100: `EaBeginRead` in full: busy; the mode check; the size check; AREG at size B; and otherwise the descriptor
begins, with `EA.addr` and `EA.value` as they were and nothing recorded or charged. -/
def Obligations.BeginReadChecksInOrder : Prop :=
  ∀ (f : Form) (s : State),
    (s.ea.active = true → eaBeginRead f s = .refused .eaBusy) ∧
    (s.ea.active = false → f.mode = none →
      eaBeginRead f s = .fatal .unsupportedEaMode (s.raiseFatal .unsupportedEaMode)) ∧
    (s.ea.active = false → f.mode ≠ none → f.size = none →
      eaBeginRead f s = .fatal .badSizeField (s.raiseFatal .badSizeField)) ∧
    (s.ea.active = false → f.mode = some .areg → f.size = some .b →
      eaBeginRead f s = .fatal .unsupportedEaMode (s.raiseFatal .unsupportedEaMode)) ∧
    (∀ m sz, s.ea.active = false → f.mode = some m → f.size = some sz → ¬(m = .areg ∧ sz = .b) →
      eaBeginRead f s = .begun { s with ea := { s.ea with active := true, mode := m, reg := f.reg, size := sz, step := 0 } })

/-- 40 R101: a poll performs one step or reports done, never both: idle is refused; with steps left it is unresolved,
one more step performed, or refused on an odd access; with none left it is done, inactive, and nothing else changes. -/
def Obligations.PollPerformsAStepOrReportsDone : Prop :=
  ∀ s : State,
    (s.ea.active = false → eaPoll s = .refused .eaIdle) ∧
    (s.ea.active = true → s.ea.step.toNat < nSteps s.ea.mode s.ea.size →
      (∃ t, eaPoll s = .unresolved t ∧ t.ea.active = true ∧ t.ea.step.toNat = s.ea.step.toNat + 1 ∧
        t.ea.mode = s.ea.mode ∧ t.ea.reg = s.ea.reg ∧ t.ea.size = s.ea.size) ∨
      eaPoll s = .refused .oddWordAccess) ∧
    (s.ea.active = true → nSteps s.ea.mode s.ea.size ≤ s.ea.step.toNat →
      ∃ v, eaPoll s = .done v { s with ea := { s.ea with active := false } } ∧
        (s.ea.mode = .dreg → v = mask s.ea.size (s.readD s.ea.reg)) ∧
        (s.ea.mode = .areg → v = mask s.ea.size (s.readA s.ea.reg)) ∧
        (s.ea.mode ≠ .dreg → s.ea.mode ≠ .areg → v = s.ea.value))

/-! ## The ALU and the flags -/

/-- 42 R150: the subtraction is modular at the operation's width, on the masked operands, and returns their sign
bits. -/
def Obligations.SubtractionIsModularAtTheWidth : Prop :=
  ∀ (sz : Size) (dst src : Long),
    let n := Size.bits sz
    (sub sz dst src).r.toNat = (dst.toNat % 2 ^ n + (2 ^ n - src.toNat % 2 ^ n)) % 2 ^ n ∧
    (sub sz dst src).dm = dst.getLsbD (n - 1) ∧ (sub sz dst src).sm = src.getLsbD (n - 1) ∧
    ((sub sz dst src).rm = true ↔ 2 ^ (n - 1) ≤ (sub sz dst src).r.toNat)

/-- 42 R152, R153: `Z` = 1 exactly when the masked result is 0, that is when the masked operands are equal; `N` is
bit 7, 15 or 31 of the masked result. -/
def Obligations.ZeroAndNegativeFlags : Prop :=
  (∀ (sz : Size) (dst src : Long),
    ((compareFlags (sub sz dst src)).z = true ↔ (sub sz dst src).r = 0) ∧
    ((compareFlags (sub sz dst src)).z = true ↔ mask sz dst = mask sz src)) ∧
  ∀ dst src : Long,
    (compareFlags (sub .b dst src)).n = (sub .b dst src).r.getLsbD 7 ∧
    (compareFlags (sub .w dst src)).n = (sub .w dst src).r.getLsbD 15 ∧
    (compareFlags (sub .l dst src)).n = (sub .l dst src).r.getLsbD 31

/-- 42 R154: `V` by the three sign bits, and equivalently exactly when the signed difference is outside the range of
the width; the equivalence is the spec's own inference ("[derived: from rule R150]"). -/
def Obligations.OverflowFlagMeansOutOfSignedRange : Prop :=
  ∀ (sz : Size) (dst src : Long),
    let x := sub sz dst src
    let diff := signedValue sz dst - signedValue sz src
    ((compareFlags x).v = true ↔ x.sm ≠ x.dm ∧ x.rm ≠ x.dm) ∧
    ((compareFlags x).v = true ↔ diff < -2 ^ (Size.bits sz - 1) ∨ 2 ^ (Size.bits sz - 1) ≤ diff)

/-- 42 R155: `C` by the three sign bits, and equivalently exactly when the source exceeds the destination, both masked
and unsigned; that the two agree is the spec's own inference ("[derived: from rule R150; …]"). -/
def Obligations.CarryFlagMeansUnsignedBorrow : Prop :=
  ∀ (sz : Size) (dst src : Long),
    let x := sub sz dst src
    ((compareFlags x).c = true ↔ (x.sm = true ∧ x.dm = false) ∨ (x.rm = true ∧ x.dm = false) ∨ (x.sm = true ∧ x.rm = true)) ∧
    ((compareFlags x).c = true ↔ (mask sz dst).toNat < (mask sz src).toNat)

/-- 42 R156: the truth table of `V` and `C` over the sign bits of source, destination and result, each row reachable
at every width; and each row's byte example `d - s = r` is computed so. The table is the spec's own inference ("this
table is computed from rules R154 and R155"). -/
def Obligations.FlagTruthTable : Prop :=
  let rows : List (Bool × Bool × Bool × Bool × Bool) :=
    [(false, false, false, false, false), (false, false, true, false, true), (false, true, false, true, false),
     (false, true, true, false, false), (true, false, false, false, true), (true, false, true, true, true),
     (true, true, false, false, false), (true, true, true, false, true)]
  let examples : List (Long × Long × Long) :=
    [(0x07, 0x05, 0x02), (0x05, 0x07, 0xFE), (0x80, 0x01, 0x7F), (0xFF, 0x01, 0xFE), (0x01, 0xFF, 0x02),
     (0x7F, 0x80, 0xFF), (0xFF, 0x80, 0x7F), (0x80, 0xFF, 0x81)]
  (∀ sz : Size,
    (∀ dst src : Long, ((sub sz dst src).sm, (sub sz dst src).dm, (sub sz dst src).rm,
      (compareFlags (sub sz dst src)).v, (compareFlags (sub sz dst src)).c) ∈ rows) ∧
    (∀ row ∈ rows, ∃ dst src : Long, ((sub sz dst src).sm, (sub sz dst src).dm, (sub sz dst src).rm,
      (compareFlags (sub sz dst src)).v, (compareFlags (sub sz dst src)).c) = row)) ∧
  examples.map (fun e => (sub .b e.1 e.2.1).r) = examples.map (fun e => e.2.2) ∧
  examples.map (fun e => ((sub .b e.1 e.2.1).sm, (sub .b e.1 e.2.1).dm, (sub .b e.1 e.2.1).rm,
    (compareFlags (sub .b e.1 e.2.1)).v, (compareFlags (sub .b e.1 e.2.1)).c)) = rows

/-- 42 R158 and 95 section 2.1: the flags are those of the masked operands, whatever the bits above the width; `N` xor
`V` (R153, R154) says that the destination is the lesser, signed; `C` (R155) that it is the lesser, unsigned; and `Z`
(R152), equal operands, leaves `N`, `V` and `C` clear. -/
def Obligations.FlagsCompareTheMaskedOperands : Prop :=
  ∀ (sz : Size) (dst src : Long),
    compareFlags (sub sz (mask sz dst) (mask sz src)) = compareFlags (sub sz dst src) ∧
    (((compareFlags (sub sz dst src)).n ^^ (compareFlags (sub sz dst src)).v) = true ↔
      signedValue sz dst < signedValue sz src) ∧
    ((compareFlags (sub sz dst src)).c = true ↔ (mask sz dst).toNat < (mask sz src).toNat) ∧
    ((compareFlags (sub sz dst src)).z = true →
      compareFlags (sub sz dst src) = { n := false, z := true, v := false, c := false })

/-! ## The accountant -/

/-- 41 R131 to R134, 20_memory R55: what each operation of the accountant does to the ledger, and that it does nothing
else; the cost of each tag; a word read is refused at an odd address and only there. -/
def Obligations.AccountantOperations : Prop :=
  ∀ (s : State) (c : Nat) (tag : Tag) (a : Long),
    s.charge c = { s with ledger := { cycles := s.ledger.cycles + c, log := s.ledger.log } } ∧
    s.record tag = { s with ledger := s.ledger.plus (Tag.cost s.config.cost tag) [tag] } ∧
    (Tag.cost s.config.cost .readB = s.config.cost.read ∧ Tag.cost s.config.cost .readW = s.config.cost.read ∧
      Tag.cost s.config.cost .writeB = s.config.cost.write ∧ Tag.cost s.config.cost .writeW = s.config.cost.write ∧
      Tag.cost s.config.cost .prefetch = s.config.cost.prefetch ∧
      Tag.cost s.config.cost .idleN = s.config.cost.idle) ∧
    s.completionPrefetch = { s with ledger := s.ledger.plus s.config.cost.prefetch [.prefetch] } ∧
    s.busReadByte a = (s.memReadByte a, s.record .readB) ∧
    s.busReadWord tag a =
      (if a.toNat % 2 = 1 then .error .oddWordAccess else .ok (s.memReadByte a ++ s.memReadByte (a + 1), s.record tag))

/-- 41 R135: no tick lets the ledger decrease: the cycles do not fall and the log is only extended; and of all the
actions of the block's users only reset and the external clear can make it decrease. -/
def Obligations.LedgerNeverDecreases : Prop :=
  (∀ (i : Instr) (s t : State), exec i s = .next t →
    s.ledger.cycles ≤ t.ledger.cycles ∧ ∃ tags, t.ledger.log = s.ledger.log ++ tags) ∧
  (∀ (x : Action) (s t : State), act x s = .next t → x ≠ .clearLedger → (∀ u, x ≠ .reset u) →
    s.ledger.cycles ≤ t.ledger.cycles ∧ ∃ tags, t.ledger.log = s.ledger.log ++ tags)

/-- 41 R140: when the three charges are positive, every tick that does not start at `FINISHED` adds cycles. -/
def Obligations.EveryTickTakesTime : Prop :=
  ∀ (i : Instr) (s t : State), 0 < s.config.cost.readWait → 0 < s.config.cost.instr → 0 < s.config.cost.long →
    s.marker ≠ .finished → exec i s = .next t → s.ledger.cycles < t.ledger.cycles

/-- 70 R271: the ledger and the costs steer nothing: two states that differ only there take the same tick, to states
that differ only there, with the same tags appended in the same order. -/
def Obligations.LedgerAndCostsSteerNothing : Prop :=
  ∀ (i : Instr) (s : State) (l : Ledger) (c : Cost),
    match exec i s, exec i { s with ledger := l, config := { s.config with cost := c } } with
    | .next t, .next t' =>
      t' = { t with ledger := t'.ledger, config := { t.config with cost := c } } ∧
        ∃ tags, t.ledger.log = s.ledger.log ++ tags ∧ t'.ledger.log = l.log ++ tags
    | .fault r, .fault r' => r = r'
    | .refused r, .refused r' => r = r'
    | _, _ => False

/-! ## The users of the block -/

/-- 70 R263, R264, R266: in mid-instruction a write by another component to `D`, `A`, the flags, `pc`, the descriptor
or `MARKER`, a reload of `MARKER` and a clear of the ledger are refused by name; at a boundary each of them is done and
changes nothing else. The reload and the clear at a boundary are 70 R252's and 41 R136's; that the other writes at
`NONE` and `FINISHED` are done is the model's choice (DESIGN CHOICE; log 17), and so is that all of them are refused as
`BAD_MARKER` at the codes 4, 5 and 6 (DESIGN CHOICE; log 10). All of it holds whatever `FATAL` holds, of which the rules
are silent here (DESIGN CHOICE; log 23). -/
def Obligations.MidInstructionActionsAreRefused : Prop :=
  ∀ s : State,
    (s.marker = .read ∨ s.marker = .prefetch ∨ s.marker = .long →
      (∀ i v, act (.writeD i v) s = .refused .foreignWrite ∧ act (.writeA i v) s = .refused .foreignWrite) ∧
      (∀ f, act (.writeFlags f) s = .refused .foreignWrite) ∧ (∀ v, act (.writePc v) s = .refused .foreignWrite) ∧
      (∀ e, act (.writeEa e) s = .refused .foreignWrite) ∧ (∀ m, act (.writeMarker m) s = .refused .foreignWrite) ∧
      act .reloadMarker s = .refused .restartBeforeFinished ∧ act .clearLedger s = .refused .clearInProgress) ∧
    (s.marker = .none ∨ s.marker = .finished →
      (∀ i v, act (.writeD i v) s = .next { s with d := s.d.set i v } ∧
        act (.writeA i v) s = .next { s with a := s.a.set i v }) ∧
      (∀ f, act (.writeFlags f) s = .next { s with flags := f }) ∧
      (∀ v, act (.writePc v) s = .next { s with pc := v }) ∧
      (∀ e, act (.writeEa e) s = .next { s with ea := e }) ∧
      (∀ m, act (.writeMarker m) s = .next { s with marker := m }) ∧
      act .reloadMarker s = .next { s with marker := .none } ∧
      act .clearLedger s = .next { s with ledger := { cycles := 0, log := [] } }) ∧
    (s.marker = .bad4 ∨ s.marker = .bad5 ∨ s.marker = .bad6 →
      (∀ i v, act (.writeD i v) s = .refused .badMarker ∧ act (.writeA i v) s = .refused .badMarker) ∧
      (∀ f, act (.writeFlags f) s = .refused .badMarker) ∧ (∀ v, act (.writePc v) s = .refused .badMarker) ∧
      (∀ e, act (.writeEa e) s = .refused .badMarker) ∧ (∀ m, act (.writeMarker m) s = .refused .badMarker) ∧
      act .reloadMarker s = .refused .badMarker ∧ act .clearLedger s = .refused .badMarker)

/-- 70 R265: before the build a lookup is refused; after it a write of a table slot is refused, a re-run of the builder
leaves the built tables as they are, and no tick changes them. -/
def Obligations.BuiltTablesAreNeverWritten : Prop :=
  ∀ s : State,
    (s.built = false → ∀ op, act (.lookup op) s = .refused .dispatchBeforeBuild ∧
      act (.lookupPrint op) s = .refused .dispatchBeforeBuild) ∧
    (s.built = true →
      (∀ op e, act (.writeExec op e) s = .refused .tableWriteAfterBuild) ∧
      (∀ op e, act (.writePrint op e) s = .refused .tableWriteAfterBuild) ∧
      (∀ r, buildTables r = .next s → act .buildTables s = .next s) ∧
      (∀ op t, act (.tick op) s = .next t → t.execTable = s.execTable ∧ t.printTable = s.printTable ∧ t.built = true))

/-- 20_memory R62: what another agent does between ticks changes memory and no Processor State, at any marker. That its
action is a write of one byte, which a later read returns, and keeps the memory canonical, is the model's (log 15,
log 2: R51 leaves what a read answers to the bus layer). -/
def Obligations.OtherAgentsChangeOneByte : Prop :=
  ∀ (s : State) (a : Long) (v : Byte), Memory.wf s.mem = true →
    ∃ t, act (.busWrite a v) s = .next t ∧ t = { s with mem := t.mem } ∧ Memory.wf t.mem = true ∧
      t.memReadByte a = v ∧ ∀ b, b ≠ a → t.memReadByte b = s.memReadByte b

/-- 20_memory R52, R56: a word is stored and read big-endian, and the address arithmetic wraps. That a read returns what
was stored, that no other byte changes and that the memory stays canonical is the model's plain memory (DESIGN CHOICE;
log 2: R51 leaves what a read answers to the bus layer, R57 allows reads with effects). -/
def Obligations.WordsAreBigEndian : Prop :=
  ∀ (s : State) (a : Long) (v : Word), Memory.wf s.mem = true →
    (s.memWriteWord a v).memReadByte a = v.extractLsb' 8 8 ∧
    (s.memWriteWord a v).memReadByte (a + 1) = v.extractLsb' 0 8 ∧
    (s.memWriteWord a v).memReadWord a = v ∧
    (∀ b, b ≠ a → b ≠ a + 1 → (s.memWriteWord a v).memReadByte b = s.memReadByte b) ∧
    Memory.wf (s.memWriteWord a v).mem = true

/-! ## The print adapter -/

/-- 45 R200 to R205, 20_memory R58: for every instruction, with a slot in `PRINT`, `render` gives the address, the
mnemonic of the width and the operand string of the words at `address + 2` and `address + 4`; at an even address it is
refused as `PEEK_HAS_SIDE_EFFECT` exactly when the bus layer offers no side-effect-free view of a byte it peeks, and
as `ODD_WORD_ACCESS` when the words are at an odd address. That the bus layer's capability is a list of byte
addresses, and that the odd address is refused first, whatever is listed, is the model's (DESIGN CHOICE; log 13). -/
def Obligations.RenderGivesTheRecord : Prop :=
  ∀ (i : Instr) (s : State) (a : Long), s.built = true → s.printAt (encodeWord i) = .pCmp →
    let peeked : List Long := List.take (2 * extWords i.mode i.size) [a + 2, a + 3, a + 4, a + 5]
    (extWords i.mode i.size = 0 →
      render a (encodeWord i) s = .record
        { address := a, mnemonic := mnemonicText i.size, operands := operandsText i.mode i.size i.reg i.dreg 0 0 }) ∧
    (extWords i.mode i.size ≠ 0 → isOdd a = false → (∀ b ∈ peeked, b.toNat ∉ s.config.unpeekable) →
      ∃ w2, (extWords i.mode i.size = 2 → w2 = s.memReadWord (a + 4)) ∧
        render a (encodeWord i) s = .record
          { address := a, mnemonic := mnemonicText i.size,
            operands := operandsText i.mode i.size i.reg i.dreg (s.memReadWord (a + 2)) w2 }) ∧
    (extWords i.mode i.size ≠ 0 → isOdd a = false → (∃ b ∈ peeked, b.toNat ∈ s.config.unpeekable) →
      render a (encodeWord i) s = .refused .peekHasSideEffect) ∧
    (extWords i.mode i.size ≠ 0 → isOdd a = true → render a (encodeWord i) s = .refused .oddWordAccess)

/-- 45 R202, R203, R204: the spec's golden strings. -/
def Obligations.RenderedTextIsTheGoldenText : Prop :=
  operandsText .dreg .b 1 3 0 0 = "D1,D3" ∧ operandsText .areg .w 2 3 0 0 = "A2,D3" ∧
  operandsText .ind .w 0 3 0 0 = "(A0),D3" ∧ operandsText .postinc .w 1 3 0 0 = "(A1)+,D3" ∧
  operandsText .predec .l 0 3 0 0 = "-(A0),D3" ∧ operandsText .disp16 .w 2 3 0xFFFE 0 = "$FFFE(A2),D3" ∧
  operandsText .index .l 0 3 0x98FE 0 = "$FE(A0,A1.L),D3" ∧ operandsText .index .w 0 5 0x1002 0 = "$02(A0,D1.W),D5" ∧
  operandsText .absW .b 0 3 0x0400 0 = "$0400.W,D3" ∧ operandsText .absL .l 1 3 0x0001 0x0000 = "$00010000.L,D3" ∧
  operandsText .imm .b 4 3 0xAB07 0 = "#$07,D3" ∧ operandsText .imm .w 4 3 0x1234 0 = "#$1234,D3" ∧
  operandsText .imm .l 4 3 0x1234 0x5678 = "#$12345678,D3" ∧
  mnemonicText .b = "CMP.B" ∧ mnemonicText .w = "CMP.W" ∧ mnemonicText .l = "CMP.L"

/-- 45 R200, R207, 70 R268: `render` answers alike in any two states with the same print table, memory and bus layer,
whatever the registers, the marker, the descriptor, the latch and the ledger hold, and reports an illegal opcode. That
`render` before `BuildTables` is refused like any other lookup, although R268 lets it be called in any state, is the
model's choice (DESIGN CHOICE; log 22). -/
def Obligations.RenderReadsNoProcessorState : Prop :=
  (∀ (a : Long) (op : Word) (s t : State), t.printTable = s.printTable → t.built = s.built → t.mem = s.mem →
    t.config.unpeekable = s.config.unpeekable → render a op t = render a op s) ∧
  (∀ (a : Long) (op : Word) (s : State), s.built = true → s.printAt op = .illegal → render a op s = .illegal op) ∧
  (∀ (a : Long) (op : Word) (s : State), s.built = false → render a op s = .refused .dispatchBeforeBuild)
end

