-- ==== Sys2Proof/Laws/PerInstr.lean ====
section
/-! SUPPORT. Statements made for every instruction as syntax, one lemma per constructor. Family `Fields`: the fields a
tick extracts from the encoded opcode word are the instruction's, and they are well formed. -/

namespace Sys2Proof.Laws.Fields

/-- Field extraction undoes the encoding (30_encoding R81), and the fields are legal (R88). -/
def Statement (i : Instr) : Prop := formOf (encodeWord i) = i.form ∧ i.form.wellFormed = true

theorem cmpBDreg : ∀ d r : RegNum, Statement (.cmpBDreg d r) := by unfold Statement; decide

theorem cmpBInd : ∀ d r : RegNum, Statement (.cmpBInd d r) := by unfold Statement; decide

theorem cmpBPostinc : ∀ d r : RegNum, Statement (.cmpBPostinc d r) := by unfold Statement; decide

theorem cmpBPredec : ∀ d r : RegNum, Statement (.cmpBPredec d r) := by unfold Statement; decide

theorem cmpBDisp16 : ∀ d r : RegNum, Statement (.cmpBDisp16 d r) := by unfold Statement; decide

theorem cmpBIndex : ∀ d r : RegNum, Statement (.cmpBIndex d r) := by unfold Statement; decide

theorem cmpBAbsW : ∀ d : RegNum, Statement (.cmpBAbsW d) := by unfold Statement; decide

theorem cmpBAbsL : ∀ d : RegNum, Statement (.cmpBAbsL d) := by unfold Statement; decide

theorem cmpBImm : ∀ d : RegNum, Statement (.cmpBImm d) := by unfold Statement; decide

theorem cmpWDreg : ∀ d r : RegNum, Statement (.cmpWDreg d r) := by unfold Statement; decide

theorem cmpWAreg : ∀ d r : RegNum, Statement (.cmpWAreg d r) := by unfold Statement; decide

theorem cmpWInd : ∀ d r : RegNum, Statement (.cmpWInd d r) := by unfold Statement; decide

theorem cmpWPostinc : ∀ d r : RegNum, Statement (.cmpWPostinc d r) := by unfold Statement; decide

theorem cmpWPredec : ∀ d r : RegNum, Statement (.cmpWPredec d r) := by unfold Statement; decide

theorem cmpWDisp16 : ∀ d r : RegNum, Statement (.cmpWDisp16 d r) := by unfold Statement; decide

theorem cmpWIndex : ∀ d r : RegNum, Statement (.cmpWIndex d r) := by unfold Statement; decide

theorem cmpWAbsW : ∀ d : RegNum, Statement (.cmpWAbsW d) := by unfold Statement; decide

theorem cmpWAbsL : ∀ d : RegNum, Statement (.cmpWAbsL d) := by unfold Statement; decide

theorem cmpWImm : ∀ d : RegNum, Statement (.cmpWImm d) := by unfold Statement; decide

theorem cmpLDreg : ∀ d r : RegNum, Statement (.cmpLDreg d r) := by unfold Statement; decide

theorem cmpLAreg : ∀ d r : RegNum, Statement (.cmpLAreg d r) := by unfold Statement; decide

theorem cmpLInd : ∀ d r : RegNum, Statement (.cmpLInd d r) := by unfold Statement; decide

theorem cmpLPostinc : ∀ d r : RegNum, Statement (.cmpLPostinc d r) := by unfold Statement; decide

theorem cmpLPredec : ∀ d r : RegNum, Statement (.cmpLPredec d r) := by unfold Statement; decide

theorem cmpLDisp16 : ∀ d r : RegNum, Statement (.cmpLDisp16 d r) := by unfold Statement; decide

theorem cmpLIndex : ∀ d r : RegNum, Statement (.cmpLIndex d r) := by unfold Statement; decide

theorem cmpLAbsW : ∀ d : RegNum, Statement (.cmpLAbsW d) := by unfold Statement; decide

theorem cmpLAbsL : ∀ d : RegNum, Statement (.cmpLAbsL d) := by unfold Statement; decide

theorem cmpLImm : ∀ d : RegNum, Statement (.cmpLImm d) := by unfold Statement; decide

end Sys2Proof.Laws.Fields
end

