-- ==== Sys2Proof/Laws/State.lean ====
section
/-! SUPPORT. The fields of every named update of the state, one lemma per field that a later proof reads, true by
`rfl`. -/

namespace Sys2Proof.Machine

/-! ## `charge` -/

@[simp] theorem State.charge_d (s : State) (c : Nat) : (s.charge c).d = s.d := rfl

@[simp] theorem State.charge_a (s : State) (c : Nat) : (s.charge c).a = s.a := rfl

@[simp] theorem State.charge_flags (s : State) (c : Nat) : (s.charge c).flags = s.flags := rfl

@[simp] theorem State.charge_pc (s : State) (c : Nat) : (s.charge c).pc = s.pc := rfl

@[simp] theorem State.charge_marker (s : State) (c : Nat) : (s.charge c).marker = s.marker := rfl

@[simp] theorem State.charge_ea (s : State) (c : Nat) : (s.charge c).ea = s.ea := rfl

@[simp] theorem State.charge_fatal (s : State) (c : Nat) : (s.charge c).fatal = s.fatal := rfl

@[simp] theorem State.charge_fatalReason (s : State) (c : Nat) : (s.charge c).fatalReason = s.fatalReason := rfl

@[simp] theorem State.charge_execTable (s : State) (c : Nat) : (s.charge c).execTable = s.execTable := rfl

@[simp] theorem State.charge_printTable (s : State) (c : Nat) : (s.charge c).printTable = s.printTable := rfl

@[simp] theorem State.charge_built (s : State) (c : Nat) : (s.charge c).built = s.built := rfl

@[simp] theorem State.charge_ledger (s : State) (c : Nat) : (s.charge c).ledger =
    { s.ledger with cycles := s.ledger.cycles + c } := rfl

@[simp] theorem State.charge_mem (s : State) (c : Nat) : (s.charge c).mem = s.mem := rfl

@[simp] theorem State.charge_opcode (s : State) (c : Nat) : (s.charge c).opcode = s.opcode := rfl

@[simp] theorem State.charge_config (s : State) (c : Nat) : (s.charge c).config = s.config := rfl

/-! ## `record` -/

@[simp] theorem State.record_d (s : State) (t : Tag) : (s.record t).d = s.d := rfl

@[simp] theorem State.record_a (s : State) (t : Tag) : (s.record t).a = s.a := rfl

@[simp] theorem State.record_flags (s : State) (t : Tag) : (s.record t).flags = s.flags := rfl

@[simp] theorem State.record_pc (s : State) (t : Tag) : (s.record t).pc = s.pc := rfl

@[simp] theorem State.record_marker (s : State) (t : Tag) : (s.record t).marker = s.marker := rfl

@[simp] theorem State.record_ea (s : State) (t : Tag) : (s.record t).ea = s.ea := rfl

@[simp] theorem State.record_fatal (s : State) (t : Tag) : (s.record t).fatal = s.fatal := rfl

@[simp] theorem State.record_fatalReason (s : State) (t : Tag) : (s.record t).fatalReason = s.fatalReason := rfl

@[simp] theorem State.record_execTable (s : State) (t : Tag) : (s.record t).execTable = s.execTable := rfl

@[simp] theorem State.record_printTable (s : State) (t : Tag) : (s.record t).printTable = s.printTable := rfl

@[simp] theorem State.record_built (s : State) (t : Tag) : (s.record t).built = s.built := rfl

@[simp] theorem State.record_ledger (s : State) (t : Tag) : (s.record t).ledger =
    { cycles := s.ledger.cycles + Tag.cost s.config.cost t, log := s.ledger.log ++ [t] } := rfl

@[simp] theorem State.record_mem (s : State) (t : Tag) : (s.record t).mem = s.mem := rfl

@[simp] theorem State.record_opcode (s : State) (t : Tag) : (s.record t).opcode = s.opcode := rfl

@[simp] theorem State.record_config (s : State) (t : Tag) : (s.record t).config = s.config := rfl

/-! ## `completionPrefetch` -/

@[simp] theorem State.completionPrefetch_d (s : State) : (s.completionPrefetch).d = s.d := rfl

@[simp] theorem State.completionPrefetch_a (s : State) : (s.completionPrefetch).a = s.a := rfl

@[simp] theorem State.completionPrefetch_flags (s : State) : (s.completionPrefetch).flags = s.flags := rfl

@[simp] theorem State.completionPrefetch_pc (s : State) : (s.completionPrefetch).pc = s.pc := rfl

@[simp] theorem State.completionPrefetch_marker (s : State) : (s.completionPrefetch).marker = s.marker := rfl

@[simp] theorem State.completionPrefetch_ea (s : State) : (s.completionPrefetch).ea = s.ea := rfl

@[simp] theorem State.completionPrefetch_fatal (s : State) : (s.completionPrefetch).fatal = s.fatal := rfl

@[simp] theorem State.completionPrefetch_fatalReason (s : State) : (s.completionPrefetch).fatalReason = s.fatalReason := rfl

@[simp] theorem State.completionPrefetch_execTable (s : State) : (s.completionPrefetch).execTable = s.execTable := rfl

@[simp] theorem State.completionPrefetch_printTable (s : State) : (s.completionPrefetch).printTable = s.printTable := rfl

@[simp] theorem State.completionPrefetch_built (s : State) : (s.completionPrefetch).built = s.built := rfl

@[simp] theorem State.completionPrefetch_ledger (s : State) : (s.completionPrefetch).ledger =
    { cycles := s.ledger.cycles + s.config.cost.prefetch, log := s.ledger.log ++ [.prefetch] } := rfl

@[simp] theorem State.completionPrefetch_mem (s : State) : (s.completionPrefetch).mem = s.mem := rfl

@[simp] theorem State.completionPrefetch_opcode (s : State) : (s.completionPrefetch).opcode = s.opcode := rfl

@[simp] theorem State.completionPrefetch_config (s : State) : (s.completionPrefetch).config = s.config := rfl

/-! ## `ledgerClear` -/

@[simp] theorem State.ledgerClear_d (s : State) : (s.ledgerClear).d = s.d := rfl

@[simp] theorem State.ledgerClear_a (s : State) : (s.ledgerClear).a = s.a := rfl

@[simp] theorem State.ledgerClear_flags (s : State) : (s.ledgerClear).flags = s.flags := rfl

@[simp] theorem State.ledgerClear_pc (s : State) : (s.ledgerClear).pc = s.pc := rfl

@[simp] theorem State.ledgerClear_marker (s : State) : (s.ledgerClear).marker = s.marker := rfl

@[simp] theorem State.ledgerClear_ea (s : State) : (s.ledgerClear).ea = s.ea := rfl

@[simp] theorem State.ledgerClear_fatal (s : State) : (s.ledgerClear).fatal = s.fatal := rfl

@[simp] theorem State.ledgerClear_fatalReason (s : State) : (s.ledgerClear).fatalReason = s.fatalReason := rfl

@[simp] theorem State.ledgerClear_execTable (s : State) : (s.ledgerClear).execTable = s.execTable := rfl

@[simp] theorem State.ledgerClear_printTable (s : State) : (s.ledgerClear).printTable = s.printTable := rfl

@[simp] theorem State.ledgerClear_built (s : State) : (s.ledgerClear).built = s.built := rfl

@[simp] theorem State.ledgerClear_ledger (s : State) : (s.ledgerClear).ledger = { cycles := 0, log := [] } := rfl

@[simp] theorem State.ledgerClear_mem (s : State) : (s.ledgerClear).mem = s.mem := rfl

@[simp] theorem State.ledgerClear_opcode (s : State) : (s.ledgerClear).opcode = s.opcode := rfl

@[simp] theorem State.ledgerClear_config (s : State) : (s.ledgerClear).config = s.config := rfl

/-! ## `writeA` -/

@[simp] theorem State.writeA_d (s : State) (i : RegNum) (v : Long) : (s.writeA i v).d = s.d := rfl

@[simp] theorem State.writeA_a (s : State) (i : RegNum) (v : Long) : (s.writeA i v).a = s.a.set i v := rfl

@[simp] theorem State.writeA_flags (s : State) (i : RegNum) (v : Long) : (s.writeA i v).flags = s.flags := rfl

@[simp] theorem State.writeA_pc (s : State) (i : RegNum) (v : Long) : (s.writeA i v).pc = s.pc := rfl

@[simp] theorem State.writeA_marker (s : State) (i : RegNum) (v : Long) : (s.writeA i v).marker = s.marker := rfl

@[simp] theorem State.writeA_ea (s : State) (i : RegNum) (v : Long) : (s.writeA i v).ea = s.ea := rfl

@[simp] theorem State.writeA_fatal (s : State) (i : RegNum) (v : Long) : (s.writeA i v).fatal = s.fatal := rfl

@[simp] theorem State.writeA_fatalReason (s : State) (i : RegNum) (v : Long) : (s.writeA i v).fatalReason = s.fatalReason := rfl

@[simp] theorem State.writeA_execTable (s : State) (i : RegNum) (v : Long) : (s.writeA i v).execTable = s.execTable := rfl

@[simp] theorem State.writeA_printTable (s : State) (i : RegNum) (v : Long) : (s.writeA i v).printTable = s.printTable := rfl

@[simp] theorem State.writeA_built (s : State) (i : RegNum) (v : Long) : (s.writeA i v).built = s.built := rfl

@[simp] theorem State.writeA_ledger (s : State) (i : RegNum) (v : Long) : (s.writeA i v).ledger = s.ledger := rfl

@[simp] theorem State.writeA_mem (s : State) (i : RegNum) (v : Long) : (s.writeA i v).mem = s.mem := rfl

@[simp] theorem State.writeA_opcode (s : State) (i : RegNum) (v : Long) : (s.writeA i v).opcode = s.opcode := rfl

@[simp] theorem State.writeA_config (s : State) (i : RegNum) (v : Long) : (s.writeA i v).config = s.config := rfl

/-! ## `writeD` -/

@[simp] theorem State.writeD_d (s : State) (i : RegNum) (v : Long) : (s.writeD i v).d = s.d.set i v := rfl

@[simp] theorem State.writeD_a (s : State) (i : RegNum) (v : Long) : (s.writeD i v).a = s.a := rfl

@[simp] theorem State.writeD_flags (s : State) (i : RegNum) (v : Long) : (s.writeD i v).flags = s.flags := rfl

@[simp] theorem State.writeD_pc (s : State) (i : RegNum) (v : Long) : (s.writeD i v).pc = s.pc := rfl

@[simp] theorem State.writeD_marker (s : State) (i : RegNum) (v : Long) : (s.writeD i v).marker = s.marker := rfl

@[simp] theorem State.writeD_ea (s : State) (i : RegNum) (v : Long) : (s.writeD i v).ea = s.ea := rfl

@[simp] theorem State.writeD_fatal (s : State) (i : RegNum) (v : Long) : (s.writeD i v).fatal = s.fatal := rfl

@[simp] theorem State.writeD_fatalReason (s : State) (i : RegNum) (v : Long) : (s.writeD i v).fatalReason = s.fatalReason := rfl

@[simp] theorem State.writeD_execTable (s : State) (i : RegNum) (v : Long) : (s.writeD i v).execTable = s.execTable := rfl

@[simp] theorem State.writeD_printTable (s : State) (i : RegNum) (v : Long) : (s.writeD i v).printTable = s.printTable := rfl

@[simp] theorem State.writeD_built (s : State) (i : RegNum) (v : Long) : (s.writeD i v).built = s.built := rfl

@[simp] theorem State.writeD_ledger (s : State) (i : RegNum) (v : Long) : (s.writeD i v).ledger = s.ledger := rfl

@[simp] theorem State.writeD_mem (s : State) (i : RegNum) (v : Long) : (s.writeD i v).mem = s.mem := rfl

@[simp] theorem State.writeD_opcode (s : State) (i : RegNum) (v : Long) : (s.writeD i v).opcode = s.opcode := rfl

@[simp] theorem State.writeD_config (s : State) (i : RegNum) (v : Long) : (s.writeD i v).config = s.config := rfl

/-! ## `setEaAddr` -/

@[simp] theorem State.setEaAddr_d (s : State) (v : Long) : (s.setEaAddr v).d = s.d := rfl

@[simp] theorem State.setEaAddr_a (s : State) (v : Long) : (s.setEaAddr v).a = s.a := rfl

@[simp] theorem State.setEaAddr_flags (s : State) (v : Long) : (s.setEaAddr v).flags = s.flags := rfl

@[simp] theorem State.setEaAddr_pc (s : State) (v : Long) : (s.setEaAddr v).pc = s.pc := rfl

@[simp] theorem State.setEaAddr_marker (s : State) (v : Long) : (s.setEaAddr v).marker = s.marker := rfl

@[simp] theorem State.setEaAddr_ea (s : State) (v : Long) : (s.setEaAddr v).ea = { s.ea with addr := v } := rfl

@[simp] theorem State.setEaAddr_fatal (s : State) (v : Long) : (s.setEaAddr v).fatal = s.fatal := rfl

@[simp] theorem State.setEaAddr_fatalReason (s : State) (v : Long) : (s.setEaAddr v).fatalReason = s.fatalReason := rfl

@[simp] theorem State.setEaAddr_execTable (s : State) (v : Long) : (s.setEaAddr v).execTable = s.execTable := rfl

@[simp] theorem State.setEaAddr_printTable (s : State) (v : Long) : (s.setEaAddr v).printTable = s.printTable := rfl

@[simp] theorem State.setEaAddr_built (s : State) (v : Long) : (s.setEaAddr v).built = s.built := rfl

@[simp] theorem State.setEaAddr_ledger (s : State) (v : Long) : (s.setEaAddr v).ledger = s.ledger := rfl

@[simp] theorem State.setEaAddr_mem (s : State) (v : Long) : (s.setEaAddr v).mem = s.mem := rfl

@[simp] theorem State.setEaAddr_opcode (s : State) (v : Long) : (s.setEaAddr v).opcode = s.opcode := rfl

@[simp] theorem State.setEaAddr_config (s : State) (v : Long) : (s.setEaAddr v).config = s.config := rfl

/-! ## `setEaValue` -/

@[simp] theorem State.setEaValue_d (s : State) (v : Long) : (s.setEaValue v).d = s.d := rfl

@[simp] theorem State.setEaValue_a (s : State) (v : Long) : (s.setEaValue v).a = s.a := rfl

@[simp] theorem State.setEaValue_flags (s : State) (v : Long) : (s.setEaValue v).flags = s.flags := rfl

@[simp] theorem State.setEaValue_pc (s : State) (v : Long) : (s.setEaValue v).pc = s.pc := rfl

@[simp] theorem State.setEaValue_marker (s : State) (v : Long) : (s.setEaValue v).marker = s.marker := rfl

@[simp] theorem State.setEaValue_ea (s : State) (v : Long) : (s.setEaValue v).ea = { s.ea with value := v } := rfl

@[simp] theorem State.setEaValue_fatal (s : State) (v : Long) : (s.setEaValue v).fatal = s.fatal := rfl

@[simp] theorem State.setEaValue_fatalReason (s : State) (v : Long) : (s.setEaValue v).fatalReason = s.fatalReason := rfl

@[simp] theorem State.setEaValue_execTable (s : State) (v : Long) : (s.setEaValue v).execTable = s.execTable := rfl

@[simp] theorem State.setEaValue_printTable (s : State) (v : Long) : (s.setEaValue v).printTable = s.printTable := rfl

@[simp] theorem State.setEaValue_built (s : State) (v : Long) : (s.setEaValue v).built = s.built := rfl

@[simp] theorem State.setEaValue_ledger (s : State) (v : Long) : (s.setEaValue v).ledger = s.ledger := rfl

@[simp] theorem State.setEaValue_mem (s : State) (v : Long) : (s.setEaValue v).mem = s.mem := rfl

@[simp] theorem State.setEaValue_opcode (s : State) (v : Long) : (s.setEaValue v).opcode = s.opcode := rfl

@[simp] theorem State.setEaValue_config (s : State) (v : Long) : (s.setEaValue v).config = s.config := rfl

/-! ## `raiseFatal` -/

@[simp] theorem State.raiseFatal_d (s : State) (r : FatalReason) : (s.raiseFatal r).d = s.d := rfl

@[simp] theorem State.raiseFatal_a (s : State) (r : FatalReason) : (s.raiseFatal r).a = s.a := rfl

@[simp] theorem State.raiseFatal_flags (s : State) (r : FatalReason) : (s.raiseFatal r).flags = s.flags := rfl

@[simp] theorem State.raiseFatal_pc (s : State) (r : FatalReason) : (s.raiseFatal r).pc = s.pc := rfl

@[simp] theorem State.raiseFatal_marker (s : State) (r : FatalReason) : (s.raiseFatal r).marker = s.marker := rfl

@[simp] theorem State.raiseFatal_ea (s : State) (r : FatalReason) : (s.raiseFatal r).ea = s.ea := rfl

@[simp] theorem State.raiseFatal_fatal (s : State) (r : FatalReason) : (s.raiseFatal r).fatal = true := rfl

@[simp] theorem State.raiseFatal_fatalReason (s : State) (r : FatalReason) : (s.raiseFatal r).fatalReason = r := rfl

@[simp] theorem State.raiseFatal_execTable (s : State) (r : FatalReason) : (s.raiseFatal r).execTable = s.execTable := rfl

@[simp] theorem State.raiseFatal_printTable (s : State) (r : FatalReason) : (s.raiseFatal r).printTable = s.printTable := rfl

@[simp] theorem State.raiseFatal_built (s : State) (r : FatalReason) : (s.raiseFatal r).built = s.built := rfl

@[simp] theorem State.raiseFatal_ledger (s : State) (r : FatalReason) : (s.raiseFatal r).ledger = s.ledger := rfl

@[simp] theorem State.raiseFatal_mem (s : State) (r : FatalReason) : (s.raiseFatal r).mem = s.mem := rfl

@[simp] theorem State.raiseFatal_opcode (s : State) (r : FatalReason) : (s.raiseFatal r).opcode = s.opcode := rfl

@[simp] theorem State.raiseFatal_config (s : State) (r : FatalReason) : (s.raiseFatal r).config = s.config := rfl

/-! ## `setFlagsCompare` -/

@[simp] theorem State.setFlagsCompare_d (s : State) (sz : Size) (i : RegNum) (v : Long) : (s.setFlagsCompare sz i v).d = s.d := rfl

@[simp] theorem State.setFlagsCompare_a (s : State) (sz : Size) (i : RegNum) (v : Long) : (s.setFlagsCompare sz i v).a = s.a := rfl

@[simp] theorem State.setFlagsCompare_flags (s : State) (sz : Size) (i : RegNum) (v : Long) : (s.setFlagsCompare sz i v).flags = compareFlags (sub sz (s.readD i) v) := rfl

@[simp] theorem State.setFlagsCompare_pc (s : State) (sz : Size) (i : RegNum) (v : Long) : (s.setFlagsCompare sz i v).pc = s.pc := rfl

@[simp] theorem State.setFlagsCompare_marker (s : State) (sz : Size) (i : RegNum) (v : Long) : (s.setFlagsCompare sz i v).marker = s.marker := rfl

@[simp] theorem State.setFlagsCompare_ea (s : State) (sz : Size) (i : RegNum) (v : Long) : (s.setFlagsCompare sz i v).ea = s.ea := rfl

@[simp] theorem State.setFlagsCompare_fatal (s : State) (sz : Size) (i : RegNum) (v : Long) : (s.setFlagsCompare sz i v).fatal = s.fatal := rfl

@[simp] theorem State.setFlagsCompare_fatalReason (s : State) (sz : Size) (i : RegNum) (v : Long) : (s.setFlagsCompare sz i v).fatalReason = s.fatalReason := rfl

@[simp] theorem State.setFlagsCompare_execTable (s : State) (sz : Size) (i : RegNum) (v : Long) : (s.setFlagsCompare sz i v).execTable = s.execTable := rfl

@[simp] theorem State.setFlagsCompare_printTable (s : State) (sz : Size) (i : RegNum) (v : Long) : (s.setFlagsCompare sz i v).printTable = s.printTable := rfl

@[simp] theorem State.setFlagsCompare_built (s : State) (sz : Size) (i : RegNum) (v : Long) : (s.setFlagsCompare sz i v).built = s.built := rfl

@[simp] theorem State.setFlagsCompare_ledger (s : State) (sz : Size) (i : RegNum) (v : Long) : (s.setFlagsCompare sz i v).ledger = s.ledger := rfl

@[simp] theorem State.setFlagsCompare_mem (s : State) (sz : Size) (i : RegNum) (v : Long) : (s.setFlagsCompare sz i v).mem = s.mem := rfl

@[simp] theorem State.setFlagsCompare_opcode (s : State) (sz : Size) (i : RegNum) (v : Long) : (s.setFlagsCompare sz i v).opcode = s.opcode := rfl

@[simp] theorem State.setFlagsCompare_config (s : State) (sz : Size) (i : RegNum) (v : Long) : (s.setFlagsCompare sz i v).config = s.config := rfl

/-! ## `memWriteByte` -/

@[simp] theorem State.memWriteByte_d (s : State) (x : Long) (v : Byte) : (s.memWriteByte x v).d = s.d := rfl

@[simp] theorem State.memWriteByte_a (s : State) (x : Long) (v : Byte) : (s.memWriteByte x v).a = s.a := rfl

@[simp] theorem State.memWriteByte_flags (s : State) (x : Long) (v : Byte) : (s.memWriteByte x v).flags = s.flags := rfl

@[simp] theorem State.memWriteByte_pc (s : State) (x : Long) (v : Byte) : (s.memWriteByte x v).pc = s.pc := rfl

@[simp] theorem State.memWriteByte_marker (s : State) (x : Long) (v : Byte) : (s.memWriteByte x v).marker = s.marker := rfl

@[simp] theorem State.memWriteByte_ea (s : State) (x : Long) (v : Byte) : (s.memWriteByte x v).ea = s.ea := rfl

@[simp] theorem State.memWriteByte_fatal (s : State) (x : Long) (v : Byte) : (s.memWriteByte x v).fatal = s.fatal := rfl

@[simp] theorem State.memWriteByte_fatalReason (s : State) (x : Long) (v : Byte) : (s.memWriteByte x v).fatalReason = s.fatalReason := rfl

@[simp] theorem State.memWriteByte_execTable (s : State) (x : Long) (v : Byte) : (s.memWriteByte x v).execTable = s.execTable := rfl

@[simp] theorem State.memWriteByte_printTable (s : State) (x : Long) (v : Byte) : (s.memWriteByte x v).printTable = s.printTable := rfl

@[simp] theorem State.memWriteByte_built (s : State) (x : Long) (v : Byte) : (s.memWriteByte x v).built = s.built := rfl

@[simp] theorem State.memWriteByte_ledger (s : State) (x : Long) (v : Byte) : (s.memWriteByte x v).ledger = s.ledger := rfl

@[simp] theorem State.memWriteByte_mem (s : State) (x : Long) (v : Byte) : (s.memWriteByte x v).mem = Memory.write s.mem x v := rfl

@[simp] theorem State.memWriteByte_opcode (s : State) (x : Long) (v : Byte) : (s.memWriteByte x v).opcode = s.opcode := rfl

@[simp] theorem State.memWriteByte_config (s : State) (x : Long) (v : Byte) : (s.memWriteByte x v).config = s.config := rfl

/-! ## `increment` -/

@[simp] theorem State.increment_d (s : State) (sz : Size) : (s.increment sz).d = s.d := rfl

@[simp] theorem State.increment_a (s : State) (sz : Size) : (s.increment sz).a =
    s.a.set s.ea.reg (s.readA s.ea.reg + inc s.config sz s.ea.reg) := rfl

@[simp] theorem State.increment_flags (s : State) (sz : Size) : (s.increment sz).flags = s.flags := rfl

@[simp] theorem State.increment_pc (s : State) (sz : Size) : (s.increment sz).pc = s.pc := rfl

@[simp] theorem State.increment_marker (s : State) (sz : Size) : (s.increment sz).marker = s.marker := rfl

@[simp] theorem State.increment_ea (s : State) (sz : Size) : (s.increment sz).ea = s.ea := rfl

@[simp] theorem State.increment_fatal (s : State) (sz : Size) : (s.increment sz).fatal = s.fatal := rfl

@[simp] theorem State.increment_fatalReason (s : State) (sz : Size) : (s.increment sz).fatalReason = s.fatalReason := rfl

@[simp] theorem State.increment_execTable (s : State) (sz : Size) : (s.increment sz).execTable = s.execTable := rfl

@[simp] theorem State.increment_printTable (s : State) (sz : Size) : (s.increment sz).printTable = s.printTable := rfl

@[simp] theorem State.increment_built (s : State) (sz : Size) : (s.increment sz).built = s.built := rfl

@[simp] theorem State.increment_ledger (s : State) (sz : Size) : (s.increment sz).ledger = s.ledger := rfl

@[simp] theorem State.increment_mem (s : State) (sz : Size) : (s.increment sz).mem = s.mem := rfl

@[simp] theorem State.increment_opcode (s : State) (sz : Size) : (s.increment sz).opcode = s.opcode := rfl

@[simp] theorem State.increment_config (s : State) (sz : Size) : (s.increment sz).config = s.config := rfl

/-! ## `decrement` -/

@[simp] theorem State.decrement_d (s : State) (sz : Size) : (s.decrement sz).d = s.d := rfl

@[simp] theorem State.decrement_a (s : State) (sz : Size) : (s.decrement sz).a =
    s.a.set s.ea.reg (s.readA s.ea.reg - inc s.config sz s.ea.reg) := rfl

@[simp] theorem State.decrement_flags (s : State) (sz : Size) : (s.decrement sz).flags = s.flags := rfl

@[simp] theorem State.decrement_pc (s : State) (sz : Size) : (s.decrement sz).pc = s.pc := rfl

@[simp] theorem State.decrement_marker (s : State) (sz : Size) : (s.decrement sz).marker = s.marker := rfl

@[simp] theorem State.decrement_ea (s : State) (sz : Size) : (s.decrement sz).ea =
    { s.ea with addr := s.readA s.ea.reg - inc s.config sz s.ea.reg } := rfl

@[simp] theorem State.decrement_fatal (s : State) (sz : Size) : (s.decrement sz).fatal = s.fatal := rfl

@[simp] theorem State.decrement_fatalReason (s : State) (sz : Size) : (s.decrement sz).fatalReason = s.fatalReason := rfl

@[simp] theorem State.decrement_execTable (s : State) (sz : Size) : (s.decrement sz).execTable = s.execTable := rfl

@[simp] theorem State.decrement_printTable (s : State) (sz : Size) : (s.decrement sz).printTable = s.printTable := rfl

@[simp] theorem State.decrement_built (s : State) (sz : Size) : (s.decrement sz).built = s.built := rfl

@[simp] theorem State.decrement_ledger (s : State) (sz : Size) : (s.decrement sz).ledger =
    { cycles := s.ledger.cycles + s.config.cost.idle, log := s.ledger.log ++ [.idleN] } := rfl

@[simp] theorem State.decrement_mem (s : State) (sz : Size) : (s.decrement sz).mem = s.mem := rfl

@[simp] theorem State.decrement_opcode (s : State) (sz : Size) : (s.decrement sz).opcode = s.opcode := rfl

@[simp] theorem State.decrement_config (s : State) (sz : Size) : (s.decrement sz).config = s.config := rfl

end Sys2Proof.Machine
end

