-- ==== Sys2Proof/Laws/Sparse.lean ====
section
/-! SUPPORT. The laws of the sparse maps that hold memory and the dispatch tables: read after write, and that every
write keeps the canonical form. -/

namespace Sys2Proof.Machine

section
variable {β : Type} [DecidableEq β] {dflt : β} {hi : Nat}

theorem Sparse.read_put (k k' : Nat) (v : β) (t : List (Nat × β)) (h : Sparse.read dflt k t = dflt) :
    Sparse.read dflt k' (Sparse.put dflt k v t) = if k = k' then v else Sparse.read dflt k' t := by
  unfold Sparse.put
  by_cases hv : v = dflt
  · subst hv
    by_cases hk : k = k'
    · subst hk; simp [h]
    · simp [hk]
  · simp [hv, Sparse.read]

theorem Sparse.wfAbove_cons {lo : Option Nat} {k : Nat} {v : β} {t : List (Nat × β)} :
    Sparse.wfAbove dflt hi lo ((k, v) :: t) = true ↔
      (∀ l, lo = some l → l < k) ∧ k < hi ∧ v ≠ dflt ∧ Sparse.wfAbove dflt hi (some k) t = true := by
  cases lo <;> simp [Sparse.wfAbove, and_assoc]

/-- A canonical list above a bound is canonical above any lower bound. -/
theorem Sparse.wfAbove_mono {lo lo' : Option Nat} {t : List (Nat × β)} (h : Sparse.wfAbove dflt hi lo t = true)
    (hl : ∀ l', lo' = some l' → ∃ l, lo = some l ∧ l' ≤ l) : Sparse.wfAbove dflt hi lo' t = true := by
  cases t with
  | nil => rfl
  | cons p t =>
    obtain ⟨k, v⟩ := p
    rw [Sparse.wfAbove_cons] at h ⊢
    refine ⟨fun l' e => ?_, h.2⟩
    obtain ⟨l, e', hle⟩ := hl l' e
    exact Nat.lt_of_le_of_lt hle (h.1 l e')

/-- A key at or below the bound is not listed. -/
theorem Sparse.read_of_le {lo k : Nat} (hk : k ≤ lo) (t : List (Nat × β)) {lo' : Nat}
    (h : Sparse.wfAbove dflt hi (some lo') t = true) (hl : lo ≤ lo') : Sparse.read dflt k t = dflt := by
  induction t generalizing lo' with
  | nil => rfl
  | cons p t ih =>
    obtain ⟨k', v⟩ := p
    rw [Sparse.wfAbove_cons] at h
    have := h.1 lo' rfl
    have hne : k' ≠ k := by omega
    simp [Sparse.read, hne]
    exact ih h.2.2.2 (by omega)

/-- Reading another key gives what it gave. -/
theorem Sparse.read_write_other {k k' : Nat} (hk : k' ≠ k) (v : β) (t : List (Nat × β)) :
    Sparse.read dflt k' (Sparse.write dflt k v t) = Sparse.read dflt k' t := by
  have hk2 : k ≠ k' := fun e => hk e.symm
  induction t with
  | nil => by_cases hv : v = dflt <;> simp [Sparse.write, Sparse.put, Sparse.read, hv, hk2]
  | cons p t ih =>
    obtain ⟨k1, v1⟩ := p
    by_cases h1 : k < k1
    · by_cases hv : v = dflt <;> simp [Sparse.write, Sparse.put, Sparse.read, h1, hv, hk2]
    · by_cases h2 : k = k1
      · subst h2
        by_cases hv : v = dflt <;> simp [Sparse.write, Sparse.put, Sparse.read, hv, hk2]
      · simp [Sparse.write, Sparse.read, h1, h2, ih]

/-- Reading the key just written gives the value. -/
theorem Sparse.read_write_same {k : Nat} (v : β) (t : List (Nat × β)) {lo : Option Nat}
    (h : Sparse.wfAbove dflt hi lo t = true) : Sparse.read dflt k (Sparse.write dflt k v t) = v := by
  induction t generalizing lo with
  | nil => by_cases hv : v = dflt <;> simp [Sparse.write, Sparse.put, Sparse.read, hv]
  | cons p t ih =>
    obtain ⟨k1, v1⟩ := p
    have h' := Sparse.wfAbove_cons.mp h
    by_cases h1 : k < k1
    · have hd : Sparse.read dflt k ((k1, v1) :: t) = dflt := by
        have hne : k1 ≠ k := by omega
        simpa [Sparse.read, hne] using Sparse.read_of_le (Nat.le_refl k) t h'.2.2.2 (by omega)
      simp [Sparse.write, h1, Sparse.read_put _ _ _ _ hd]
    · by_cases h2 : k = k1
      · subst h2
        have hd : Sparse.read dflt k t = dflt := Sparse.read_of_le (Nat.le_refl k) t h'.2.2.2 (Nat.le_refl k)
        simp [Sparse.write, Sparse.read_put _ _ _ _ hd]
      · have h3 : k1 ≠ k := fun e => h2 e.symm
        simp [Sparse.write, Sparse.read, h1, h2, h3, ih h'.2.2.2]

theorem Sparse.wfAbove_put {lo : Option Nat} {k : Nat} (v : β) {t : List (Nat × β)}
    (hlo : ∀ l, lo = some l → l < k) (hk : k < hi) (ht : Sparse.wfAbove dflt hi (some k) t = true) :
    Sparse.wfAbove dflt hi lo (Sparse.put dflt k v t) = true := by
  by_cases hv : v = dflt
  · simp only [Sparse.put, hv, if_true]
    exact Sparse.wfAbove_mono ht fun l e => ⟨k, rfl, Nat.le_of_lt (hlo l e)⟩
  · simp only [Sparse.put, hv, if_false]
    exact Sparse.wfAbove_cons.mpr ⟨hlo, hk, hv, ht⟩

/-- A write keeps the canonical form. -/
theorem Sparse.wfAbove_write {lo : Option Nat} {k : Nat} (v : β) (t : List (Nat × β))
    (hlo : ∀ l, lo = some l → l < k) (hk : k < hi) (h : Sparse.wfAbove dflt hi lo t = true) :
    Sparse.wfAbove dflt hi lo (Sparse.write dflt k v t) = true := by
  induction t generalizing lo with
  | nil => exact Sparse.wfAbove_put v hlo hk rfl
  | cons p t ih =>
    obtain ⟨k1, v1⟩ := p
    have h' := Sparse.wfAbove_cons.mp h
    by_cases h1 : k < k1
    · simp only [Sparse.write, h1, if_true]
      exact Sparse.wfAbove_put v hlo hk
        (Sparse.wfAbove_cons.mpr ⟨fun l e => by cases e; exact h1, h'.2⟩)
    · by_cases h2 : k = k1
      · subst h2
        simp only [Sparse.write, Nat.lt_irrefl, if_false, if_true]
        exact Sparse.wfAbove_put v hlo hk h'.2.2.2
      · simp only [Sparse.write, h1, h2, if_false]
        exact Sparse.wfAbove_cons.mpr
          ⟨h'.1, h'.2.1, h'.2.2.1, ih (fun l e => by cases e; omega) h'.2.2.2⟩

theorem Sparse.wf_write {k : Nat} (v : β) (t : List (Nat × β)) (hk : k < hi) (h : Sparse.wf dflt hi t = true) :
    Sparse.wf dflt hi (Sparse.write dflt k v t) = true :=
  Sparse.wfAbove_write v t (fun _ e => by cases e) hk h

omit [DecidableEq β] in
theorem Sparse.read_cons_self (k : Nat) (v : β) (t : List (Nat × β)) : Sparse.read dflt k ((k, v) :: t) = v := by
  simp [Sparse.read]

/-- Two canonical lists that read alike are the same list: equal maps are equal data. -/
theorem Sparse.wfAbove_ext {lo lo' : Option Nat} (t t' : List (Nat × β)) (h : Sparse.wfAbove dflt hi lo t = true)
    (h' : Sparse.wfAbove dflt hi lo' t' = true) (hr : ∀ k, Sparse.read dflt k t = Sparse.read dflt k t') : t = t' := by
  induction t generalizing t' lo lo' with
  | nil =>
    cases t' with
    | nil => rfl
    | cons p t' =>
      obtain ⟨k, v⟩ := p
      have e := hr k
      rw [Sparse.read_cons_self] at e
      exact absurd e.symm (Sparse.wfAbove_cons.mp h').2.2.1
  | cons p t ih =>
    obtain ⟨k, v⟩ := p
    have hc := Sparse.wfAbove_cons.mp h
    cases t' with
    | nil =>
      have e := hr k
      rw [Sparse.read_cons_self] at e
      exact absurd e hc.2.2.1
    | cons p' t' =>
      obtain ⟨k', v'⟩ := p'
      have hc' := Sparse.wfAbove_cons.mp h'
      have notBelow : ∀ {a b : Nat} {x y : β} {u u' : List (Nat × β)}, x ≠ dflt → a < b →
          Sparse.wfAbove dflt hi (some b) u' = true →
          Sparse.read dflt a ((a, x) :: u) ≠ Sparse.read dflt a ((b, y) :: u') := by
        intro a b x y u u' hx hab hw e
        have hne : b ≠ a := by omega
        rw [Sparse.read_cons_self] at e
        simp only [Sparse.read, hne, if_false] at e
        rw [Sparse.read_of_le (Nat.le_refl a) u' hw (by omega)] at e
        exact hx e
      rcases Nat.lt_trichotomy k k' with hlt | heq | hgt
      · exact absurd (hr k) (notBelow hc.2.2.1 hlt hc'.2.2.2)
      · subst heq
        have ev := hr k
        rw [Sparse.read_cons_self, Sparse.read_cons_self] at ev
        subst ev
        have et : t = t' := by
          refine ih t' hc.2.2.2 hc'.2.2.2 fun a => ?_
          by_cases ha : a ≤ k
          · rw [Sparse.read_of_le ha t hc.2.2.2 (Nat.le_refl k), Sparse.read_of_le ha t' hc'.2.2.2 (Nat.le_refl k)]
          · have hne : k ≠ a := by omega
            simpa [Sparse.read, hne] using hr a
        rw [et]
      · exact absurd (hr k').symm (notBelow hc'.2.2.1 hgt hc.2.2.2)

theorem Sparse.wf_ext (t t' : List (Nat × β)) (h : Sparse.wf dflt hi t = true) (h' : Sparse.wf dflt hi t' = true)
    (hr : ∀ k, Sparse.read dflt k t = Sparse.read dflt k t') : t = t' :=
  Sparse.wfAbove_ext t t' h h' hr

end

/-! ## Memory -/

/-- Every memory operation keeps the canonical form; reads change nothing, so the byte store is the only one. -/
theorem Memory.wf_write (m : List Host.Cell) (a : Long) (v : Byte) (h : Memory.wf m = true) :
    Memory.wf (Memory.write m a v) = true :=
  Sparse.wf_write v m a.isLt h

theorem Memory.wf_reset : Memory.wf State.reset.mem = true := rfl

theorem Memory.read_write_same (m : List Host.Cell) (a : Long) (v : Byte) (h : Memory.wf m = true) :
    Memory.read (Memory.write m a v) a = v :=
  Sparse.read_write_same v m h

theorem Memory.read_write_other (m : List Host.Cell) (a b : Long) (v : Byte) (h : b ≠ a) :
    Memory.read (Memory.write m a v) b = Memory.read m b :=
  Sparse.read_write_other (fun e => h (BitVec.eq_of_toNat_eq e)) v m

theorem Memory.wf_memWriteByte (s : State) (a : Long) (v : Byte) (h : Memory.wf s.mem = true) :
    Memory.wf (s.memWriteByte a v).mem = true := Memory.wf_write s.mem a v h

theorem Memory.wf_memWriteWord (s : State) (a : Long) (v : Word) (h : Memory.wf s.mem = true) :
    Memory.wf (s.memWriteWord a v).mem = true :=
  Memory.wf_write _ _ _ (Memory.wf_write s.mem a _ h)

theorem Memory.wf_placeWords (a : Long) (ws : List Word) (s : State) (h : Memory.wf s.mem = true) :
    Memory.wf (placeWords a ws s).mem = true := by
  induction ws generalizing a s with
  | nil => exact h
  | cons x t ih => exact ih (a + 2) (s.memWriteWord a x) (Memory.wf_memWriteWord s a x h)

end Sys2Proof.Machine
end

