-- ==== Sys2Proof/Laws/Tick.lean ====
section
/-! SUPPORT. What one tick can do: `exec` as the shared tick function, and the tick by the value of `MARKER`. -/

namespace Sys2Proof.Machine

theorem Instr.form_eq (i : Instr) :
    i.form = { size := some i.size, mode := some i.mode, dreg := i.dreg, reg := i.reg } := by
  cases i <;> rfl

@[simp] theorem Instr.form_size (i : Instr) : i.form.size = some i.size := by rw [Instr.form_eq]

@[simp] theorem Instr.form_mode (i : Instr) : i.form.mode = some i.mode := by rw [Instr.form_eq]

@[simp] theorem Instr.form_dreg (i : Instr) : i.form.dreg = i.dreg := rfl

@[simp] theorem Instr.form_reg (i : Instr) : i.form.reg = i.reg := rfl

theorem encodeWord_eq (i : Instr) : encodeWord i = opcodeOf i.size i.mode i.dreg i.reg := by
  cases i <;> rfl

/-- No instruction is the byte form of AREG. -/
theorem Instr.not_areg_byte (i : Instr) : ¬(i.mode = .areg ∧ i.size = .b) := by
  cases i <;> simp [Instr.mode, Instr.size]

/-- Every meaning is the shared tick on the instruction's own opcode word and fields. -/
theorem exec_eq (i : Instr) (s : State) : exec i s = (compareTick (encodeWord i) i.form s).toOutcome := by
  cases i <;> rfl

theorem formOf_encodeWord (i : Instr) : formOf (encodeWord i) = i.form := by
  cases i with
  | cmpBDreg d r => exact (Laws.Fields.cmpBDreg d r).1
  | cmpBInd d r => exact (Laws.Fields.cmpBInd d r).1
  | cmpBPostinc d r => exact (Laws.Fields.cmpBPostinc d r).1
  | cmpBPredec d r => exact (Laws.Fields.cmpBPredec d r).1
  | cmpBDisp16 d r => exact (Laws.Fields.cmpBDisp16 d r).1
  | cmpBIndex d r => exact (Laws.Fields.cmpBIndex d r).1
  | cmpBAbsW d => exact (Laws.Fields.cmpBAbsW d).1
  | cmpBAbsL d => exact (Laws.Fields.cmpBAbsL d).1
  | cmpBImm d => exact (Laws.Fields.cmpBImm d).1
  | cmpWDreg d r => exact (Laws.Fields.cmpWDreg d r).1
  | cmpWAreg d r => exact (Laws.Fields.cmpWAreg d r).1
  | cmpWInd d r => exact (Laws.Fields.cmpWInd d r).1
  | cmpWPostinc d r => exact (Laws.Fields.cmpWPostinc d r).1
  | cmpWPredec d r => exact (Laws.Fields.cmpWPredec d r).1
  | cmpWDisp16 d r => exact (Laws.Fields.cmpWDisp16 d r).1
  | cmpWIndex d r => exact (Laws.Fields.cmpWIndex d r).1
  | cmpWAbsW d => exact (Laws.Fields.cmpWAbsW d).1
  | cmpWAbsL d => exact (Laws.Fields.cmpWAbsL d).1
  | cmpWImm d => exact (Laws.Fields.cmpWImm d).1
  | cmpLDreg d r => exact (Laws.Fields.cmpLDreg d r).1
  | cmpLAreg d r => exact (Laws.Fields.cmpLAreg d r).1
  | cmpLInd d r => exact (Laws.Fields.cmpLInd d r).1
  | cmpLPostinc d r => exact (Laws.Fields.cmpLPostinc d r).1
  | cmpLPredec d r => exact (Laws.Fields.cmpLPredec d r).1
  | cmpLDisp16 d r => exact (Laws.Fields.cmpLDisp16 d r).1
  | cmpLIndex d r => exact (Laws.Fields.cmpLIndex d r).1
  | cmpLAbsW d => exact (Laws.Fields.cmpLAbsW d).1
  | cmpLAbsL d => exact (Laws.Fields.cmpLAbsL d).1
  | cmpLImm d => exact (Laws.Fields.cmpLImm d).1

/-- Every meaning is one call of the execute port (10_state R36) with the instruction's opcode word. -/
theorem exec_eq_executePort (i : Instr) (s : State) : exec i s = (executePort (encodeWord i) s).toOutcome := by
  rw [executePort, formOf_encodeWord, exec_eq]

@[simp] theorem Result.toOutcome_next (s : State) : (Result.next s).toOutcome = .next s := rfl

@[simp] theorem Result.toOutcome_refused (r : Refusal) : (Result.refused r).toOutcome = .refused r := rfl

@[simp] theorem Result.toOutcome_fatal (r : FatalReason) (s : State) :
    (Result.fatal r s).toOutcome = .fault (.fatal r) := rfl

@[simp] theorem Result.toOutcome_illegal (op : Word) (s : State) :
    (Result.illegal op s).toOutcome = .fault (.illegal op) := rfl

theorem Result.toOutcome_eq_next {r : Result} {t : State} (h : r.toOutcome = .next t) : r = .next t := by
  cases r <;> simp_all [Result.toOutcome]

/-! ## The loop -/

theorem untilConsumed_succ (op : Word) (f : Form) (k : Nat) (s : State) :
    untilConsumed op f (k + 1) s =
      match microStep op f s with
      | .again s1 => untilConsumed op f k s1
      | .consumed s1 => .next s1
      | .fatal r s1 => .fatal r s1
      | .refused r => .refused r := rfl

/-- State `PREFETCH` consumes time at once. -/
theorem untilConsumed_prefetch (op : Word) (f : Form) (k : Nat) (s : State) (h : s.marker = .prefetch) :
    untilConsumed op f (k + 1) s = .next { (s.charge s.config.cost.instr).completionPrefetch with
      marker := if f.size = some .l then .long else .finished } := by
  simp only [untilConsumed_succ, microStep, h, microPrefetch]

/-- State `LONG` consumes time at once. -/
theorem untilConsumed_long (op : Word) (f : Form) (k : Nat) (s : State) (h : s.marker = .long) :
    untilConsumed op f (k + 1) s = .next { s.charge s.config.cost.long with marker := .finished } := by
  simp only [untilConsumed_succ, microStep, h, microLong]

/-- State `READ` either consumes time or resolves and chains into `PREFETCH` (43 R163). -/
theorem untilConsumed_read (op : Word) (f : Form) (k : Nat) (s : State) (h : s.marker = .read) :
    untilConsumed op f (k + 2) s =
      match f.size with
      | none => .fatal .badSizeField (s.raiseFatal .badSizeField)
      | some sz =>
        match eaPoll s with
        | .refused r => .refused r
        | .unresolved s1 => .next (s1.charge s.config.cost.readWait)
        | .done v s1 => .next { ((s1.setFlagsCompare sz f.dreg v).charge s1.config.cost.instr).completionPrefetch with
            marker := if f.size = some .l then .long else .finished } := by
  rw [untilConsumed_succ, microStep, h]
  cases hs : f.size with
  | none => simp only [microRead, hs]
  | some sz =>
    cases hp : eaPoll s with
    | refused r => simp only [microRead, hs, hp]
    | unresolved s1 => simp only [microRead, hs, hp]
    | done v s1 =>
      simp only [microRead, hs, hp]
      rw [untilConsumed_prefetch _ _ _ _ rfl, hs]
      rfl

/-- State `NONE` begins the operand fetch and chains into `READ` (43 R162). -/
theorem untilConsumed_none (op : Word) (f : Form) (k : Nat) (s : State) (h : s.marker = .none) :
    untilConsumed op f (k + 3) s =
      match eaBeginRead f s with
      | .begun s1 => untilConsumed op f 2 { s1 with marker := .read, opcode := some op }
      | .fatal r s1 => .fatal r s1
      | .refused r => .refused r := by
  rw [untilConsumed_succ, microStep, h]
  cases hb : eaBeginRead f s with
  | begun s1 =>
    simp only [microNone, hb]
    rw [untilConsumed_read _ _ _ _ rfl, untilConsumed_read op f 0 _ rfl]
  | fatal r s1 => simp only [microNone, hb]
  | refused r => simp only [microNone, hb]

/-- At most three micro-steps chain, so more fuel than three changes no tick (43 R161). -/
theorem untilConsumed_enough (op : Word) (f : Form) (k : Nat) (s : State) :
    untilConsumed op f (k + 3) s = untilConsumed op f 3 s := by
  cases h : s.marker with
  | none => rw [untilConsumed_none _ _ _ _ h, untilConsumed_none op f 0 _ h]
  | read => rw [untilConsumed_read _ _ (k + 1) _ h, untilConsumed_read op f 1 _ h]
  | prefetch => rw [untilConsumed_prefetch _ _ (k + 2) _ h, untilConsumed_prefetch op f 2 _ h]
  | long => rw [untilConsumed_long _ _ (k + 2) _ h, untilConsumed_long op f 2 _ h]
  | finished => simp only [untilConsumed_succ, microStep, h]
  | bad4 => simp only [untilConsumed_succ, microStep, h]
  | bad5 => simp only [untilConsumed_succ, microStep, h]
  | bad6 => simp only [untilConsumed_succ, microStep, h]

/-! ## The tick of a dispatched instruction, by the marker -/

/-- What a tick in state `READ` of the instruction answers (43 R163, R164). -/
def readTick (i : Instr) (s : State) : Result :=
  match eaPoll s with
  | .refused r => .refused r
  | .unresolved s1 => .next (s1.charge s.config.cost.readWait)
  | .done v s1 => .next { ((s1.setFlagsCompare i.size i.dreg v).charge s1.config.cost.instr).completionPrefetch with
      marker := if i.size = .l then .long else .finished }

/-- The state after `EaBeginRead` and `MARKER <- READ` of an instruction (43 R162). -/
def beginRead (i : Instr) (s : State) : State :=
  { s with marker := .read, opcode := some (encodeWord i),
           ea := { s.ea with active := true, mode := i.mode, reg := i.reg, size := i.size, step := 0 } }

@[simp] theorem beginRead_memReadWord (i : Instr) (s : State) (a : Long) :
    (beginRead i s).memReadWord a = s.memReadWord a := rfl

@[simp] theorem beginRead_memReadByte (i : Instr) (s : State) (a : Long) :
    (beginRead i s).memReadByte a = s.memReadByte a := rfl

@[simp] theorem beginRead_readA (i : Instr) (s : State) (j : RegNum) : (beginRead i s).readA j = s.readA j := rfl

@[simp] theorem beginRead_readD (i : Instr) (s : State) (j : RegNum) : (beginRead i s).readD j = s.readD j := rfl

@[simp] theorem beginRead_pc (i : Instr) (s : State) : (beginRead i s).pc = s.pc := rfl

@[simp] theorem beginRead_config (i : Instr) (s : State) : (beginRead i s).config = s.config := rfl

@[simp] theorem beginRead_ea (i : Instr) (s : State) : (beginRead i s).ea =
    { s.ea with active := true, mode := i.mode, reg := i.reg, size := i.size, step := 0 } := rfl

theorem eaBeginRead_form (i : Instr) (s : State) (h : s.ea.active = false) :
    eaBeginRead i.form s = .begun { s with ea := { s.ea with active := true, mode := i.mode, reg := i.reg,
                                                              size := i.size, step := 0 } } := by
  simp [eaBeginRead, h, Instr.not_areg_byte]

/-- What a tick of a dispatched instruction answers, by the marker (43 R161): the tick function with its loop
unrolled. -/
def dispatchedTick (i : Instr) (s : State) : Result :=
  match s.marker with
  | .none => if s.ea.active then .refused .eaBusy else readTick i (beginRead i s)
  | .read => if s.opcode = some (encodeWord i) then readTick i s else .refused .opcodeChanged
  | .prefetch =>
    if s.opcode = some (encodeWord i) then
      .next { (s.charge s.config.cost.instr).completionPrefetch with
        marker := if i.size = .l then .long else .finished }
    else .refused .opcodeChanged
  | .long =>
    if s.opcode = some (encodeWord i) then .next { s.charge s.config.cost.long with marker := .finished }
    else .refused .opcodeChanged
  | .finished => .next s
  | .bad4 => .refused .badMarker
  | .bad5 => .refused .badMarker
  | .bad6 => .refused .badMarker

theorem exec_dispatched (i : Instr) (s : State) (hd : Dispatched i s) :
    exec i s = (dispatchedTick i s).toOutcome := by
  rw [exec_eq, compareTick, dispatchedTick]
  simp only [hd.1, hd.2, Bool.false_eq_true, if_false]
  cases hm : s.marker with
  | none =>
    simp only []
    rw [untilConsumed_none _ _ 0 _ hm]
    cases ha : s.ea.active with
    | true => simp [eaBeginRead, ha]
    | false =>
      rw [eaBeginRead_form i s ha]
      simp only []
      rw [untilConsumed_read _ _ 0 _ rfl]
      simp [readTick, beginRead]
  | read =>
    simp only []
    rw [untilConsumed_read _ _ 1 _ hm]
    simp [readTick]
  | prefetch => simp only [untilConsumed_prefetch _ _ 2 _ hm, Instr.form_size, Option.some.injEq]
  | long => simp only [untilConsumed_long _ _ 2 _ hm]
  | finished => rfl
  | bad4 => rfl
  | bad5 => rfl
  | bad6 => rfl

/-- An instruction that is not dispatched answers no next state (70 R261, R267). -/
theorem dispatched_of_exec_next {i : Instr} {s t : State} (h : exec i s = .next t) : Dispatched i s := by
  rw [exec_eq] at h
  have h' := Result.toOutcome_eq_next h
  unfold compareTick at h'
  constructor
  · cases hf : s.fatal <;> simp_all
  · cases he : s.execAt (encodeWord i) <;> cases hf : s.fatal <;> simp_all

/-- The one inversion of a tick: an instruction that answers a next state was dispatched, and did so in exactly one of
the five ways of the state machine (43 R161). -/
theorem exec_next_cases {i : Instr} {s t : State} (h : exec i s = .next t) :
    Dispatched i s ∧
      ((s.marker = .none ∧ s.ea.active = false ∧ readTick i (beginRead i s) = .next t) ∨
        (s.marker = .read ∧ s.opcode = some (encodeWord i) ∧ readTick i s = .next t) ∨
        (s.marker = .prefetch ∧ s.opcode = some (encodeWord i) ∧
          t = { (s.charge s.config.cost.instr).completionPrefetch with
            marker := if i.size = .l then .long else .finished }) ∨
        (s.marker = .long ∧ s.opcode = some (encodeWord i) ∧
          t = { s.charge s.config.cost.long with marker := .finished }) ∨
        (s.marker = .finished ∧ t = s)) := by
  have hd := dispatched_of_exec_next h
  refine ⟨hd, ?_⟩
  rw [exec_dispatched i s hd] at h
  have h' := Result.toOutcome_eq_next h
  unfold dispatchedTick at h'
  cases hm : s.marker <;> simp only [hm] at h' <;> (try split at h') <;> simp_all

end Sys2Proof.Machine
end

