-- ==== Sys2Proof/Laws/Operands.lean ====
section
/-! SUPPORT. What the operations of the EA Resolver can do: each bus access, each data read, and one inversion lemma
for the steps of all modes. -/

namespace Sys2Proof.Machine

theorem isOdd_iff (a : Long) : isOdd a = true ↔ a.toNat % 2 = 1 := by
  simp [isOdd, BitVec.getLsbD, Nat.testBit_zero]

theorem isOdd_add_two (a : Long) : isOdd (a + 2) = isOdd a := by
  rw [Bool.eq_iff_iff, isOdd_iff, isOdd_iff, BitVec.toNat_add]
  have : (2 : Long).toNat = 2 := rfl
  have := a.isLt
  omega

@[simp] theorem State.memReadByte_mem (s t : State) (h : t.mem = s.mem) (a : Long) :
    t.memReadByte a = s.memReadByte a := by simp [State.memReadByte, h]

theorem State.memReadWord_mem (s t : State) (h : t.mem = s.mem) (a : Long) :
    t.memReadWord a = s.memReadWord a := by simp [State.memReadWord, h]

theorem State.busReadWord_even (s : State) (t : Tag) (a : Long) (h : isOdd a = false) :
    s.busReadWord t a = .ok (s.memReadWord a, s.record t) := by simp [State.busReadWord, h]

theorem State.busReadWord_odd (s : State) (t : Tag) (a : Long) (h : isOdd a = true) :
    s.busReadWord t a = .error .oddWordAccess := by simp [State.busReadWord, h]

theorem State.fetchExt_even (s : State) (h : isOdd s.pc = false) :
    s.fetchExt = .ok (s.memReadWord s.pc, { s.record .prefetch with pc := s.pc + 2 }) := by
  simp [State.fetchExt, State.busReadWord_even s .prefetch s.pc h]

theorem State.fetchExt_odd (s : State) (h : isOdd s.pc = true) : s.fetchExt = .error .oddWordAccess := by
  simp [State.fetchExt, State.busReadWord_odd s .prefetch s.pc h]

theorem Long.zero_or (x : Long) : 0 ||| x = x := BitVec.zero_or

theorem readDataHigh_even (s : State) (low : Long) (h : isOdd s.ea.addr = false) :
    readDataHigh s low =
      .ok ((s.record .readW).setEaValue (low ||| (zext16 (s.memReadWord s.ea.addr) <<< 16))) := by
  rw [readDataHigh, State.busReadWord_even s .readW _ h]

theorem readDataHigh_odd (s : State) (low : Long) (h : isOdd s.ea.addr = true) :
    readDataHigh s low = .error .oddWordAccess := by
  rw [readDataHigh, State.busReadWord_odd s .readW _ h]

theorem readDataLow_even (s : State) (high : Long) (h : isOdd s.ea.addr = false) :
    readDataLow s high =
      .ok ((s.record .readW).setEaValue (high ||| zext16 (s.memReadWord (s.ea.addr + 2)))) := by
  rw [readDataLow, State.busReadWord_even s .readW _ (by rw [isOdd_add_two, h])]

theorem readDataLow_odd (s : State) (high : Long) (h : isOdd s.ea.addr = true) :
    readDataLow s high = .error .oddWordAccess := by
  rw [readDataLow, State.busReadWord_odd s .readW _ (by rw [isOdd_add_two, h])]

/-- The first data read at an accessible address (20_memory R53, R54). -/
theorem dataReadFirst_ok (sz : Size) (s : State) (h : Accessible sz s.ea.addr) :
    dataReadFirst sz s = .ok ((s.record (dataTag sz)).setEaValue (firstRead sz s s.ea.addr)) := by
  cases sz with
  | b => rfl
  | w =>
    have h' : isOdd s.ea.addr = false := by simpa [Accessible] using h
    simp [dataReadFirst, readDataWord, State.busReadWord_even s .readW _ h', firstRead, dataTag]
  | l =>
    have h' : isOdd s.ea.addr = false := by simpa [Accessible] using h
    cases hc : s.config.longHighFirst <;>
      simp only [dataReadFirst, hc, if_true, Bool.false_eq_true, if_false, readDataHigh_even s 0 h',
        readDataLow_even s 0 h', firstRead, dataTag, Long.zero_or]

/-- The first data read of a word or long-word at an odd address (20_memory R55). -/
theorem dataReadFirst_odd (sz : Size) (s : State) (h : ¬Accessible sz s.ea.addr) :
    dataReadFirst sz s = .error .oddWordAccess := by
  have h' : isOdd s.ea.addr = true := by
    cases ho : isOdd s.ea.addr with
    | false => exact absurd (.inr ho) h
    | true => rfl
  cases sz with
  | b => exact absurd (.inl rfl) h
  | w => simp [dataReadFirst, readDataWord, State.busReadWord_odd s .readW _ h']
  | l => simp [dataReadFirst, readDataHigh_odd s _ h', readDataLow_odd s _ h']

/-- The second word read at an even address (20_memory R54). -/
theorem dataReadSecond_ok (s : State) (h : isOdd s.ea.addr = false) :
    dataReadSecond s = .ok ((s.record .readW).setEaValue (s.ea.value ||| secondRead s s.ea.addr)) := by
  cases hc : s.config.longHighFirst <;>
    simp only [dataReadSecond, hc, if_true, Bool.false_eq_true, if_false, readDataHigh_even s _ h,
      readDataLow_even s _ h, secondRead]

theorem dataReadSecond_odd (s : State) (h : isOdd s.ea.addr = true) :
    dataReadSecond s = .error .oddWordAccess := by
  simp [dataReadSecond, readDataHigh_odd s _ h, readDataLow_odd s _ h]

/-! ## Every step in closed form -/

/-- What a step that reads memory first at `a` leaves. -/
def afterFirstRead (sz : Size) (a : Long) (s : State) : State :=
  ((s.setEaAddr a).record (dataTag sz)).setEaValue (firstRead sz s a)

/-- What the second word read leaves. -/
def afterSecondRead (s : State) : State := (s.record .readW).setEaValue (s.ea.value ||| secondRead s s.ea.addr)

/-- What an extension-word fetch leaves. -/
def afterFetch (s : State) : State := { s.record .prefetch with pc := s.pc + 2 }

/-- The state after step `k + 1` of a mode and size, when it is not refused (40 R103 to R112). -/
def stepState (m : Mode) (sz : Size) (k : Nat) (s : State) : State :=
  match m, k with
  | .dreg, _ => s
  | .areg, _ => s
  | .ind, 0 => afterFirstRead sz (s.readA s.ea.reg) s
  | .ind, _ => afterSecondRead s
  | .postinc, 0 =>
    if sz = .l then afterFirstRead sz (s.readA s.ea.reg) s
    else (afterFirstRead sz (s.readA s.ea.reg) s).writeA s.ea.reg (s.readA s.ea.reg + inc s.config sz s.ea.reg)
  | .postinc, _ => (afterSecondRead s).writeA s.ea.reg (s.readA s.ea.reg + inc s.config sz s.ea.reg)
  | .predec, 0 => s.decrement sz
  | .predec, 1 => afterFirstRead sz s.ea.addr s
  | .predec, _ => afterSecondRead s
  | .disp16, 0 => (afterFetch s).setEaAddr (s.readA s.ea.reg + sext16 (s.memReadWord s.pc))
  | .disp16, 1 => afterFirstRead sz s.ea.addr s
  | .disp16, _ => afterSecondRead s
  | .index, 0 => s.record .idleN
  | .index, 1 => (afterFetch s).setEaAddr (indexAddress s s.ea.reg (indexWordOf (s.memReadWord s.pc)))
  | .index, 2 => afterFirstRead sz s.ea.addr s
  | .index, _ => afterSecondRead s
  | .absW, 0 => (afterFetch s).setEaAddr (sext16 (s.memReadWord s.pc))
  | .absW, 1 => afterFirstRead sz s.ea.addr s
  | .absW, _ => afterSecondRead s
  | .absL, 0 => (afterFetch s).setEaAddr (zext16 (s.memReadWord s.pc) <<< 16)
  | .absL, 1 => (afterFetch s).setEaAddr (s.ea.addr ||| zext16 (s.memReadWord s.pc))
  | .absL, 2 => afterFirstRead sz s.ea.addr s
  | .absL, _ => afterSecondRead s
  | .imm, 0 => (afterFetch s).setEaValue (immediateFirst sz (s.memReadWord s.pc))
  | .imm, _ => (afterFetch s).setEaValue (s.ea.value ||| zext16 (s.memReadWord s.pc))

/-- Whether step `k + 1` meets an odd word access (20_memory R55). -/
def stepOdd (m : Mode) (sz : Size) (k : Nat) (s : State) : Bool :=
  let firstOdd (a : Long) : Bool := !(sz == .b) && isOdd a
  match m, k with
  | .dreg, _ => false
  | .areg, _ => false
  | .ind, 0 => firstOdd (s.readA s.ea.reg)
  | .ind, _ => isOdd s.ea.addr
  | .postinc, 0 => firstOdd (s.readA s.ea.reg)
  | .postinc, _ => isOdd s.ea.addr
  | .predec, 0 => false
  | .predec, 1 => firstOdd s.ea.addr
  | .predec, _ => isOdd s.ea.addr
  | .disp16, 0 => isOdd s.pc
  | .disp16, 1 => firstOdd s.ea.addr
  | .disp16, _ => isOdd s.ea.addr
  | .index, 0 => false
  | .index, 1 => isOdd s.pc
  | .index, 2 => firstOdd s.ea.addr
  | .index, _ => isOdd s.ea.addr
  | .absW, 0 => isOdd s.pc
  | .absW, 1 => firstOdd s.ea.addr
  | .absW, _ => isOdd s.ea.addr
  | .absL, 0 => isOdd s.pc
  | .absL, 1 => isOdd s.pc
  | .absL, 2 => firstOdd s.ea.addr
  | .absL, _ => isOdd s.ea.addr
  | .imm, _ => isOdd s.pc

theorem dataReadFirst_at (sz : Size) (a : Long) (s : State) :
    dataReadFirst sz (s.setEaAddr a) =
      if (!(sz == .b) && isOdd a) = true then .error .oddWordAccess else .ok (afterFirstRead sz a s) := by
  by_cases h : Accessible sz a
  · have e : (!(sz == Size.b) && isOdd a) = false := by
      rcases h with h | h
      · simp [h]
      · simp [h]
    simp only [e, Bool.false_eq_true, if_false]
    exact dataReadFirst_ok sz (s.setEaAddr a) h
  · have e : (!(sz == Size.b) && isOdd a) = true := by
      simp only [Accessible, not_or, Bool.not_eq_false] at h
      simp [h.1, h.2]
    simp only [e, if_true]
    exact dataReadFirst_odd sz (s.setEaAddr a) h

theorem dataReadFirst_here (sz : Size) (s : State) :
    dataReadFirst sz s =
      if (!(sz == .b) && isOdd s.ea.addr) = true then .error .oddWordAccess
      else .ok (afterFirstRead sz s.ea.addr s) :=
  dataReadFirst_at sz s.ea.addr s

theorem dataReadSecond_eq (s : State) :
    dataReadSecond s = if isOdd s.ea.addr = true then .error .oddWordAccess else .ok (afterSecondRead s) := by
  cases h : isOdd s.ea.addr with
  | false => simp only [Bool.false_eq_true, if_false]; exact dataReadSecond_ok s h
  | true => simp only [if_true]; exact dataReadSecond_odd s h

theorem fetchExt_eq (s : State) :
    s.fetchExt = if isOdd s.pc = true then .error .oddWordAccess else .ok (s.memReadWord s.pc, afterFetch s) := by
  cases h : isOdd s.pc with
  | false => simp only [Bool.false_eq_true, if_false]; exact s.fetchExt_even h
  | true => simp only [if_true]; exact s.fetchExt_odd h

/-- Every step in closed form: refused exactly on an odd access, and otherwise the state that the rule of its mode
gives. -/
theorem eaStep_eq (m : Mode) (sz : Size) (k : Nat) (s : State) :
    eaStep m sz k s = if stepOdd m sz k s = true then .error .oddWordAccess else .ok (stepState m sz k s) := by
  have hf := fetchExt_eq s
  have hs := dataReadSecond_eq s
  have h1 := dataReadFirst_here sz s
  have ha := dataReadFirst_at sz (s.readA s.ea.reg) s
  have clean : ∀ (b : Bool) (x : State),
      (match (if b = true then .error .oddWordAccess else .ok x : Except Refusal State) with
        | .error r => .error r
        | .ok s1 => .ok (s1.increment sz) : Except Refusal State) =
      if b = true then .error .oddWordAccess else .ok (x.increment sz) := by
    intro b x; cases b <;> rfl
  cases m with
  | dreg => rfl
  | areg => rfl
  | ind =>
    rcases k with _ | k
    · exact ha
    · exact hs
  | postinc =>
    rcases k with _ | k
    · by_cases hl : sz = .l
      · subst hl
        simp only [eaStep, stepPostinc, ha, stepOdd, stepState, if_true]
        cases hodd : (!(Size.l == Size.b) && isOdd (s.readA s.ea.reg)) <;> rfl
      · simp only [eaStep, stepPostinc, ha, stepOdd, stepState, hl, if_false]
        exact clean _ _
    · simp only [eaStep, stepPostinc, hs, stepOdd, stepState]
      exact clean _ _
  | predec =>
    rcases k with _ | _ | k
    · rfl
    · exact h1
    · exact hs
  | disp16 =>
    rcases k with _ | _ | k
    · simp only [eaStep, stepDisp16, hf, stepOdd, stepState]
      cases isOdd s.pc <;> rfl
    · exact h1
    · exact hs
  | index =>
    rcases k with _ | _ | _ | k
    · rfl
    · simp only [eaStep, stepIndex, hf, stepOdd, stepState]
      cases isOdd s.pc <;> rfl
    · exact h1
    · exact hs
  | absW =>
    rcases k with _ | _ | k
    · simp only [eaStep, stepAbsW, hf, stepOdd, stepState]
      cases isOdd s.pc <;> rfl
    · exact h1
    · exact hs
  | absL =>
    rcases k with _ | _ | _ | k
    · simp only [eaStep, stepAbsL, hf, stepOdd, stepState]
      cases isOdd s.pc <;> rfl
    · simp only [eaStep, stepAbsL, hf, stepOdd, stepState]
      cases isOdd s.pc <;> rfl
    · exact h1
    · exact hs
  | imm =>
    rcases k with _ | k
    · simp only [eaStep, stepImm, hf, stepOdd, stepState]
      cases isOdd s.pc <;> rfl
    · simp only [eaStep, stepImm, hf, stepOdd, stepState]
      cases isOdd s.pc <;> rfl

/-! ## What the closed form changes -/

/-- Everything a step of an operand fetch may change: `A[reg]` in two modes, `pc` in the modes with extension words,
the latched address and value, and the ledger by one tag (40 R119). -/
structure StepEffect (m : Mode) (sz : Size) (tag : Tag) (s t : State) : Prop where
  state : t = { s with
    a := t.a, pc := t.pc, ea := { s.ea with addr := t.ea.addr, value := t.ea.value },
    ledger := { cycles := s.ledger.cycles + Tag.cost s.config.cost tag, log := s.ledger.log ++ [tag] } }
  others : ∀ j, j ≠ s.ea.reg → t.readA j = s.readA j
  registers : m ≠ .postinc → m ≠ .predec → t.a = s.a
  counter : t.pc = s.pc ∨ (t.pc = s.pc + 2 ∧ 0 < extWords m sz)

theorem readA_writeA_other (s : State) (i j : RegNum) (x : Long) (h : j ≠ i) : (s.writeA i x).readA j = s.readA j := by
  have : (i : Nat) ≠ j := fun e => h (Fin.ext e.symm)
  simp [State.readA, this]

theorem StepEffect.of_same (m : Mode) (sz : Size) (tag : Tag) (s t : State)
    (h : t = { s with
      a := t.a, pc := t.pc, ea := { s.ea with addr := t.ea.addr, value := t.ea.value },
      ledger := { cycles := s.ledger.cycles + Tag.cost s.config.cost tag, log := s.ledger.log ++ [tag] } })
    (ha : t.a = s.a) (hp : t.pc = s.pc ∨ (t.pc = s.pc + 2 ∧ 0 < extWords m sz)) : StepEffect m sz tag s t :=
  ⟨h, fun j _ => by simp [State.readA, ha], fun _ _ => ha, hp⟩

theorem nSteps_le_four (m : Mode) (sz : Size) : nSteps m sz ≤ 4 := by cases m <;> cases sz <;> decide

theorem StepEffect.of_fetch_value (m : Mode) (sz : Size) (s : State) (v : Long) (h : 0 < extWords m sz) :
    StepEffect m sz .prefetch s ((afterFetch s).setEaValue v) :=
  .of_same _ _ _ _ _ rfl rfl (.inr ⟨rfl, h⟩)

theorem StepEffect.of_fetch_addr (m : Mode) (sz : Size) (s : State) (x : Long) (h : 0 < extWords m sz) :
    StepEffect m sz .prefetch s ((afterFetch s).setEaAddr x) :=
  .of_same _ _ _ _ _ rfl rfl (.inr ⟨rfl, h⟩)

/-- A step that the table has records the table's tag and changes only what `StepEffect` lists. -/
def StepHasEffect (m : Mode) (sz : Size) (k : Nat) (s : State) : Prop :=
  ∃ tag, (fetchTags m sz)[k]? = some tag ∧ StepEffect m sz tag s (stepState m sz k s)

theorem first_step_effect (m : Mode) (sz : Size) (s : State) (hk : 0 < nSteps m sz) : StepHasEffect m sz 0 s := by
  cases m with
  | dreg => cases sz <;> exact absurd hk (by decide)
  | areg => cases sz <;> exact absurd hk (by decide)
  | ind =>
    cases sz with
    | b => exact ⟨_, rfl, .of_same _ _ _ _ _ rfl rfl (.inl rfl)⟩
    | w => exact ⟨_, rfl, .of_same _ _ _ _ _ rfl rfl (.inl rfl)⟩
    | l => exact ⟨_, rfl, .of_same _ _ _ _ _ rfl rfl (.inl rfl)⟩
  | postinc =>
    cases sz with
    | b => exact ⟨_, rfl, rfl, fun j hj => readA_writeA_other _ _ j _ hj, fun h => absurd rfl h, .inl rfl⟩
    | w => exact ⟨_, rfl, rfl, fun j hj => readA_writeA_other _ _ j _ hj, fun h => absurd rfl h, .inl rfl⟩
    | l => exact ⟨_, rfl, .of_same _ _ _ _ _ rfl rfl (.inl rfl)⟩
  | predec =>
    cases sz with
    | b => exact ⟨_, rfl, rfl, fun j hj => readA_writeA_other _ _ j _ hj, fun _ h => absurd rfl h, .inl rfl⟩
    | w => exact ⟨_, rfl, rfl, fun j hj => readA_writeA_other _ _ j _ hj, fun _ h => absurd rfl h, .inl rfl⟩
    | l => exact ⟨_, rfl, rfl, fun j hj => readA_writeA_other _ _ j _ hj, fun _ h => absurd rfl h, .inl rfl⟩
  | disp16 =>
    cases sz with
    | b => exact ⟨_, rfl, .of_fetch_addr _ _ _ _ (by decide)⟩
    | w => exact ⟨_, rfl, .of_fetch_addr _ _ _ _ (by decide)⟩
    | l => exact ⟨_, rfl, .of_fetch_addr _ _ _ _ (by decide)⟩
  | index =>
    cases sz with
    | b => exact ⟨_, rfl, .of_same _ _ _ _ _ rfl rfl (.inl rfl)⟩
    | w => exact ⟨_, rfl, .of_same _ _ _ _ _ rfl rfl (.inl rfl)⟩
    | l => exact ⟨_, rfl, .of_same _ _ _ _ _ rfl rfl (.inl rfl)⟩
  | absW =>
    cases sz with
    | b => exact ⟨_, rfl, .of_fetch_addr _ _ _ _ (by decide)⟩
    | w => exact ⟨_, rfl, .of_fetch_addr _ _ _ _ (by decide)⟩
    | l => exact ⟨_, rfl, .of_fetch_addr _ _ _ _ (by decide)⟩
  | absL =>
    cases sz with
    | b => exact ⟨_, rfl, .of_fetch_addr _ _ _ _ (by decide)⟩
    | w => exact ⟨_, rfl, .of_fetch_addr _ _ _ _ (by decide)⟩
    | l => exact ⟨_, rfl, .of_fetch_addr _ _ _ _ (by decide)⟩
  | imm =>
    cases sz with
    | b => exact ⟨_, rfl, .of_fetch_value _ _ _ _ (by decide)⟩
    | w => exact ⟨_, rfl, .of_fetch_value _ _ _ _ (by decide)⟩
    | l => exact ⟨_, rfl, .of_fetch_value _ _ _ _ (by decide)⟩

theorem second_step_effect (m : Mode) (sz : Size) (s : State) (hk : 1 < nSteps m sz) : StepHasEffect m sz 1 s := by
  cases m with
  | dreg => cases sz <;> exact absurd hk (by decide)
  | areg => cases sz <;> exact absurd hk (by decide)
  | ind =>
    cases sz with
    | b => exact absurd hk (by decide)
    | w => exact absurd hk (by decide)
    | l => exact ⟨_, rfl, .of_same _ _ _ _ _ rfl rfl (.inl rfl)⟩
  | postinc =>
    cases sz with
    | b => exact absurd hk (by decide)
    | w => exact absurd hk (by decide)
    | l => exact ⟨_, rfl, rfl, fun j hj => readA_writeA_other _ _ j _ hj, fun h => absurd rfl h, .inl rfl⟩
  | predec =>
    cases sz with
    | b => exact ⟨_, rfl, .of_same _ _ _ _ _ rfl rfl (.inl rfl)⟩
    | w => exact ⟨_, rfl, .of_same _ _ _ _ _ rfl rfl (.inl rfl)⟩
    | l => exact ⟨_, rfl, .of_same _ _ _ _ _ rfl rfl (.inl rfl)⟩
  | disp16 =>
    cases sz with
    | b => exact ⟨_, rfl, .of_same _ _ _ _ _ rfl rfl (.inl rfl)⟩
    | w => exact ⟨_, rfl, .of_same _ _ _ _ _ rfl rfl (.inl rfl)⟩
    | l => exact ⟨_, rfl, .of_same _ _ _ _ _ rfl rfl (.inl rfl)⟩
  | index =>
    cases sz with
    | b => exact ⟨_, rfl, .of_fetch_addr _ _ _ _ (by decide)⟩
    | w => exact ⟨_, rfl, .of_fetch_addr _ _ _ _ (by decide)⟩
    | l => exact ⟨_, rfl, .of_fetch_addr _ _ _ _ (by decide)⟩
  | absW =>
    cases sz with
    | b => exact ⟨_, rfl, .of_same _ _ _ _ _ rfl rfl (.inl rfl)⟩
    | w => exact ⟨_, rfl, .of_same _ _ _ _ _ rfl rfl (.inl rfl)⟩
    | l => exact ⟨_, rfl, .of_same _ _ _ _ _ rfl rfl (.inl rfl)⟩
  | absL =>
    cases sz with
    | b => exact ⟨_, rfl, .of_fetch_addr _ _ _ _ (by decide)⟩
    | w => exact ⟨_, rfl, .of_fetch_addr _ _ _ _ (by decide)⟩
    | l => exact ⟨_, rfl, .of_fetch_addr _ _ _ _ (by decide)⟩
  | imm =>
    cases sz with
    | b => exact absurd hk (by decide)
    | w => exact absurd hk (by decide)
    | l => exact ⟨_, rfl, .of_fetch_value _ _ _ _ (by decide)⟩

theorem third_step_effect (m : Mode) (sz : Size) (s : State) (hk : 2 < nSteps m sz) : StepHasEffect m sz 2 s := by
  cases m with
  | dreg => cases sz <;> exact absurd hk (by decide)
  | areg => cases sz <;> exact absurd hk (by decide)
  | ind => cases sz <;> exact absurd hk (by decide)
  | postinc => cases sz <;> exact absurd hk (by decide)
  | predec =>
    cases sz with
    | b => exact absurd hk (by decide)
    | w => exact absurd hk (by decide)
    | l => exact ⟨_, rfl, .of_same _ _ _ _ _ rfl rfl (.inl rfl)⟩
  | disp16 =>
    cases sz with
    | b => exact absurd hk (by decide)
    | w => exact absurd hk (by decide)
    | l => exact ⟨_, rfl, .of_same _ _ _ _ _ rfl rfl (.inl rfl)⟩
  | index =>
    cases sz with
    | b => exact ⟨_, rfl, .of_same _ _ _ _ _ rfl rfl (.inl rfl)⟩
    | w => exact ⟨_, rfl, .of_same _ _ _ _ _ rfl rfl (.inl rfl)⟩
    | l => exact ⟨_, rfl, .of_same _ _ _ _ _ rfl rfl (.inl rfl)⟩
  | absW =>
    cases sz with
    | b => exact absurd hk (by decide)
    | w => exact absurd hk (by decide)
    | l => exact ⟨_, rfl, .of_same _ _ _ _ _ rfl rfl (.inl rfl)⟩
  | absL =>
    cases sz with
    | b => exact ⟨_, rfl, .of_same _ _ _ _ _ rfl rfl (.inl rfl)⟩
    | w => exact ⟨_, rfl, .of_same _ _ _ _ _ rfl rfl (.inl rfl)⟩
    | l => exact ⟨_, rfl, .of_same _ _ _ _ _ rfl rfl (.inl rfl)⟩
  | imm => cases sz <;> exact absurd hk (by decide)

theorem fourth_step_effect (m : Mode) (sz : Size) (s : State) (hk : 3 < nSteps m sz) : StepHasEffect m sz 3 s := by
  cases m with
  | dreg => cases sz <;> exact absurd hk (by decide)
  | areg => cases sz <;> exact absurd hk (by decide)
  | ind => cases sz <;> exact absurd hk (by decide)
  | postinc => cases sz <;> exact absurd hk (by decide)
  | predec => cases sz <;> exact absurd hk (by decide)
  | disp16 => cases sz <;> exact absurd hk (by decide)
  | index =>
    cases sz with
    | b => exact absurd hk (by decide)
    | w => exact absurd hk (by decide)
    | l => exact ⟨_, rfl, .of_same _ _ _ _ _ rfl rfl (.inl rfl)⟩
  | absW => cases sz <;> exact absurd hk (by decide)
  | absL =>
    cases sz with
    | b => exact absurd hk (by decide)
    | w => exact absurd hk (by decide)
    | l => exact ⟨_, rfl, .of_same _ _ _ _ _ rfl rfl (.inl rfl)⟩
  | imm => cases sz <;> exact absurd hk (by decide)

theorem stepState_effect (m : Mode) (sz : Size) (k : Nat) (s : State) (hk : k < nSteps m sz) :
    StepHasEffect m sz k s := by
  have h4 := nSteps_le_four m sz
  obtain rfl | rfl | rfl | rfl : k = 0 ∨ k = 1 ∨ k = 2 ∨ k = 3 := by omega
  · exact first_step_effect m sz s hk
  · exact second_step_effect m sz s hk
  · exact third_step_effect m sz s hk
  · exact fourth_step_effect m sz s hk

/-! ## A poll and a tick in state `READ`, in closed form -/

/-- What a step and its poll leave: the step's state, with one more step counted and the unresolved poll charged. -/
def afterPoll (m : Mode) (sz : Size) (k : Nat) (s : State) : State :=
  State.charge
    { stepState m sz k s with ea := { (stepState m sz k s).ea with step := s.ea.step + 1 } }
    s.config.cost.readWait

/-- A poll with a step left performs it (40 R101). -/
theorem eaPoll_step (s : State) (ha : s.ea.active = true) (hk : s.ea.step.toNat < nSteps s.ea.mode s.ea.size) :
    eaPoll s =
      if stepOdd s.ea.mode s.ea.size s.ea.step.toNat s = true then .refused .oddWordAccess
      else .unresolved
        { stepState s.ea.mode s.ea.size s.ea.step.toNat s with
          ea := { (stepState s.ea.mode s.ea.size s.ea.step.toNat s).ea with step := s.ea.step + 1 } } := by
  rw [eaPoll, if_pos ha, if_pos hk, eaStep_eq]
  cases stepOdd s.ea.mode s.ea.size s.ea.step.toNat s <;> rfl

/-- A poll with no step left reports done (40 R101). -/
theorem eaPoll_done (s : State) (ha : s.ea.active = true) (hk : nSteps s.ea.mode s.ea.size ≤ s.ea.step.toNat) :
    eaPoll s = .done (eaResult s) { s with ea := { s.ea with active := false } } := by
  rw [eaPoll, if_pos ha, if_neg (by omega)]

theorem stepState_config (m : Mode) (sz : Size) (k : Nat) (s : State) (hk : k < nSteps m sz) :
    (stepState m sz k s).config = s.config := by
  obtain ⟨tag, -, h⟩ := stepState_effect m sz k s hk
  rw [h.state]

/-- A tick in state `READ` with a step left (43 R163). -/
theorem readTick_step (i : Instr) (s : State) (ha : s.ea.active = true)
    (hk : s.ea.step.toNat < nSteps s.ea.mode s.ea.size) :
    readTick i s =
      if stepOdd s.ea.mode s.ea.size s.ea.step.toNat s = true then .refused .oddWordAccess
      else .next (afterPoll s.ea.mode s.ea.size s.ea.step.toNat s) := by
  have hc := stepState_config _ _ _ s hk
  rw [readTick, eaPoll_step s ha hk]
  cases stepOdd s.ea.mode s.ea.size s.ea.step.toNat s with
  | true => rfl
  | false => simp only [Bool.false_eq_true, if_false, afterPoll, hc]

/-- The state in which a resolved tick ends (43 R163, R164). -/
def afterResolve (i : Instr) (v : Long) (s : State) : State :=
  { s with
    flags := compareFlags (sub i.size (s.readD i.dreg) v)
    marker := if i.size = .l then .long else .finished
    ea := { s.ea with active := false }
    ledger := s.ledger.plus (s.config.cost.instr + s.config.cost.prefetch) [.prefetch] }

/-- A tick in state `READ` with no step left (43 R163). -/
theorem readTick_done (i : Instr) (s : State) (ha : s.ea.active = true)
    (hk : nSteps s.ea.mode s.ea.size ≤ s.ea.step.toNat) :
    readTick i s = .next (afterResolve i (eaResult s) s) := by
  rw [readTick, eaPoll_done s ha hk]
  simp [afterResolve, Ledger.plus, State.setFlagsCompare, State.charge, State.completionPrefetch, State.record,
    State.readD, Tag.cost, Nat.add_assoc]

/-- The first tick of an instruction (43 R162). -/
theorem exec_ready (i : Instr) (s : State) (h : Ready i s) : exec i s = (readTick i (beginRead i s)).toOutcome := by
  rw [exec_dispatched i s h.1, dispatchedTick, h.2.1]
  simp only [h.2.2, Bool.false_eq_true, if_false]

/-- A later tick of the operand fetch (43 R163). -/
theorem exec_fetching (i : Instr) (s : State) (h : Fetching i s) : exec i s = (readTick i s).toOutcome := by
  rw [exec_dispatched i s h.1, dispatchedTick, h.2.1]
  simp only [h.2.2.1, if_true]

/-- A first tick that performs a step. -/
theorem exec_ready_step (i : Instr) (s : State) (h : Ready i s) (hk : 0 < nSteps i.mode i.size) :
    exec i s =
      if stepOdd i.mode i.size 0 (beginRead i s) = true then .refused .oddWordAccess
      else .next (afterPoll i.mode i.size 0 (beginRead i s)) := by
  have e : readTick i (beginRead i s) =
      if stepOdd i.mode i.size 0 (beginRead i s) = true then .refused .oddWordAccess
      else .next (afterPoll i.mode i.size 0 (beginRead i s)) := readTick_step i (beginRead i s) rfl hk
  rw [exec_ready i s h, e]
  cases stepOdd i.mode i.size 0 (beginRead i s) <;> rfl

/-- A first tick of a register-direct instruction. -/
theorem exec_ready_done (i : Instr) (s : State) (h : Ready i s) (hk : nSteps i.mode i.size = 0) :
    exec i s = .next (afterResolve i (eaResult (beginRead i s)) (beginRead i s)) := by
  rw [exec_ready i s h, readTick_done i (beginRead i s) rfl (by simp [beginRead, hk])]
  rfl

/-- A later tick that performs a step. -/
theorem exec_fetching_step (i : Instr) (s : State) (h : Fetching i s) (hk : s.ea.step.toNat < nSteps i.mode i.size) :
    exec i s =
      if stepOdd i.mode i.size s.ea.step.toNat s = true then .refused .oddWordAccess
      else .next (afterPoll i.mode i.size s.ea.step.toNat s) := by
  obtain ⟨_, _, _, ha, hm, _, hz, _⟩ := id h
  rw [exec_fetching i s h, readTick_step i s ha (by rw [hm, hz]; exact hk), hm, hz]
  cases stepOdd i.mode i.size s.ea.step.toNat s <;> rfl

/-- The tick after the last step. -/
theorem exec_fetching_done (i : Instr) (s : State) (h : Fetching i s) (hk : s.ea.step.toNat = nSteps i.mode i.size) :
    exec i s = .next (afterResolve i (eaResult s) s) := by
  obtain ⟨_, _, _, ha, hm, _, hz, _⟩ := id h
  rw [exec_fetching i s h, readTick_done i s ha (by rw [hm, hz]; omega)]
  rfl

end Sys2Proof.Machine
end

