-- ==== Sys2Proof/Laws/Bits.lean ====
section
/-! SUPPORT. Words, bytes and bit fields: extension and concatenation, and the opcode word as the join of its fields
(30_encoding R81). -/

namespace Sys2Proof.Machine

/-! ## Extension and concatenation -/

theorem zext16_shift_eq (w : Word) : zext16 w <<< 16 = w ++ 0#16 := by
  apply BitVec.eq_of_toNat_eq
  have e := BitVec.toNat_append w 0#16
  have := w.isLt
  simp only [zext16, BitVec.toNat_shiftLeft, BitVec.toNat_setWidth, Nat.shiftLeft_eq]
  refine Eq.trans ?_ e.symm
  rw [Nat.shiftLeft_eq]
  simp
  omega

theorem zext16_eq (w : Word) : zext16 w = 0#16 ++ w := by
  apply BitVec.eq_of_toNat_eq
  have e := BitVec.toNat_append 0#16 w
  have := w.isLt
  simp only [zext16, BitVec.toNat_setWidth]
  refine Eq.trans ?_ e.symm
  simp
  omega

theorem zext8_eq (v : Byte) : zext8 v = 0#24 ++ v := by
  apply BitVec.eq_of_toNat_eq
  have e := BitVec.toNat_append 0#24 v
  have := v.isLt
  simp only [zext8, BitVec.toNat_setWidth]
  refine Eq.trans ?_ e.symm
  simp
  omega

/-- A long-word put together high word first (20_memory R54). -/
theorem high_or_low (h l : Word) : (zext16 h <<< 16 ||| zext16 l : Long) = h ++ l := by
  apply BitVec.eq_of_getLsbD_eq
  intro k hk
  have e := BitVec.getLsbD_append (x := h) (y := l) (i := k)
  refine Eq.trans ?_ e.symm
  simp only [zext16, BitVec.getLsbD_or, BitVec.getLsbD_shiftLeft, BitVec.getLsbD_setWidth]
  by_cases h16 : k < 16
  · simp [h16]; omega
  · have e1 : l.getLsbD k = false := BitVec.getLsbD_of_ge _ _ (by omega)
    simp [h16, hk, e1]; omega

/-- A long-word put together low word first. -/
theorem low_or_high (h l : Word) : (zext16 l ||| zext16 h <<< 16 : Long) = h ++ l := by
  rw [BitVec.or_comm]; exact high_or_low h l

/-- A word is the join of its two bytes (20_memory R52). -/
theorem bytes_append (w : Word) : (w.extractLsb' 8 8 ++ w.extractLsb' 0 8 : Word) = w := by
  apply BitVec.eq_of_getLsbD_eq
  intro k hk
  rw [BitVec.getLsbD_append]
  simp [BitVec.getLsbD_extractLsb']
  split
  · rename_i h; simp [h]
  · have e : 8 + (k - 8) = k := by omega
    rw [e]; simp; intro _; omega

/-! ## The opcode word and its fields -/

theorem instrOfForm_form (i : Instr) : instrOfForm i.form = .ok i := by cases i <;> rfl

theorem class_and_dir_of_encodeWord (i : Instr) :
    classField (encodeWord i) = 0b1011#4 ∧ dirField (encodeWord i) = 0#1 := by
  have h : ∀ (sz : Size) (m : Mode) (d r : RegNum),
      classField (opcodeOf sz m d r) = 0b1011#4 ∧ dirField (opcodeOf sz m d r) = 0#1 := by
    intro sz m; cases sz <;> cases m <;> decide
  rw [encodeWord_eq]
  exact h _ _ _ _

/-- An instruction read from fields has those fields. -/
theorem form_of_instrOfForm {f : Form} {i : Instr} (h : instrOfForm f = .ok i) :
    f.size = some i.size ∧ f.mode = some i.mode ∧ f.dreg = i.dreg ∧ (f.regFits = true → f.reg = i.reg) := by
  obtain ⟨sz, m, d, r⟩ := f
  cases sz with
  | none => cases h
  | some sz =>
    cases m with
    | none => simp [instrOfForm] at h
    | some m =>
      cases sz <;> cases m <;> simp [instrOfForm] at h <;> subst h <;>
        simp [Instr.size, Instr.mode, Instr.dreg, Instr.reg, Instr.form, Form.regFits]

theorem eaField_mode (op : Word) : (eaField op).extractLsb' 3 3 = op.extractLsb' 3 3 := by
  apply BitVec.eq_of_getLsbD_eq
  intro k hk
  simp [eaField]

theorem eaField_reg (op : Word) : (eaField op).extractLsb' 0 3 = op.extractLsb' 0 3 := by
  apply BitVec.eq_of_getLsbD_eq
  intro k hk
  simp [eaField]

/-- The `reg` field of an opcode word fits the mode its `ea` names (30_encoding R83). -/
theorem regFits_formOf (op : Word) : (formOf op).regFits = true := by
  have h : ∀ ea : BitVec 6, (Form.mk none (modeOf ea) 0 (ea.extractLsb' 0 3).toFin).regFits = true := by decide
  have h' := h (eaField op)
  rw [eaField_reg] at h'
  exact h'

theorem sizeOfCode_eq_some {c : BitVec 2} {sz : Size} (h : sizeOfCode c = some sz) : c = BitVec.ofNat 2 sz.code := by
  revert c sz; decide

theorem modeOf_eq_some {ea : BitVec 6} {m : Mode} (h : modeOf ea = some m) :
    ea.extractLsb' 3 3 = BitVec.ofNat 3 m.code := by
  revert ea m; decide

/-- An opcode word is the join of its six fields (30_encoding R81). -/
theorem opcode_fields (op : Word) :
    op = (classField op).setWidth 16 <<< 12 ||| (op.extractLsb' 9 3).setWidth 16 <<< 9 |||
      (dirField op).setWidth 16 <<< 8 ||| (sizeField op).setWidth 16 <<< 6 |||
      ((eaField op).extractLsb' 3 3).setWidth 16 <<< 3 ||| (op.extractLsb' 0 3).setWidth 16 := by
  apply BitVec.eq_of_getLsbD_eq
  intro k hk
  simp [classField, dirField, sizeField, eaField]
  have h : k = 0 ∨ k = 1 ∨ k = 2 ∨ k = 3 ∨ k = 4 ∨ k = 5 ∨ k = 6 ∨ k = 7 ∨ k = 8 ∨ k = 9 ∨ k = 10 ∨ k = 11 ∨
      k = 12 ∨ k = 13 ∨ k = 14 ∨ k = 15 := by omega
  rcases h with h | h | h | h | h | h | h | h | h | h | h | h | h | h | h | h <;> subst h <;> simp

/-- The encoder joins the same fields. -/
theorem opcodeOf_fields : ∀ (sz : Size) (m : Mode) (d r : RegNum),
    (0b1011#4).setWidth 16 <<< 12 ||| (BitVec.ofFin d : BitVec 3).setWidth 16 <<< 9 ||| (0#1).setWidth 16 <<< 8 |||
      (BitVec.ofNat 2 sz.code).setWidth 16 <<< 6 ||| (BitVec.ofNat 3 m.code).setWidth 16 <<< 3 |||
      (BitVec.ofFin r : BitVec 3).setWidth 16 = opcodeOf sz m d r := by
  intro sz m; cases sz <;> cases m <;> decide

end Sys2Proof.Machine
end

