-- ==== Sys2Proof/Laws/Flags.lean ====
section
/-! SUPPORT. The subtraction and the flags over numbers: one lemma, `sub_facts`, says everything the subtraction
returns (42 R150), so that a statement about a flag becomes linear arithmetic. -/

namespace Sys2Proof.Machine

theorem two_pow_bits (sz : Size) : 2 ^ Size.bits sz ≤ 2 ^ 32 ∧ 2 ^ Size.bits sz = 2 * 2 ^ (Size.bits sz - 1) ∧
    0 < 2 ^ (Size.bits sz - 1) := by
  cases sz <;> simp [Size.bits]

theorem two_pow_bits_dvd (sz : Size) : 2 ^ Size.bits sz ∣ 2 ^ 32 := by
  cases sz <;> simp [Size.bits]

theorem mask_toNat (sz : Size) (v : Long) : (mask sz v).toNat = v.toNat % 2 ^ Size.bits sz := by
  rw [mask, BitVec.toNat_ofNat]
  apply Nat.mod_eq_of_lt
  have h := two_pow_bits sz
  have := Nat.mod_lt v.toNat (by omega : 0 < 2 ^ Size.bits sz)
  omega

theorem mask_lt (sz : Size) (v : Long) : (mask sz v).toNat < 2 ^ Size.bits sz := by
  rw [mask_toNat]
  exact Nat.mod_lt _ (by have := two_pow_bits sz; omega)

theorem mask_mask (sz : Size) (v : Long) : mask sz (mask sz v) = mask sz v := by
  apply BitVec.eq_of_toNat_eq
  rw [mask_toNat, mask_toNat, Nat.mod_mod]

theorem msb_mask (sz : Size) (v : Long) : msb sz (mask sz v) = msb sz v := by
  rw [msb, msb, BitVec.getLsbD, BitVec.getLsbD, mask_toNat, Nat.testBit_mod_two_pow]
  cases sz <;> simp [Size.bits]

/-- The sign bit at a width, as an order on the masked value. -/
theorem msb_iff (sz : Size) (v : Long) : msb sz v = true ↔ 2 ^ (Size.bits sz - 1) ≤ (mask sz v).toNat := by
  rw [← msb_mask, msb, BitVec.getLsbD, Nat.testBit_eq_decide_div_mod_eq]
  have := mask_lt sz v
  have h2 := two_pow_bits sz
  generalize (mask sz v).toNat = x at *
  rw [decide_eq_true_iff]
  generalize hN : 2 ^ (Size.bits sz - 1) = N at *
  have hx : x < 2 * N := by omega
  constructor
  · intro h
    by_contra hc
    rw [Nat.div_eq_of_lt (by omega)] at h; simp at h
  · intro h
    rw [Nat.div_eq_of_lt_le (m := x) (n := N) (k := 1) (by omega) (by omega)]

theorem sub_r_toNat (sz : Size) (dst src : Long) : (sub sz dst src).r.toNat =
    ((mask sz dst).toNat + (2 ^ Size.bits sz - (mask sz src).toNat)) % 2 ^ Size.bits sz := by
  simp only [sub]
  rw [mask_toNat]
  have h1 := mask_lt sz dst
  have h2 := mask_lt sz src
  have h3 := two_pow_bits sz
  rw [BitVec.toNat_sub, Nat.mod_mod_of_dvd _ (two_pow_bits_dvd sz)]
  generalize (mask sz dst).toNat = x at *
  generalize (mask sz src).toNat = y at *
  cases sz <;> simp [Size.bits] at * <;> omega

theorem sub_dm (sz : Size) (dst src : Long) : (sub sz dst src).dm = msb sz dst := msb_mask _ _

theorem sub_sm (sz : Size) (dst src : Long) : (sub sz dst src).sm = msb sz src := msb_mask _ _

theorem sub_rm (sz : Size) (dst src : Long) :
    (sub sz dst src).rm = true ↔ 2 ^ (Size.bits sz - 1) ≤ (sub sz dst src).r.toNat := by
  have h := msb_iff sz (mask sz dst - mask sz src)
  simp only [sub]
  rw [msb_mask]
  exact h

/-- Everything the subtraction returns, in numbers below `2 * N`, where `N` is half the modulus of the width. -/
theorem sub_facts (sz : Size) (dst src : Long) : ∃ N x y r : Nat,
    0 < N ∧ 2 ^ Size.bits sz = 2 * N ∧ 2 ^ (Size.bits sz - 1) = N ∧ x < 2 * N ∧ y < 2 * N ∧
    x = (mask sz dst).toNat ∧ y = (mask sz src).toNat ∧ r = (sub sz dst src).r.toNat ∧
    r = (if y ≤ x then x - y else x + 2 * N - y) ∧
    (sub sz dst src).dm = decide (N ≤ x) ∧ (sub sz dst src).sm = decide (N ≤ y) ∧
    (sub sz dst src).rm = decide (N ≤ r) := by
  have h3 := two_pow_bits sz
  refine ⟨_, _, _, _, h3.2.2, h3.2.1, rfl, h3.2.1 ▸ mask_lt sz dst, h3.2.1 ▸ mask_lt sz src, rfl, rfl, rfl, ?_, ?_, ?_,
    ?_⟩
  · have h1 := mask_lt sz dst
    have h2 := mask_lt sz src
    rw [sub_r_toNat]
    generalize (mask sz dst).toNat = x at *
    generalize (mask sz src).toNat = y at *
    rw [h3.2.1] at *
    generalize 2 ^ (Size.bits sz - 1) = N at *
    split
    · rw [show x + (2 * N - y) = (x - y) + 2 * N by omega, Nat.add_mod_right, Nat.mod_eq_of_lt (by omega)]
    · rw [Nat.mod_eq_of_lt (by omega)]; omega
  · rw [Bool.eq_iff_iff, sub_dm, msb_iff, decide_eq_true_iff]
  · rw [Bool.eq_iff_iff, sub_sm, msb_iff, decide_eq_true_iff]
  · rw [Bool.eq_iff_iff, sub_rm, decide_eq_true_iff]

end Sys2Proof.Machine
end

