-- ==== Sys2Proof/Laws/Tables.lean ====
section
/-! SUPPORT. The dispatch tables: what writing slots leaves, what the builder answers, and what it does not touch. -/

namespace Sys2Proof.Machine

/-! ## Writing slots -/

section
variable {β : Type} [DecidableEq β] {dflt h : β}

theorem writeSlots_wf {slots : List Nat} {t : List (Nat × β)} {hi : Nat} (hs : ∀ k ∈ slots, k < hi)
    (ht : Sparse.wf dflt hi t = true) : Sparse.wf dflt hi (writeSlots dflt h slots t) = true := by
  induction slots with
  | nil => exact ht
  | cons k slots ih =>
    exact Sparse.wf_write h _ (hs k (.head _)) (ih fun k' hk' => hs k' (.tail _ hk'))

/-- After writing slots, a listed slot reads the handler and any other slot what it read. -/
theorem writeSlots_read {slots : List Nat} {t : List (Nat × β)} {hi : Nat} (hs : ∀ k ∈ slots, k < hi)
    (ht : Sparse.wf dflt hi t = true) (k : Nat) :
    Sparse.read dflt k (writeSlots dflt h slots t) = if k ∈ slots then h else Sparse.read dflt k t := by
  induction slots with
  | nil => rfl
  | cons k' slots ih =>
    have hs' : ∀ k ∈ slots, k < hi := fun k hk => hs k (.tail _ hk)
    show Sparse.read dflt k (Sparse.write dflt k' h (writeSlots dflt h slots t)) = _
    by_cases he : k = k'
    · subst he
      rw [Sparse.read_write_same h _ (writeSlots_wf hs' ht), if_pos (.head _)]
    · rw [Sparse.read_write_other he, ih hs']
      simp only [List.mem_cons, he, false_or]

end

/-! ## The slots of COMPARE -/

theorem mem_compareSlotsOf {dreg sizeCode op : Nat} {excl : List Mode} :
    op ∈ compareSlotsOf dreg sizeCode excl ↔
      ∃ ea < 64, eaValid (BitVec.ofNat 6 ea) excl = true ∧ op = 0xB000 ||| dreg <<< 9 ||| sizeCode <<< 6 ||| ea := by
  simp only [compareSlotsOf, List.mem_map, List.mem_filter, List.mem_range, and_assoc, eq_comm]

theorem mem_compareSlots {op : Nat} :
    op ∈ compareSlots ↔ ∃ dreg < 8, ∃ p ∈ compareSizes, op ∈ compareSlotsOf dreg p.1 p.2 := by
  simp only [compareSlots, List.mem_flatMap, List.mem_range]

theorem compareSlots_lt : ∀ op ∈ compareSlots, op < 65536 := by
  intro op h
  obtain ⟨dreg, hd, p, hp, h⟩ := mem_compareSlots.1 h
  obtain ⟨ea, he, -, rfl⟩ := mem_compareSlotsOf.1 h
  have hp' : p.1 < 4 := by
    simp only [compareSizes, List.mem_cons, List.not_mem_nil, or_false] at hp
    rcases hp with rfl | rfl | rfl <;> decide
  have h1 : dreg <<< 9 < 2 ^ 16 := by rw [Nat.shiftLeft_eq]; omega
  have h2 : p.1 <<< 6 < 2 ^ 16 := by rw [Nat.shiftLeft_eq]; omega
  exact Nat.or_lt_two_pow (Nat.or_lt_two_pow (Nat.or_lt_two_pow (by decide) h1) h2)
    (Nat.lt_of_lt_of_le he (by decide))

/-! ## The builder -/

/-- The builder and the registration change the two tables and nothing else. -/
structure OnlyTables (s t : State) : Prop where
  state : t = { s with execTable := t.execTable, printTable := t.printTable, built := t.built }

theorem OnlyTables.refl (s : State) : OnlyTables s s := ⟨rfl⟩

theorem OnlyTables.trans {s t u : State} (h : OnlyTables s t) (h' : OnlyTables t u) : OnlyTables s u := by
  constructor
  rw [h'.state, h.state]

theorem registerClass_onlyTables (c : InstrClass) (s : State) : OnlyTables s (registerClass c s) := by
  cases c
  constructor
  simp only [registerClass, registerCompare]

theorem registerClasses_onlyTables (l : List InstrClass) (s : State) :
    OnlyTables s (l.foldl (fun t c => registerClass c t) s) := by
  induction l generalizing s with
  | nil => exact .refl s
  | cons c l ih =>
    rw [List.foldl_cons]
    exact (registerClass_onlyTables c s).trans (ih (registerClass c s))

/-- What the builder answers when it answers a next state (44 R184, R189). -/
theorem buildTables_next {s t : State} (h : buildTables s = .next t) :
    claimsTwice s.config.classes = false ∧
      t = { s.config.classes.foldl (fun t c => registerClass c t) s.clearTables with built := true } := by
  unfold buildTables at h
  cases hc : claimsTwice s.config.classes with
  | true => rw [hc] at h; cases h
  | false => rw [hc] at h; exact ⟨rfl, (Result.next.inj h).symm⟩

/-- The builder changes only the tables, and records that they are built. -/
theorem buildTables_onlyTables {s t : State} (h : buildTables s = .next t) : OnlyTables s t ∧ t.built = true := by
  obtain ⟨-, rfl⟩ := buildTables_next h
  have e := registerClasses_onlyTables s.config.classes s.clearTables
  generalize s.config.classes.foldl (fun t c => registerClass c t) s.clearTables = t at e
  refine ⟨⟨?_⟩, rfl⟩
  rw [e.state]
  rfl

/-- The builder answers a next state exactly when no two classes claim a slot. -/
theorem buildTables_of_claims {s : State} (h : claimsTwice s.config.classes = false) :
    ∃ t, buildTables s = .next t := by
  unfold buildTables
  rw [h]
  exact ⟨_, rfl⟩

theorem buildTables_claimed {s : State} (h : claimsTwice s.config.classes = true) :
    buildTables s = .refused .slotClaimedTwice := by
  unfold buildTables
  rw [h]
  rfl

theorem zero_slot_compare : (0xB000 : Nat) ∈ compareSlots :=
  mem_compareSlots.2 ⟨0, by decide, (0, [.areg]), .head _, mem_compareSlotsOf.2 ⟨0, by decide, by decide, rfl⟩⟩

theorem claimsTwice_cons_cons (t : List InstrClass) : claimsTwice (.compare :: .compare :: t) = true := by
  have h : (classSlots .compare).any (fun op => (classSlots .compare).contains op) = true :=
    List.any_eq_true.2 ⟨_, zero_slot_compare, List.contains_iff_mem.2 zero_slot_compare⟩
  simp only [claimsTwice, List.any_cons, h, Bool.true_or]

theorem claimsTwice_one : claimsTwice [.compare] = false := rfl

/-- A configuration that the builder accepts registers COMPARE once or not at all (44 R189). -/
theorem classes_of_claims {l : List InstrClass} (h : claimsTwice l = false) : l = [] ∨ l = [.compare] := by
  match l, h with
  | [], _ => exact .inl rfl
  | [.compare], _ => exact .inr rfl
  | .compare :: .compare :: t, h => rw [claimsTwice_cons_cons] at h; cases h

end Sys2Proof.Machine
end

