-- ==== Sys2Proof/Laws/Progress.lean ====
section
/-! SUPPORT. The progress of one instruction: what holds after `k` steps of its operand fetch (`Prog`) and after the
tick that resolves it (`Resolved`), over any ledger it was begun with, and the ticks that lead from one to the next;
and `step` at an instruction boundary and in mid-instruction. -/

namespace Sys2Proof.Machine

/-! ## The ledger of an operand fetch -/

theorem fetchTags_length (m : Mode) (sz : Size) : (fetchTags m sz).length = nSteps m sz := by
  cases m <;> cases sz <;> rfl

/-- A ledger with the first `k` steps of an operand fetch added (41 R138, 40 R116). -/
def stepsLedger (c : Cost) (m : Mode) (sz : Size) (l : Ledger) (k : Nat) : Ledger :=
  l.plus ((((fetchTags m sz).take k).map (Tag.cost c)).sum + k * c.readWait) ((fetchTags m sz).take k)

theorem stepsLedger_succ {c : Cost} {m : Mode} {sz : Size} {l : Ledger} {k : Nat} {tag : Tag}
    (h : (fetchTags m sz)[k]? = some tag) :
    stepsLedger c m sz l (k + 1) = (stepsLedger c m sz l k).plus (Tag.cost c tag + c.readWait) [tag] := by
  have e : (fetchTags m sz).take (k + 1) = (fetchTags m sz).take k ++ [tag] := by
    rw [List.take_add_one, h]
    rfl
  unfold stepsLedger Ledger.plus
  rw [e]
  simp [List.sum_append]
  rw [Nat.add_mul]
  omega

@[simp] theorem stepsLedger_zero (c : Cost) (m : Mode) (sz : Size) (l : Ledger) : stepsLedger c m sz l 0 = l := by
  simp [stepsLedger, Ledger.plus]

/-- All the steps cost `C_EA` (40 R116). -/
theorem stepsLedger_all (c : Cost) (m : Mode) (sz : Size) (l : Ledger) :
    stepsLedger c m sz l (nSteps m sz) = l.plus (eaCost c m sz) (fetchTags m sz) := by
  unfold stepsLedger
  rw [List.take_of_length_le (by rw [fetchTags_length])]
  rfl

theorem stepsLedger_clear (c : Cost) (m : Mode) (sz : Size) (k : Nat) :
    stepsLedger c m sz { cycles := 0, log := [] } k = ledgerAfterSteps c m sz k := by
  simp [stepsLedger, Ledger.plus, ledgerAfterSteps]

/-! ## The operand fetch in progress -/

/-- The operand fetch of `i`, begun with ledger `l`, has performed `k` steps. -/
def Prog (i : Instr) (l : Ledger) (k : Nat) (s : State) : Prop :=
  Fetching i s ∧ s.ea.step.toNat = k ∧ s.ledger = stepsLedger s.config.cost i.mode i.size l k

theorem step_succ_toNat {x : BitVec 3} {k : Nat} (h : x.toNat = k) (hk : k < 4) : (x + 1).toNat = k + 1 := by
  rw [BitVec.toNat_add]
  simp
  omega

/-- Right after `EaBeginRead` no step has been performed. -/
theorem beginRead_prog {i : Instr} {s : State} (h : Dispatched i s) : Prog i s.ledger 0 (beginRead i s) :=
  ⟨⟨h, rfl, rfl, rfl, rfl, rfl, rfl, Nat.zero_le _⟩, rfl, by simp [beginRead]⟩

/-- One more step leaves one more step performed. -/
theorem afterPoll_prog {i : Instr} {l : Ledger} {k : Nat} {s : State} (h : Prog i l k s)
    (hk : k < nSteps i.mode i.size) : Prog i l (k + 1) (afterPoll i.mode i.size k s) := by
  obtain ⟨⟨hd, hm, ho, ha, h1, h2, h3, -⟩, h4, h5⟩ := h
  obtain ⟨tag, ht, e⟩ := stepState_effect _ _ _ s hk
  have hlt := nSteps_le_four i.mode i.size
  have hs : (s.ea.step + 1).toNat = k + 1 := step_succ_toNat h4 (by omega)
  unfold afterPoll
  generalize stepState i.mode i.size k s = t at *
  rw [e.state]
  refine ⟨⟨hd, hm, ho, ha, h1, h2, h3, ?_⟩, hs, ?_⟩
  · show (s.ea.step + 1).toNat ≤ _
    rw [hs]; omega
  · show Ledger.mk (s.ledger.cycles + Tag.cost s.config.cost tag + s.config.cost.readWait) (s.ledger.log ++ [tag]) =
      stepsLedger s.config.cost i.mode i.size l (k + 1)
    rw [stepsLedger_succ ht, ← h5]
    simp [Ledger.plus, Nat.add_assoc]

/-- A step changes neither memory, the tables nor the configuration. -/
theorem afterPoll_keeps {m : Mode} {sz : Size} {k : Nat} {s : State} (hk : k < nSteps m sz) :
    (afterPoll m sz k s).mem = s.mem ∧ (afterPoll m sz k s).execTable = s.execTable ∧
      (afterPoll m sz k s).printTable = s.printTable ∧ (afterPoll m sz k s).built = s.built ∧
      (afterPoll m sz k s).config = s.config := by
  obtain ⟨tag, ht, e⟩ := stepState_effect _ _ _ s hk
  unfold afterPoll
  generalize stepState m sz k s = t at *
  rw [e.state]
  exact ⟨rfl, rfl, rfl, rfl, rfl⟩

/-- A tick with a step left performs it or is refused on an odd access. -/
theorem prog_tick {i : Instr} {l : Ledger} {k : Nat} {s : State} (h : Prog i l k s) (hk : k < nSteps i.mode i.size) :
    exec i s = .refused .oddWordAccess ∨
      (exec i s = .next (afterPoll i.mode i.size k s) ∧ Prog i l (k + 1) (afterPoll i.mode i.size k s)) := by
  obtain ⟨hf, hs, -⟩ := id h
  rw [exec_fetching_step i s hf (by omega), hs]
  cases stepOdd i.mode i.size k s with
  | true => exact .inl rfl
  | false => exact .inr ⟨rfl, afterPoll_prog h hk⟩

/-- The first tick of a mode with steps performs one or is refused on an odd access. -/
theorem ready_tick {i : Instr} {s : State} (h : Ready i s) (hk : 0 < nSteps i.mode i.size) :
    exec i s = .refused .oddWordAccess ∨
      (exec i s = .next (afterPoll i.mode i.size 0 (beginRead i s)) ∧
        Prog i s.ledger 1 (afterPoll i.mode i.size 0 (beginRead i s))) := by
  rw [exec_ready_step i s h hk]
  cases stepOdd i.mode i.size 0 (beginRead i s) with
  | true => exact .inl rfl
  | false => exact .inr ⟨rfl, afterPoll_prog (beginRead_prog h.1) hk⟩

/-! ## The operand resolved -/

/-- The operand of `i`, begun with ledger `l`, is resolved and its flags are committed. -/
def Resolved (i : Instr) (l : Ledger) (s : State) : Prop :=
  Dispatched i s ∧ s.opcode = some (encodeWord i) ∧ s.marker = (if i.size = .l then .long else .finished) ∧
    s.ea.active = false ∧
    s.ledger = l.plus (eaCost s.config.cost i.mode i.size + (s.config.cost.instr + s.config.cost.prefetch))
      (fetchTags i.mode i.size ++ [.prefetch])

theorem afterResolve_resolved {i : Instr} {l : Ledger} {s : State} (h : Prog i l (nSteps i.mode i.size) s) (v : Long) :
    Resolved i l (afterResolve i v s) := by
  obtain ⟨hf, -, hl⟩ := h
  refine ⟨hf.1, hf.2.2.1, rfl, rfl, ?_⟩
  rw [stepsLedger_all] at hl
  simp only [afterResolve, hl]
  simp [Ledger.plus, Nat.add_assoc]

/-- The tick after the last step resolves the operand. -/
theorem prog_last {i : Instr} {l : Ledger} {s : State} (h : Prog i l (nSteps i.mode i.size) s) :
    exec i s = .next (afterResolve i (eaResult s) s) ∧ Resolved i l (afterResolve i (eaResult s) s) :=
  ⟨exec_fetching_done i s h.1 h.2.1, afterResolve_resolved h _⟩

/-- The first tick of a register-direct mode resolves the operand. -/
theorem ready_last {i : Instr} {s : State} (h : Ready i s) (hk : nSteps i.mode i.size = 0) :
    exec i s = .next (afterResolve i (eaResult (beginRead i s)) (beginRead i s)) ∧
      Resolved i s.ledger (afterResolve i (eaResult (beginRead i s)) (beginRead i s)) :=
  ⟨exec_ready_done i s h hk, afterResolve_resolved (hk ▸ beginRead_prog h.1) _⟩

/-- At size L one more tick finishes (43 R165). -/
theorem resolved_long {i : Instr} {l : Ledger} {s : State} (h : Resolved i l s) (hz : i.size = .l) :
    exec i s = .next
      { s with marker := .finished, ledger := { s.ledger with cycles := s.ledger.cycles + s.config.cost.long } } := by
  obtain ⟨hd, ho, hm, -⟩ := h
  rw [if_pos hz] at hm
  rw [exec_dispatched i s hd, dispatchedTick, hm]
  simp only [if_pos ho]
  rfl

theorem execTicks_add (i : Instr) (a b : Nat) (s : State) :
    execTicks i (a + b) s =
      match execTicks i a s with
      | .next t => execTicks i b t
      | .fault r => .fault r
      | .refused r => .refused r := by
  induction a generalizing s with
  | zero => rw [Nat.zero_add]; rfl
  | succ a ih =>
    rw [Nat.succ_add]
    simp only [execTicks]
    cases exec i s with
    | next t => simp only []; rw [ih]
    | fault r => rfl
    | refused r => rfl

/-! ## Steps -/

/-- The boot step (70 R251). -/
theorem step_boot (s : State) (hf : s.fatal = false) (hb : s.built = false) : step s = (buildTables s).toOutcome := by
  rw [step, machineStep, if_neg (by simp [hf]), if_neg (by simp [hb])]
  rfl

/-- The step that begins a dispatched instruction (70 R252). -/
theorem step_first (s : State) (hf : s.fatal = false) (hb : s.built = true) (ha : s.ea.active = false)
    (hm : s.marker = .none ∨ s.marker = .finished) (he : s.execAt s.fetchOpcode = .hCmp) :
    step s = tickOpcode s.fetchOpcode (beginInstruction s) := by
  have hd : dispatch s.fetchOpcode s = .next s := by simp only [dispatch, hb, he, if_true]
  rcases hm with hm | hm
  all_goals
    rw [step, machineStep, if_neg (by simp [hf]), if_pos hb, hm]
    simp only [firstTick]
    rw [if_neg (by simp [ha]), hd]

/-- The step at a boundary where the opcode is illegal (60 R221). -/
theorem step_illegal (s : State) (hf : s.fatal = false) (hb : s.built = true) (ha : s.ea.active = false)
    (hm : s.marker = .none ∨ s.marker = .finished) (he : s.execAt s.fetchOpcode = .illegal) :
    firstTick s = .fault (.illegal s.fetchOpcode) ∧ step s = firstTick s := by
  have hd : dispatch s.fetchOpcode s = .illegal s.fetchOpcode s := by simp only [dispatch, hb, he, if_true]
  constructor
  · simp only [firstTick]
    rw [if_neg (by simp [ha]), hd]
    rfl
  · rcases hm with hm | hm <;> rw [step, machineStep, if_neg (by simp [hf]), if_pos hb, hm]

/-- The step of an instruction in progress (70 R252). -/
theorem step_later (s : State) (op : Word) (hf : s.fatal = false) (hb : s.built = true)
    (hm : s.marker = .read ∨ s.marker = .prefetch ∨ s.marker = .long) (ho : s.opcode = some op) :
    step s = tickOpcode op s := by
  rcases hm with hm | hm | hm
  all_goals
    rw [step, machineStep, if_neg (by simp [hf]), if_pos hb, hm]
    simp only [laterTick, ho]

end Sys2Proof.Machine
end

