-- ==== Sys2Proof/Laws/Protocol.lean ====
section
/-! SUPPORT. What an action that is allowed only between instructions can answer, once for all of them. -/

namespace Sys2Proof.Machine

theorem atBoundary_boundary {s : State} (h : s.marker = .none ∨ s.marker = .finished) (r : Refusal) (t : State) :
    atBoundary r s t = .next t := by
  rcases h with h | h <;> simp [atBoundary, h, Marker.inProgress, Marker.named]

theorem atBoundary_inProgress {s : State} (h : s.marker = .read ∨ s.marker = .prefetch ∨ s.marker = .long)
    (r : Refusal) (t : State) : atBoundary r s t = .refused r := by
  rcases h with h | h | h <;> simp [atBoundary, h, Marker.inProgress]

theorem atBoundary_badCode {s : State} (h : s.marker = .bad4 ∨ s.marker = .bad5 ∨ s.marker = .bad6) (r : Refusal)
    (t : State) : atBoundary r s t = .refused .badMarker := by
  rcases h with h | h | h <;> simp [atBoundary, h, Marker.inProgress, Marker.named]

/-- An action answers a next state only at `NONE` or `FINISHED`, and then the one it is to give. -/
theorem atBoundary_next_iff {r : Refusal} {s t u : State} :
    atBoundary r s t = .next u ↔ (s.marker = .none ∨ s.marker = .finished) ∧ t = u := by
  rcases h : s.marker <;> simp [atBoundary, h, Marker.inProgress, Marker.named]

end Sys2Proof.Machine
end

