-- ==== Sys2Proof/Tests/Slice0.lean ====
section
/-! SUPPORT. The model's own tests. Expected values are the spec's: its encodings written out bit by bit (30_encoding
R81 to R86), the vectors of 95_test_vectors, the examples of 40 R103 to R112; and one witness for each statement that
has hypotheses. -/

namespace Sys2Proof.Tests

open Sys2Proof Sys2Proof.Machine

/-! ## Ill-formed fields, one for each check of `WellFormed` -/

/-- Size code 0b11 (R82, R89). -/
theorem test_ill_size : (Form.mk none (some .dreg) 0 0).wellFormed = false ∧
    (Form.mk none (some .dreg) 0 0).sizeKnown = false := by decide

/-- `ea` = 0x3A (R83, R89). -/
theorem test_ill_mode : (Form.mk (some .w) (modeOf 0x3A) 0 2).wellFormed = false ∧
    (Form.mk (some .w) (modeOf 0x3A) 0 2).modeKnown = false := by decide

/-- Address-register-direct at byte size (R88). -/
theorem test_ill_areg : (Form.mk (some .b) (some .areg) 0 0).wellFormed = false ∧
    (Form.mk (some .b) (some .areg) 0 0).eaAllowed = false := by decide

/-- An immediate whose `reg` is not 4 (R83). -/
theorem test_ill_reg : (Form.mk (some .l) (some .imm) 0 5).wellFormed = false ∧
    (Form.mk (some .l) (some .imm) 0 5).regFits = false := by decide

theorem test_well_formed : (Instr.cmpBImm 3).wellFormed = true ∧ (Instr.cmpWAreg 3 2).wellFormed = true := by decide

/-! ## Decoding and encoding: `1011 ddd 0 ss mmm rrr` written out -/

theorem test_decode_b :
    decodeWord 0b1011100000000111 = .ok (.cmpBDreg 4 7) ∧
    decodeWord 0b1011111000010100 = .ok (.cmpBInd 7 4) ∧
    decodeWord 0b1011010000011001 = .ok (.cmpBPostinc 2 1) ∧
    decodeWord 0b1011101000100110 = .ok (.cmpBPredec 5 6) ∧
    decodeWord 0b1011000000101011 = .ok (.cmpBDisp16 0 3) ∧
    decodeWord 0b1011011000110000 = .ok (.cmpBIndex 3 0) ∧
    decodeWord 0b1011110000111000 = .ok (.cmpBAbsW 6) ∧
    decodeWord 0b1011001000111001 = .ok (.cmpBAbsL 1) ∧
    decodeWord 0b1011100000111100 = .ok (.cmpBImm 4) := by
  decide

theorem test_encode_b :
    encode (.cmpBDreg 4 7) = [0b1011100000000111] ∧
    encode (.cmpBInd 7 4) = [0b1011111000010100] ∧
    encode (.cmpBPostinc 2 1) = [0b1011010000011001] ∧
    encode (.cmpBPredec 5 6) = [0b1011101000100110] ∧
    encode (.cmpBDisp16 0 3) = [0b1011000000101011] ∧
    encode (.cmpBIndex 3 0) = [0b1011011000110000] ∧
    encode (.cmpBAbsW 6) = [0b1011110000111000] ∧
    encode (.cmpBAbsL 1) = [0b1011001000111001] ∧
    encode (.cmpBImm 4) = [0b1011100000111100] := by
  decide

theorem test_decode_w :
    decodeWord 0b1011111001000100 = .ok (.cmpWDreg 7 4) ∧
    decodeWord 0b1011010001001001 = .ok (.cmpWAreg 2 1) ∧
    decodeWord 0b1011101001010110 = .ok (.cmpWInd 5 6) ∧
    decodeWord 0b1011000001011011 = .ok (.cmpWPostinc 0 3) ∧
    decodeWord 0b1011011001100000 = .ok (.cmpWPredec 3 0) ∧
    decodeWord 0b1011110001101101 = .ok (.cmpWDisp16 6 5) ∧
    decodeWord 0b1011001001110010 = .ok (.cmpWIndex 1 2) ∧
    decodeWord 0b1011100001111000 = .ok (.cmpWAbsW 4) ∧
    decodeWord 0b1011111001111001 = .ok (.cmpWAbsL 7) ∧
    decodeWord 0b1011010001111100 = .ok (.cmpWImm 2) := by
  decide

theorem test_encode_w :
    encode (.cmpWDreg 7 4) = [0b1011111001000100] ∧
    encode (.cmpWAreg 2 1) = [0b1011010001001001] ∧
    encode (.cmpWInd 5 6) = [0b1011101001010110] ∧
    encode (.cmpWPostinc 0 3) = [0b1011000001011011] ∧
    encode (.cmpWPredec 3 0) = [0b1011011001100000] ∧
    encode (.cmpWDisp16 6 5) = [0b1011110001101101] ∧
    encode (.cmpWIndex 1 2) = [0b1011001001110010] ∧
    encode (.cmpWAbsW 4) = [0b1011100001111000] ∧
    encode (.cmpWAbsL 7) = [0b1011111001111001] ∧
    encode (.cmpWImm 2) = [0b1011010001111100] := by
  decide

theorem test_decode_l :
    decodeWord 0b1011101010000110 = .ok (.cmpLDreg 5 6) ∧
    decodeWord 0b1011000010001011 = .ok (.cmpLAreg 0 3) ∧
    decodeWord 0b1011011010010000 = .ok (.cmpLInd 3 0) ∧
    decodeWord 0b1011110010011101 = .ok (.cmpLPostinc 6 5) ∧
    decodeWord 0b1011001010100010 = .ok (.cmpLPredec 1 2) ∧
    decodeWord 0b1011100010101111 = .ok (.cmpLDisp16 4 7) ∧
    decodeWord 0b1011111010110100 = .ok (.cmpLIndex 7 4) ∧
    decodeWord 0b1011010010111000 = .ok (.cmpLAbsW 2) ∧
    decodeWord 0b1011101010111001 = .ok (.cmpLAbsL 5) ∧
    decodeWord 0b1011000010111100 = .ok (.cmpLImm 0) := by
  decide

theorem test_encode_l :
    encode (.cmpLDreg 5 6) = [0b1011101010000110] ∧
    encode (.cmpLAreg 0 3) = [0b1011000010001011] ∧
    encode (.cmpLInd 3 0) = [0b1011011010010000] ∧
    encode (.cmpLPostinc 6 5) = [0b1011110010011101] ∧
    encode (.cmpLPredec 1 2) = [0b1011001010100010] ∧
    encode (.cmpLDisp16 4 7) = [0b1011100010101111] ∧
    encode (.cmpLIndex 7 4) = [0b1011111010110100] ∧
    encode (.cmpLAbsW 2) = [0b1011010010111000] ∧
    encode (.cmpLAbsL 5) = [0b1011101010111001] ∧
    encode (.cmpLImm 0) = [0b1011000010111100] := by
  decide

/-- R89 (a), (b), and too few bytes. -/
theorem test_decode_rejects :
    decodeWord 0b1011000000001101 = .error .aregAtByteSize ∧ decodeWord 0b1011000001111111 = .error .eaUnsupported ∧
    decodeWord 0b1011111110111100 = .error .dirSet ∧ decodeWord 0b1011000011010000 = .error .sizeUnrecognized ∧
    decodeWord 0 = .error .otherClass ∧ decode [0xB6] = .error .tooShort := by decide

/-- The opcode word is big-endian and the rest of the bytes stay. -/
theorem test_decode_bytes : decode [0xB6, 0x3C, 0xAB, 0x07] = .ok (.cmpBImm 3, [0xAB, 0x07]) := by decide

/-- The numbering of `opcode_table.json`, with and without extension words. -/
theorem test_decode_table_word : decodeTableWord 16 0xB601 = some (.cmpBDreg 3 1) ∧
    decodeTableWord 32 0x0007B63C = some (.cmpBImm 3) ∧ decodeTableWord 48 0x00000001B6B9 = some (.cmpLAbsL 3) ∧
    decodeTableWord 16 0x4E71 = none := by decide

/-! ## One tick of each instruction (vectors E1 to E32 of 95_test_vectors) -/

/-- A state in which the instruction is dispatched, `pc` past its opcode word at 1000, and the given registers and
memory. -/
def readyState (i : Instr) (d a : Vector Long 8) (m : List Host.Cell) : State :=
  { State.reset with
    built := true, execTable := [((encodeWord i).toNat, .hCmp)], printTable := [((encodeWord i).toNat, .pCmp)],
    d := d, a := a, pc := 0x1002, mem := m }

/-- The same state with the operand fetch in progress after `k` steps. -/
def fetchState (i : Instr) (d a : Vector Long 8) (m : List Host.Cell) (k : BitVec 3) (addr value : Long) : State :=
  { readyState i d a m with
    marker := .read, opcode := some (encodeWord i),
    ea := { active := true, mode := i.mode, reg := i.reg, size := i.size, step := k, addr := addr, value := value } }

/-- Eight registers of which `i` holds `v`. -/
def reg1 (i : RegNum) (v : Long) : Vector Long 8 := (Vector.replicate 8 0).set i v

/-- Eight registers of which `i` holds `v` and `j` holds `w`. -/
def reg2 (i : RegNum) (v : Long) (j : RegNum) (w : Long) : Vector Long 8 := (reg1 i v).set j w

/-- A property of the next state. -/
def nextIs (o : Host.Outcome State Fault Refusal) (p : State → Bool) : Bool :=
  match o with
  | .next s => p s
  | .fault _ => false
  | .refused _ => false

/-- The refusal, if it is one. -/
def refusalOf (o : Host.Outcome State Fault Refusal) : Option Refusal :=
  match o with
  | .next _ => none
  | .fault _ => none
  | .refused r => some r

/-- The condition flags as the vectors list them. -/
def nzvc (s : State) : List Bool := [s.flags.n, s.flags.z, s.flags.v, s.flags.c]

/-- E1. -/
theorem test_E1_cmpBDreg : nextIs (exec (.cmpBDreg 3 1) (readyState (.cmpBDreg 3 1) (reg2 1 7 3 5) (reg1 0 0) [])) (fun s =>
    decide (nzvc s = [true, false, false, true]) && decide (s.marker = .finished) && decide (s.ledger = ⟨8, [.prefetch]⟩) && decide (s.pc = 0x1002)) = true := by decide

/-- E2: source and destination the same register, high half ignored. -/
theorem test_E2_cmpWDreg : nextIs (exec (.cmpWDreg 3 3) (readyState (.cmpWDreg 3 3) (reg1 3 0xABCD1234) (reg1 0 0) [])) (fun s =>
    decide (nzvc s = [false, true, false, false]) && decide (s.marker = .finished) && decide (s.ledger = ⟨8, [.prefetch]⟩)) = true := by decide

/-- E3, first tick. -/
theorem test_E3_cmpLDreg : nextIs (exec (.cmpLDreg 2 0) (readyState (.cmpLDreg 2 0) (reg2 0 0x80000000 2 0x7FFFFFFF) (reg1 0 0) [])) (fun s =>
    decide (nzvc s = [true, false, true, true]) && decide (s.marker = .long) && decide (s.ledger = ⟨8, [.prefetch]⟩)) = true := by decide

/-- E4: the low half of the address register. -/
theorem test_E4_cmpWAreg : nextIs (exec (.cmpWAreg 3 2) (readyState (.cmpWAreg 3 2) (reg1 3 0x8000) (reg1 2 0x00FF8000) [])) (fun s =>
    decide (nzvc s = [false, true, false, false]) && decide (s.marker = .finished)) = true := by decide

/-- E5, first tick. -/
theorem test_E5_cmpLAreg : nextIs (exec (.cmpLAreg 3 2) (readyState (.cmpLAreg 3 2) (reg1 3 0x00FF8000) (reg1 2 0x00FF8000) [])) (fun s =>
    decide (nzvc s = [false, true, false, false]) && decide (s.marker = .long)) = true := by decide

/-- E6, first tick. -/
theorem test_E6_cmpWInd : nextIs (exec (.cmpWInd 3 0) (readyState (.cmpWInd 3 0) (reg1 3 0x8000) (reg1 0 0x2000) [(0x2001, 0x01)])) (fun s =>
    decide (s.ea.value = 0x0001) && decide (s.marker = .read) && decide (s.ledger = ⟨6, [.readW]⟩)) = true := by decide

/-- E6, second tick. -/
theorem test_E6_cmpWInd_second : nextIs (exec (.cmpWInd 3 0) (fetchState (.cmpWInd 3 0) (reg1 3 0x8000) (reg1 0 0x2000) [] 1 0x2000 0x0001)) (fun s =>
    decide (nzvc s = [false, false, true, false]) && decide (s.marker = .finished) && decide (s.ea.active = false)) = true := by decide

/-- E7, first tick: an odd byte address is legal. -/
theorem test_E7_cmpBInd : nextIs (exec (.cmpBInd 3 0) (readyState (.cmpBInd 3 0) (reg1 3 0x10) (reg1 0 0x2001) [(0x2001, 0x10)])) (fun s =>
    decide (s.ea.value = 0x10) && decide (s.ledger = ⟨6, [.readB]⟩)) = true := by decide

/-- E8, first tick: the high word. -/
theorem test_E8_cmpLInd : nextIs (exec (.cmpLInd 3 0) (readyState (.cmpLInd 3 0) (reg1 3 0x12345678) (reg1 0 0xFFFFFFFE) [(0, 0x56), (1, 0x78), (0xFFFFFFFE, 0x12), (0xFFFFFFFF, 0x34)])) (fun s =>
    decide (s.ea.value = 0x12340000) && decide (s.ledger = ⟨6, [.readW]⟩)) = true := by decide

/-- E8, second tick: the low word, at address 0. -/
theorem test_E8_cmpLInd_second : nextIs (exec (.cmpLInd 3 0) (fetchState (.cmpLInd 3 0) (reg1 3 0x12345678) (reg1 0 0xFFFFFFFE) [(0, 0x56), (1, 0x78), (0xFFFFFFFE, 0x12), (0xFFFFFFFF, 0x34)] 1 0xFFFFFFFE 0x12340000)) (fun s =>
    decide (s.ea.value = 0x12345678) && decide (s.marker = .read)) = true := by decide

/-- E9, first tick. -/
theorem test_E9_cmpBPostinc : nextIs (exec (.cmpBPostinc 3 1) (readyState (.cmpBPostinc 3 1) (reg1 3 0x7F) (reg1 1 0x3000) [(0x3000, 0x7F)])) (fun s =>
    decide (s.ea.value = 0x7F) && decide (s.readA 1 = 0x3001) && decide (s.ledger = ⟨6, [.readB]⟩)) = true := by decide

/-- E10, first tick: A7 steps by 2. -/
theorem test_E10_cmpBPostinc_a7 : nextIs (exec (.cmpBPostinc 3 7) (readyState (.cmpBPostinc 3 7) (reg1 3 0x7F) (reg1 7 0x3000) [(0x3000, 0x80)])) (fun s =>
    decide (s.ea.value = 0x80) && decide (s.readA 7 = 0x3002)) = true := by decide

/-- E11, first tick. -/
theorem test_E11_cmpWPostinc : nextIs (exec (.cmpWPostinc 3 1) (readyState (.cmpWPostinc 3 1) (reg1 3 1) (reg1 1 0x3000) [(0x3000, 0xFF), (0x3001, 0xFF)])) (fun s =>
    decide (s.ea.value = 0xFFFF) && decide (s.readA 1 = 0x3002)) = true := by decide

/-- E12, first tick: no increment yet. -/
theorem test_E12_cmpLPostinc : nextIs (exec (.cmpLPostinc 3 1) (readyState (.cmpLPostinc 3 1) (reg1 3 0x10000) (reg1 1 0x3000) [(0x3001, 0x01), (0x3003, 0x01)])) (fun s =>
    decide (s.ea.value = 0x00010000) && decide (s.readA 1 = 0x3000)) = true := by decide

/-- E12, second tick. -/
theorem test_E12_cmpLPostinc_second : nextIs (exec (.cmpLPostinc 3 1) (fetchState (.cmpLPostinc 3 1) (reg1 3 0x10000) (reg1 1 0x3000) [(0x3001, 0x01), (0x3003, 0x01)] 1 0x3000 0x00010000)) (fun s =>
    decide (s.ea.value = 0x00010001) && decide (s.readA 1 = 0x3004)) = true := by decide

/-- E14, first tick: A7 steps by 2. -/
theorem test_E14_cmpBPredec : nextIs (exec (.cmpBPredec 3 7) (readyState (.cmpBPredec 3 7) (reg1 3 0x22) (reg1 7 0x3002) [(0x3000, 0x22)])) (fun s =>
    decide (s.ea.addr = 0x3000) && decide (s.readA 7 = 0x3000) && decide (s.ledger = ⟨4, [.idleN]⟩)) = true := by decide

/-- E13, second tick. -/
theorem test_E13_cmpBPredec_second : nextIs (exec (.cmpBPredec 3 0) (fetchState (.cmpBPredec 3 0) (reg1 0 0) (reg1 0 0x3000) [(0x3000, 0x01)] 1 0x3000 0)) (fun s =>
    decide (s.ea.value = 0x01) && decide (s.readA 0 = 0x3000)) = true := by decide

/-- E15, first tick. -/
theorem test_E15_cmpWPredec : nextIs (exec (.cmpWPredec 3 0) (readyState (.cmpWPredec 3 0) (reg1 3 0x7FFF) (reg1 0 0x3002) [(0x3000, 0x80)])) (fun s =>
    decide (s.ea.addr = 0x3000) && decide (s.readA 0 = 0x3000) && decide (s.marker = .read)) = true := by decide

/-- E17, first tick: the decrement wraps. -/
theorem test_E17_cmpLPredec : nextIs (exec (.cmpLPredec 3 0) (readyState (.cmpLPredec 3 0) (reg1 3 5) (reg1 0 0) [])) (fun s =>
    decide (s.readA 0 = 0xFFFFFFFC) && decide (s.ea.addr = 0xFFFFFFFC) && decide (s.ledger = ⟨4, [.idleN]⟩)) = true := by decide

/-- E18, first tick. -/
theorem test_E18_cmpWDisp16 : nextIs (exec (.cmpWDisp16 3 2) (readyState (.cmpWDisp16 3 2) (reg1 3 0xABCD) (reg1 2 0x4000) [(0x1002, 0xFF), (0x1003, 0xFE)])) (fun s =>
    decide (s.ea.addr = 0x3FFE) && decide (s.pc = 0x1004) && decide (s.ledger = ⟨6, [.prefetch]⟩)) = true := by decide

/-- E19, first tick. -/
theorem test_E19_cmpLDisp16 : nextIs (exec (.cmpLDisp16 3 2) (readyState (.cmpLDisp16 3 2) (reg1 3 0) (reg1 2 0x4000) [(0x1003, 0x10)])) (fun s =>
    decide (s.ea.addr = 0x4010) && decide (s.pc = 0x1004)) = true := by decide

/-- 40 R108 with A2 = 4000 and w = FFFE, at size B. -/
theorem test_cmpBDisp16 : nextIs (exec (.cmpBDisp16 3 2) (readyState (.cmpBDisp16 3 2) (reg1 3 0) (reg1 2 0x4000) [(0x1002, 0xFF), (0x1003, 0xFE)])) (fun s =>
    decide (s.ea.addr = 0x3FFE) && decide (s.pc = 0x1004)) = true := by decide

/-- E20, second tick: a word index, high half ignored. -/
theorem test_E20_cmpWIndex : nextIs (exec (.cmpWIndex 3 0) (fetchState (.cmpWIndex 3 0) (reg2 1 0x00010004 3 0x1234) (reg1 0 0x5000) [(0x1002, 0x10), (0x1003, 0x02)] 1 0 0)) (fun s =>
    decide (s.ea.addr = 0x5006) && decide (s.pc = 0x1004)) = true := by decide

/-- E21, second tick: a long index in an address register, negative displacement. -/
theorem test_E21_cmpLIndex : nextIs (exec (.cmpLIndex 3 0) (fetchState (.cmpLIndex 3 0) (reg1 3 1) (reg2 0 0x5000 1 0x10000) [(0x1002, 0x98), (0x1003, 0xFE)] 1 0 0)) (fun s =>
    decide (s.ea.addr = 0x14FFE) && decide (s.pc = 0x1004)) = true := by decide

/-- E22, second tick: the word index 8000 is negative. -/
theorem test_E22_cmpBIndex : nextIs (exec (.cmpBIndex 3 0) (fetchState (.cmpBIndex 3 0) (reg2 1 0x00018000 3 0x40) (reg1 0 0x10000) [(0x1002, 0x10)] 1 0 0)) (fun s =>
    decide (s.ea.addr = 0x8000)) = true := by decide

/-- E20, first tick: the idle entry alone. -/
theorem test_E20_cmpWIndex_first : nextIs (exec (.cmpWIndex 3 0) (readyState (.cmpWIndex 3 0) (reg2 1 0x00010004 3 0x1234) (reg1 0 0x5000) [])) (fun s =>
    decide (s.pc = 0x1002) && decide (s.ledger = ⟨4, [.idleN]⟩) && decide (s.ea.step = 1)) = true := by decide

/-- E23, first tick. -/
theorem test_E23_cmpBAbsW : nextIs (exec (.cmpBAbsW 3) (readyState (.cmpBAbsW 3) (reg1 3 0x7F) (reg1 0 0) [(0x1002, 0x04)])) (fun s =>
    decide (s.ea.addr = 0x0400) && decide (s.pc = 0x1004)) = true := by decide

/-- E24, first tick: the address is sign-extended. -/
theorem test_E24_cmpWAbsW : nextIs (exec (.cmpWAbsW 3) (readyState (.cmpWAbsW 3) (reg1 3 2) (reg1 0 0) [(0x1002, 0x80)])) (fun s =>
    decide (s.ea.addr = 0xFFFF8000)) = true := by decide

/-- 40 R110 with w = 8000, at size L. -/
theorem test_cmpLAbsW : nextIs (exec (.cmpLAbsW 3) (readyState (.cmpLAbsW 3) (reg1 3 2) (reg1 0 0) [(0x1002, 0x80)])) (fun s =>
    decide (s.ea.addr = 0xFFFF8000) && decide (s.pc = 0x1004)) = true := by decide

/-- E25, the tick of the second address word. -/
theorem test_E25_cmpLAbsL : nextIs (exec (.cmpLAbsL 3) (fetchState (.cmpLAbsL 3) (reg1 3 0) (reg1 0 0) [(0x1003, 0x00)] 1 0x10000 0)) (fun s =>
    decide (s.ea.addr = 0x10000) && decide (s.pc = 0x1004)) = true := by decide

/-- E26, first tick: the first word is the high half. -/
theorem test_E26_cmpWAbsL : nextIs (exec (.cmpWAbsL 3) (readyState (.cmpWAbsL 3) (reg1 3 0x8000) (reg1 0 0) [(0x1003, 0x01), (0x1005, 0x02)])) (fun s =>
    decide (s.ea.addr = 0x10000) && decide (s.pc = 0x1004)) = true := by decide

/-- E26, the tick of the second address word. -/
theorem test_E26_cmpWAbsL_second : nextIs (exec (.cmpWAbsL 3) (fetchState (.cmpWAbsL 3) (reg1 3 0x8000) (reg1 0 0) [(0x1003, 0x02)] 1 0x10000 0)) (fun s =>
    decide (s.ea.addr = 0x10002)) = true := by decide

/-- 40 R111 with w1 = 0001, at size B. -/
theorem test_cmpBAbsL : nextIs (exec (.cmpBAbsL 3) (readyState (.cmpBAbsL 3) (reg1 3 0) (reg1 0 0) [(0x1003, 0x01)])) (fun s =>
    decide (s.ea.addr = 0x10000)) = true := by decide

/-- E27, first tick: the high byte of the word is ignored. -/
theorem test_E27_cmpBImm : nextIs (exec (.cmpBImm 3) (readyState (.cmpBImm 3) (reg1 3 5) (reg1 0 0) [(0x1002, 0xAB), (0x1003, 0x07)])) (fun s =>
    decide (s.ea.value = 0x07) && decide (s.pc = 0x1004) && decide (s.ledger = ⟨6, [.prefetch]⟩)) = true := by decide

/-- E28, second tick. -/
theorem test_E28_cmpWImm : nextIs (exec (.cmpWImm 3) (fetchState (.cmpWImm 3) (reg1 3 0x7FFF) (reg1 0 0) [] 1 0 0x8000)) (fun s =>
    decide (nzvc s = [true, false, true, true]) && decide (s.marker = .finished)) = true := by decide

/-- E29, second tick (T2). -/
theorem test_E29_cmpLImm : nextIs (exec (.cmpLImm 3) (fetchState (.cmpLImm 3) (reg1 3 0x12345678) (reg1 0 0) [(0x1002, 0x56), (0x1003, 0x78)] 1 0 0x12340000)) (fun s =>
    decide (s.ea.value = 0x12345678) && decide (s.pc = 0x1004)) = true := by decide

/-- E30: a word read at an odd address. -/
theorem test_E30_refused : refusalOf (exec (.cmpWInd 3 0) (readyState (.cmpWInd 3 0) (reg1 0 0) (reg1 0 0x2001) [])) =
    some .oddWordAccess := by decide

/-- E31, second tick: the decremented address is odd. -/
theorem test_E31_refused :
    refusalOf (exec (.cmpWPredec 3 0) (fetchState (.cmpWPredec 3 0) (reg1 0 0) (reg1 0 0x3001) [] 1 0x3001 0)) =
      some .oddWordAccess := by decide

/-- E32: an extension word at an odd `pc`. -/
theorem test_E32_refused : refusalOf (exec (.cmpWImm 3) { readyState (.cmpWImm 3) (reg1 0 0) (reg1 0 0) [] with pc := 0x1003 }) =
    some .oddWordAccess := by decide

/-- T6: another opcode in mid-instruction. -/
theorem test_T6_opcode_changed :
    refusalOf (exec (.cmpLPredec 3 0)
      { fetchState (.cmpLIndex 3 0) (reg1 0 0) (reg1 0 0) [] 2 0 0 with execTable := [(0xB6A0, .hCmp)] }) =
      some .opcodeChanged := by decide

/-- T6: a slot that is not dispatched. -/
theorem test_T6_not_dispatched : executePort 0x4E71 (readyState (.cmpBDreg 3 1) (reg1 0 0) (reg1 0 0) []) =
    .refused .notDispatched := by decide

/-- T6: a write of `A[0]` by the core after tick 1. -/
theorem test_T6_foreign_write : act (.writeA 0 1) (fetchState (.cmpLIndex 3 0) (reg1 0 0) (reg1 0 0) [] 1 0 0) =
    .refused .foreignWrite := by decide

/-- A4, A5: the ledger clear. -/
theorem test_A4_A5_clear : act .clearLedger { State.reset with marker := .finished, ledger := ⟨10, [.prefetch, .idleN]⟩ } =
      .next { State.reset with marker := .finished } ∧
    act .clearLedger { State.reset with marker := .read } = .refused .clearInProgress := by decide

/-- F26, F28, F32: the masked operands decide. -/
theorem test_flag_corner_cases :
    compareFlags (sub .b 0x105 0x7) = ⟨true, false, false, true⟩ ∧
    compareFlags (sub .w 0xFFFF0000 0xFFFF) = ⟨false, false, false, true⟩ ∧
    compareFlags (sub .b 0 0x80) = ⟨true, false, true, true⟩ := by decide

/-! ## Steps -/

/-- The memory stays canonical: storing 0 removes the cell. -/
theorem test_memory_canonical : (State.reset.memWriteWord 0x10 0x0100).mem = [(0x10, 1)] ∧
    ((State.reset.memWriteWord 0x10 0x0102).memWriteByte 0x10 0).mem = [(0x11, 2)] := by decide

set_option maxRecDepth 20000 in
/-- From reset with the instruction placed, the very next step fetches and runs it. -/
theorem test_first_step_runs_the_placed_word :
    nextIs (step (State.reset.withFetchWord 16 0xB601)) (fun s =>
      decide (s.marker = .finished) && decide (s.pc = 2) && decide (s.opcode = some 0xB601) &&
        decide (nzvc s = [false, true, false, false]) && decide (s.ledger = ⟨8, [.prefetch]⟩)) = true := by decide

/-- From reset with nothing placed, the first step builds the tables (70 R251) and the second finds opcode 0 illegal. -/
theorem test_boot_step : nextIs (step State.reset) (fun s => s.built) = true := rfl

/-- The codes that no rule produces (10_state R25): the clear, legal only at `NONE` and `FINISHED` (41 R136), is refused
(log 10); a lookup is not the marker's concern (44 R185). -/
theorem test_bad_marker_actions : act .clearLedger { State.reset with marker := .bad4 } = .refused .badMarker ∧
    act (.lookup 0x4E71) { State.reset with marker := .bad6, built := true } =
      .illegal 0x4E71 { State.reset with marker := .bad6, built := true } := by decide

/-! ## The print adapter (45 R202 to R205) -/

/-- The words at 1000 to 1003 of E27. -/
theorem test_render_immediate :
    render 0x1000 0xB63C (readyState (.cmpBImm 3) (reg1 0 0) (reg1 0 0) [(0x1002, 0xAB), (0x1003, 0x07)]) =
      .record ⟨0x1000, "CMP.B", "#$07,D3"⟩ := by decide

theorem test_render_refusals :
    render 0x1001 0xB63C (readyState (.cmpBImm 3) (reg1 0 0) (reg1 0 0) []) = .refused .oddWordAccess ∧
    render 0x1000 0x4E71 (readyState (.cmpBImm 3) (reg1 0 0) (reg1 0 0) []) = .illegal 0x4E71 ∧
    render 0x1000 0xB63C State.reset = .refused .dispatchBeforeBuild ∧
    render 0x1000 0xB63C { readyState (.cmpBImm 3) (reg1 0 0) (reg1 0 0) [] with
      config := { Config.default with unpeekable := [0x1003] } } = .refused .peekHasSideEffect := by decide

/-! ## Witnesses: for each statement with hypotheses, states and operands that meet them -/

/-- Zero registers. -/
def regs0 : Vector Long 8 := Vector.replicate 8 0

/-- A state at the start of the instruction. -/
def startOf (i : Instr) : State := readyState i regs0 regs0 []

/-- A state after `k` steps of the instruction's operand fetch, at address `a`. -/
def midOf (i : Instr) (k : BitVec 3) (a : Long) : State := fetchState i regs0 regs0 [] k a 0

/-- Every instruction can be at its start: with any registers and memory. -/
theorem witness_ready (i : Instr) (d a : Vector Long 8) (m : List Host.Cell) : Ready i (readyState i d a m) :=
  ⟨⟨rfl, Sparse.read_cons_self _ _ _⟩, rfl, rfl⟩

/-- Every instruction can be at every step of its operand fetch. -/
theorem witness_fetching (i : Instr) (k : BitVec 3) (a : Long) (h : k.toNat ≤ nSteps i.mode i.size) :
    Fetching i (midOf i k a) :=
  ⟨⟨rfl, Sparse.read_cons_self _ _ _⟩, rfl, rfl, rfl, rfl, rfl, rfl, h⟩

/-- Every instruction can have performed its last step. -/
theorem witness_resolved_tick (i : Instr) :
    ∃ s, Fetching i s ∧ s.ea.step.toNat = nSteps i.mode i.size := by
  have h4 := nSteps_le_four i.mode i.size
  have e : (BitVec.ofNat 3 (nSteps i.mode i.size)).toNat = nSteps i.mode i.size := by
    rw [BitVec.toNat_ofNat]; omega
  exact ⟨_, witness_fetching i (BitVec.ofNat 3 (nSteps i.mode i.size)) 0 (Nat.le_of_eq e), e⟩

/-- A state whose tables the builder has built, with memory holding `CMP.B D1,D3` at 0. -/
def builtState : State :=
  { registerCompare State.reset.clearTables with built := true, mem := [(0, 0xB6), (1, 0x01)] }

/-- A state with the built tables is what the builder answers, whatever its other fields. -/
theorem tables_of_built {s : State} (hc : s.config.classes = [.compare]) (he : s.execTable = builtState.execTable)
    (hp : s.printTable = builtState.printTable) (hb : s.built = true) : buildTables s = .next s := by
  have hcl : claimsTwice s.config.classes = false := by rw [hc]; rfl
  unfold buildTables
  rw [hcl, hc]
  simp only [Bool.false_eq_true, if_false, List.foldl_cons, List.foldl_nil, registerClass, registerCompare,
    State.clearTables]
  have e1 : builtState.execTable = writeSlots .illegal .hCmp compareSlots [] := by
    simp only [builtState, registerCompare, State.clearTables]
  have e2 : builtState.printTable = writeSlots .illegal .pCmp compareSlots [] := by
    simp only [builtState, registerCompare, State.clearTables]
  rw [← e1, ← e2, ← he, ← hp, ← hb]

theorem tablesInv_of_built {s : State} (hc : s.config.classes = [.compare]) (he : s.execTable = builtState.execTable)
    (hp : s.printTable = builtState.printTable) (hb : s.built = true) : TablesInv s := by
  unfold TablesInv
  rw [if_pos hb]
  exact tables_of_built hc he hp hb

theorem builtState_tables : buildTables builtState = .next builtState := tables_of_built rfl rfl rfl rfl

theorem witness_decode_accepts : decodeWord 0xB601 = .ok (.cmpBDreg 3 1) ∧
    ∃ r ∈ opcodeRows, r.selects 0xB601 = true := by decide

theorem witness_fatal : ∃ s : State, s.fatal = true ∧ s.built = true ∧
    ∃ (x : Action) (t : State), act x s = .next t ∧ t.fatal = false :=
  ⟨{ builtState with fatal := true }, rfl, rfl, .reset Unspecified.named, _, rfl, rfl⟩

theorem witness_compare_alone : Config.default.classes = [.compare] ∧ State.reset.config.classes = [.compare] := by decide

theorem witness_canonical_memory : Memory.wf [(0, 1), (4294967295, 2)] = true := by decide

/-- The invariant holds at the reset state, before the build, and a step answers. -/
theorem witness_inv_unbuilt : ∃ s t : State, Inv s ∧ step s = .next t :=
  ⟨State.reset, _, ⟨rfl, rfl, ⟨rfl, rfl, rfl⟩, ⟨.inl rfl, by decide⟩, .inl rfl⟩, rfl⟩

theorem builtState_inv : Inv builtState :=
  ⟨rfl, rfl, tablesInv_of_built rfl rfl rfl rfl, ⟨.inl rfl, by simp [builtState, registerCompare, State.clearTables,
    State.reset, State.resetWith]⟩, .inl rfl⟩

set_option maxRecDepth 20000 in
/-- It holds of a built state at a boundary, whose opcode decodes and is dispatched. -/
theorem witness_inv_boundary : Inv builtState ∧ builtState.built = true ∧
    (builtState.marker = .none ∨ builtState.marker = .finished) ∧
    decodeWord builtState.fetchOpcode = .ok (.cmpBDreg 3 1) ∧ builtState.execAt builtState.fetchOpcode = .hCmp ∧
    operandRefused .dreg 1 .b (beginInstruction builtState) = false ∧ builtState.ea.active = false ∧
    builtState.fatal = false :=
  ⟨builtState_inv, rfl, .inl rfl, by decide, by decide, by decide, rfl, rfl⟩

set_option maxRecDepth 20000 in
/-- It holds of a built state whose opcode, 0, is illegal. -/
theorem witness_inv_illegal : ∃ s : State, Inv s ∧ s.built = true ∧ s.fatal = false ∧ s.ea.active = false ∧
    (s.marker = .none ∨ s.marker = .finished) ∧ s.execAt s.fetchOpcode = .illegal :=
  ⟨{ builtState with mem := [] }, ⟨rfl, rfl, tablesInv_of_built rfl rfl rfl rfl, ⟨.inl rfl, builtState_inv.2.2.2.1.2⟩, .inl rfl⟩, rfl, rfl, rfl, .inl rfl, by decide⟩

/-- It holds of a state whose configuration registers a class twice. -/
theorem witness_inv_twice : ∃ s : State, Inv s ∧ s.built = false ∧ claimsTwice s.config.classes = true :=
  ⟨{ State.reset with config := { Config.default with classes := [.compare, .compare] } },
    ⟨rfl, rfl, ⟨rfl, rfl, rfl⟩, ⟨.inl rfl, by decide⟩, .inl rfl⟩, rfl, claimsTwice_cons_cons []⟩

/-- A built state with `CMP.W (A0),D3` fetching, one step performed and the ledger of that step. -/
def builtMid : State :=
  { builtState with
    marker := .read, opcode := some (encodeWord (.cmpWInd 3 0)),
    ea := { active := true, mode := .ind, reg := 0, size := .w, step := 1, addr := 0x2000, value := 0 },
    ledger := { cycles := 6, log := [.readW] } }

set_option maxRecDepth 20000 in
/-- It holds of a state in mid-instruction, in `READ`. -/
theorem witness_inv_read : Inv builtMid :=
  ⟨rfl, rfl, tablesInv_of_built rfl rfl rfl rfl, ⟨.inr (.inl rfl), by simp [builtMid]⟩,
    .inr ⟨.cmpWInd 3 0, rfl, by decide, .inl ⟨rfl, rfl, rfl, rfl, by decide, by decide, by decide⟩⟩⟩

/-- A later step's hypotheses, at each of the three markers. -/
theorem witness_later_step (m : Marker) (h : m = .read ∨ m = .prefetch ∨ m = .long) :
    ∃ s : State, s.fatal = false ∧ s.built = true ∧ (s.marker = .read ∨ s.marker = .prefetch ∨ s.marker = .long) ∧
      s.opcode = some (encodeWord (.cmpWInd 3 0)) ∧ decodeWord (encodeWord (.cmpWInd 3 0)) = .ok (.cmpWInd 3 0) :=
  ⟨{ builtMid with marker := m }, rfl, rfl, h, rfl, by rfl⟩

theorem witness_build_next : buildTables builtState = .next builtState ∧ builtState.built = true :=
  ⟨builtState_tables, rfl⟩

theorem witness_classes : ∃ s s' : State, s.config.classes = [.compare, .compare] ∧ s'.config.classes = [] :=
  ⟨{ State.reset with config := { Config.default with classes := [.compare, .compare] } },
    { State.reset with config := { Config.default with classes := [] } }, rfl, rfl⟩

/-- A run with no odd access, a run with one, and the memories of a run with six ticks. -/
theorem witness_runs :
    (Ready (.cmpLIndex 3 0) (startOf (.cmpLIndex 3 0)) ∧
      operandRefused .index 0 .l (startOf (.cmpLIndex 3 0)) = false ∧
      (List.replicate 6 ([] : List Host.Cell)).length = compareTicks .index .l) ∧
    Ready (.cmpWInd 3 0) (readyState (.cmpWInd 3 0) regs0 (reg1 0 0x2001) []) ∧
      operandRefused .ind 0 .w (readyState (.cmpWInd 3 0) regs0 (reg1 0 0x2001) []) = true :=
  ⟨⟨witness_ready _ _ _ _, by decide, rfl⟩, witness_ready _ _ _ _, by decide⟩

/-- Register-direct sources, data and address. -/
theorem witness_register_direct : (Instr.cmpBDreg 3 1).mode = .dreg ∧ (Instr.cmpLAreg 7 7).mode = .areg := by decide

/-- IND and POSTINC: a byte at the highest, odd address, and a word at the highest even one. -/
theorem witness_accessible :
    Accessible (Instr.cmpBInd 0 0).size ((readyState (.cmpBInd 0 0) regs0 (reg1 0 0xFFFFFFFF) []).readA 0) ∧
    Accessible (Instr.cmpWPostinc 0 0).size ((readyState (.cmpWPostinc 0 0) regs0 (reg1 0 0xFFFFFFFE) []).readA 0) ∧
    (Instr.cmpBInd 0 0).mode = .ind ∧ (Instr.cmpWPostinc 0 0).mode = .postinc ∧ (Instr.cmpLPredec 0 0).mode = .predec :=
  ⟨.inl rfl, .inr rfl, rfl, rfl, rfl⟩

/-- The amounts of POSTINC and PREDEC: register 7 and another at size B, and the other sizes, each at its start. -/
theorem witness_increment_forms :
    ((Instr.cmpBPostinc 0 7).mode = .postinc ∧ (Instr.cmpBPostinc 0 7).size = .b ∧ (Instr.cmpBPostinc 0 7).reg = 7 ∧
      Accessible .b 0xFFFFFFFF) ∧
    ((Instr.cmpBPredec 0 6).mode = .predec ∧ (Instr.cmpBPredec 0 6).size = .b ∧ (Instr.cmpBPredec 0 6).reg ≠ 7) ∧
    (Instr.cmpWPredec 0 7).size = .w ∧ (Instr.cmpLPredec 0 7).size = .l ∧
    ∀ i : Instr, Ready i (startOf i) :=
  ⟨⟨rfl, rfl, rfl, .inl rfl⟩, ⟨rfl, rfl, by decide⟩, rfl, rfl, fun _ => witness_ready _ _ _ _⟩

/-- The modes with extension words, at an even `pc`. -/
theorem witness_even_pc (i : Instr) : Ready i (startOf i) ∧ isOdd (startOf i).pc = false :=
  ⟨witness_ready _ _ _ _, show isOdd 0x1002 = false by decide⟩

theorem witness_extension_modes : (Instr.cmpBDisp16 0 0).mode = .disp16 ∧ (Instr.cmpWAbsW 0).mode = .absW ∧
    (Instr.cmpLIndex 0 0).mode = .index ∧ (Instr.cmpBAbsL 0).mode = .absL ∧ (Instr.cmpLImm 0).mode = .imm ∧
    (Instr.cmpLImm 0).size = .l := by decide

/-- The second ticks of INDEX, ABS_L and IMM at size L. -/
theorem witness_second_ticks :
    Fetching (.cmpBIndex 0 0) (midOf (.cmpBIndex 0 0) 1 0) ∧ Fetching (.cmpWAbsL 0) (midOf (.cmpWAbsL 0) 1 0) ∧
      Fetching (.cmpLImm 0) (midOf (.cmpLImm 0) 1 0) ∧ (midOf (.cmpLImm 0) 1 0).ea.step = 1 :=
  ⟨witness_fetching _ _ _ (by decide), witness_fetching _ _ _ (by decide), witness_fetching _ _ _ (by decide), rfl⟩

/-- The first data read after the address is known: accessible, and not. -/
theorem witness_first_data_read :
    (Fetching (.cmpLDisp16 0 0) (midOf (.cmpLDisp16 0 0) 1 0xFFFFFFFE) ∧
      (1 : BitVec 3).toNat + (dataTags .l).length = nSteps .disp16 .l ∧ Accessible .l 0xFFFFFFFE) ∧
    (Fetching (.cmpWIndex 0 0) (midOf (.cmpWIndex 0 0) 2 1) ∧
      (2 : BitVec 3).toNat + (dataTags .w).length = nSteps .index .w ∧ ¬Accessible .w 1) :=
  ⟨⟨witness_fetching _ _ _ (by decide), by decide, .inr rfl⟩, witness_fetching _ _ _ (by decide), by decide, by
    unfold Accessible; decide⟩

/-- The second word read, in POSTINC and in ABS_L. -/
theorem witness_second_word_read :
    (Fetching (.cmpLPostinc 0 0) (midOf (.cmpLPostinc 0 0) 1 0xFFFFFFFE) ∧
      (1 : BitVec 3).toNat + 1 = nSteps .postinc .l ∧ Mode.inMemory .postinc = true ∧ isOdd 0xFFFFFFFE = false) ∧
    Fetching (.cmpLAbsL 0) (midOf (.cmpLAbsL 0) 3 0) ∧ (3 : BitVec 3).toNat + 1 = nSteps .absL .l :=
  ⟨⟨witness_fetching _ _ _ (by decide), by decide, by decide, by decide⟩, witness_fetching _ _ _ (by decide), by decide⟩

/-- `LONG` and `FINISHED`. -/
theorem witness_long_and_finished (i : Instr) :
    (∃ s, Dispatched i s ∧ s.marker = .long ∧ s.opcode = some (encodeWord i)) ∧
      ∃ s, Dispatched i s ∧ s.marker = .finished :=
  ⟨⟨{ midOf i 0 0 with marker := .long }, ⟨rfl, Sparse.read_cons_self _ _ _⟩, rfl, rfl⟩,
    { midOf i 0 0 with marker := .finished }, ⟨rfl, Sparse.read_cons_self _ _ _⟩, rfl⟩

/-- The four refusals of a tick. -/
theorem witness_tick_refusals (i : Instr) :
    (∃ s : State, s.fatal = true) ∧ (∃ s : State, s.fatal = false ∧ s.execAt (encodeWord i) = .illegal) ∧
    (∃ s, Dispatched i s ∧ (s.marker = .bad4 ∨ s.marker = .bad5 ∨ s.marker = .bad6)) ∧
    (∃ s, Dispatched i s ∧ s.marker.inProgress = true ∧ s.opcode ≠ some (encodeWord i)) :=
  ⟨⟨{ State.reset with fatal := true }, rfl⟩, ⟨State.reset, rfl, rfl⟩,
    ⟨{ startOf i with marker := .bad6 }, ⟨rfl, Sparse.read_cons_self _ _ _⟩, .inr (.inr rfl)⟩,
    { startOf i with marker := .prefetch }, ⟨rfl, Sparse.read_cons_self _ _ _⟩, rfl, by
      show (none : Option Word) ≠ some _
      simp⟩

/-- A corrupted table dispatches an opcode that no legal slot has: the three fatal paths (T7). -/
theorem witness_fatal_paths :
    let s (op : Nat) : State := { State.reset with execTable := [(op, .hCmp)], built := true }
    ((s 0xB67A).execAt 0xB67A = .hCmp ∧ modeOf ((0xB67A : Word).extractLsb' 0 6) = none) ∧
    ((s 0xB6C1).execAt 0xB6C1 = .hCmp ∧ modeOf ((0xB6C1 : Word).extractLsb' 0 6) ≠ none ∧
      (0xB6C1 : Word).extractLsb' 6 2 = 0b11#2) ∧
    ((s 0xB609).execAt 0xB609 = .hCmp ∧ modeOf ((0xB609 : Word).extractLsb' 0 6) = some .areg ∧
      (0xB609 : Word).extractLsb' 6 2 = 0b00#2) := by decide

/-- A tick that answers a next state, with the descriptor the instruction's own, and positive charges. -/
theorem witness_tick_next : ∃ (i : Instr) (s t : State), exec i s = .next t ∧ DescriptorIsOf i s ∧
    0 < s.config.cost.readWait ∧ 0 < s.config.cost.instr ∧ 0 < s.config.cost.long ∧ s.marker ≠ .finished :=
  ⟨.cmpBInd 3 0, midOf (.cmpBInd 3 0) 1 0, _, exec_fetching_done _ _ (witness_fetching _ _ _ (by decide)) rfl,
    fun _ => ⟨rfl, rfl, rfl⟩, by decide, by decide, by decide, by decide⟩

/-- The resolver: begun, unresolved and done. -/
theorem witness_resolver :
    (∃ t, eaBeginRead (Instr.cmpBInd 3 0).form State.reset = .begun t) ∧
    (∃ t, eaPoll (midOf (.cmpBInd 3 0) 0 0) = .unresolved t) ∧
    (∃ v t, eaPoll (midOf (.cmpBInd 3 0) 1 0) = .done v t) ∧
    (∃ t, eaStep .predec .l 0 (midOf (.cmpLPredec 3 0) 0 0) = .ok t) ∧ (fetchTags .predec .l)[0]? = some .idleN ∧
    (midOf (.cmpBDreg 3 0) 0 0).ea.mode = .dreg ∧ (midOf (.cmpWAreg 3 0) 0 0).ea.mode = .areg :=
  ⟨⟨_, rfl⟩, ⟨_, rfl⟩, ⟨_, _, rfl⟩, ⟨_, rfl⟩, rfl, rfl, rfl⟩

/-- The five cases of `EaBeginRead`. -/
theorem witness_begin_read : (midOf (.cmpBInd 3 0) 0 0).ea.active = true ∧ State.reset.ea.active = false ∧
    (formOf 0xB67A).mode = none ∧ (formOf 0xB6C1).size = none ∧ (formOf 0xB6C1).mode ≠ none ∧
    (formOf 0xB609).mode = some .areg ∧ (formOf 0xB609).size = some .b ∧ (formOf 0xB601).mode = some .dreg := by decide

/-- An action that answers a next state, other than the clear and reset. -/
theorem witness_action_next : ∃ t, act (.writeD 7 0xFFFFFFFF) State.reset = .next t := ⟨_, rfl⟩

/-- Every marker: in mid-instruction, at a boundary, and at the codes no rule produces. -/
theorem witness_markers : (midOf (.cmpBInd 3 0) 0 0).marker = .read ∧ State.reset.marker = .none ∧
    ∀ m : Marker, ({ State.reset with marker := m } : State).marker = m := ⟨rfl, rfl, fun _ => rfl⟩

theorem witness_tick_action : ∃ t, act (.tick 0xB610) (startOf (.cmpBInd 3 0)) = .next t ∧ t.built = true ∧
    (startOf (.cmpBInd 3 0)).built = true :=
  ⟨_, rfl, rfl, rfl⟩

/-- `render` with no, and with extension words, at an even and at an odd address, and of an illegal opcode. -/
theorem witness_render (i : Instr) : (startOf i).built = true ∧ (startOf i).printAt (encodeWord i) = .pCmp ∧
    isOdd 0x1000 = false ∧ isOdd 0x1001 = true ∧ extWords .dreg .b = 0 ∧
    extWords .absL .b ≠ 0 ∧ State.reset.printAt 0x4E71 = .illegal ∧ State.reset.built = false :=
  ⟨rfl, Sparse.read_cons_self _ _ _, rfl, rfl, rfl, by decide, rfl, rfl⟩

/-- The peeked bytes of `render` at the last even address: byte 2 is the first that a two-word form peeks and a one-word
form does not. -/
theorem witness_render_unpeekable (i : Instr) :
    let s : State := { startOf i with config := { Config.default with unpeekable := [2] } }
    let bytes : List Long := [0xFFFFFFFE + 2, 0xFFFFFFFE + 3, 0xFFFFFFFE + 4, 0xFFFFFFFE + 5]
    s.built = true ∧ s.printAt (encodeWord i) = .pCmp ∧ isOdd 0xFFFFFFFE = false ∧
      (extWords .imm .b = 1 ∧ ∀ b ∈ List.take 2 bytes, b.toNat ∉ s.config.unpeekable) ∧
      extWords .imm .l = 2 ∧ ∃ b ∈ List.take 4 bytes, b.toNat ∈ s.config.unpeekable :=
  ⟨rfl, Sparse.read_cons_self _ _ _, rfl, ⟨rfl, by simp⟩, rfl, by simp⟩

end Sys2Proof.Tests
end

/-! PROOFS. The statements of the state (10_state): the invariant of a step, reset and boot, the latch, the refusals of
the tick and of the block's users. -/

namespace Sys2Proof.Machine

/-! ## The decoder on encoded words, and the slots of COMPARE as encodings -/

theorem decodeWord_encodeWord (i : Instr) : decodeWord (encodeWord i) = .ok i := by
  obtain ⟨hclass, hdir⟩ := class_and_dir_of_encodeWord i
  simp only [decodeWord, hclass, hdir, ne_eq, not_true_eq_false, if_false, formOf_encodeWord, instrOfForm_form]

/-- What the core ticks when the decoder accepts the opcode. -/
theorem tickOpcode_of_decode {op : Word} {i : Instr} (h : decodeWord op = .ok i) (s : State) :
    tickOpcode op s = exec i s := by
  rw [tickOpcode, h]

/-- Every mode and size but AREG at size B is an instruction (30_encoding R88). -/
theorem instrOfForm_ok (sz : Size) (m : Mode) (d r : RegNum) (h : ¬(m = .areg ∧ sz = .b)) :
    ∃ i, instrOfForm { size := some sz, mode := some m, dreg := d, reg := r } = .ok i := by
  cases sz with
  | b => cases m with
    | areg => exact absurd ⟨rfl, rfl⟩ h
    | _ => exact ⟨_, rfl⟩
  | w => cases m <;> exact ⟨_, rfl⟩
  | l => cases m <;> exact ⟨_, rfl⟩

/-- The opcode word of a legal mode and size is the encoding of an instruction (30_encoding R81, R88). -/
theorem opcodeOf_eq_encodeWord (sz : Size) (m : Mode) (d r : RegNum) (h : ¬(m = .areg ∧ sz = .b))
    (hr : (Form.mk none (some m) 0 r).regFits = true) : ∃ i, opcodeOf sz m d r = encodeWord i := by
  obtain ⟨i, hi⟩ := instrOfForm_ok sz m d r h
  obtain ⟨hsz, hm, hd, hreg⟩ := form_of_instrOfForm hi
  obtain rfl := Option.some.inj hsz
  obtain rfl := Option.some.inj hm
  exact ⟨i, by rw [encodeWord_eq, ← hd, ← hreg hr]⟩

/-- A supported `ea` joins its mode's code and a register number that fits the mode (30_encoding R83). -/
theorem ea_fields : ∀ ea < 64, ∀ m, modeOf (BitVec.ofNat 6 ea) = some m →
    ∃ r : RegNum, ea = m.code <<< 3 ||| r.val ∧ (Form.mk none (some m) 0 r).regFits = true := by
  decide

/-- A pair of the registration's sizes (44 R183) is a size's code, with AREG excluded at size B. -/
theorem compareSizes_size {p : Nat × List Mode} (h : p ∈ compareSizes) :
    ∃ sz : Size, p.1 = sz.code ∧ (sz = .b → Mode.areg ∈ p.2) := by
  simp only [compareSizes, List.mem_cons, List.not_mem_nil, or_false] at h
  rcases h with rfl | rfl | rfl
  · exact ⟨.b, rfl, fun _ => .head _⟩
  · exact ⟨.w, rfl, fun h => by cases h⟩
  · exact ⟨.l, rfl, fun h => by cases h⟩

theorem eaValid_eq_true {ea : BitVec 6} {excl : List Mode} (h : eaValid ea excl = true) :
    ∃ m, modeOf ea = some m ∧ m ∉ excl := by
  unfold eaValid at h
  cases hm : modeOf ea with
  | none => rw [hm] at h; cases h
  | some m => exact ⟨m, rfl, by simpa [hm] using h⟩

/-- Every slot that the COMPARE registration writes is the encoding of an instruction (44 R183). -/
theorem compareSlot_encodes {op : Word} (h : op.toNat ∈ compareSlots) : ∃ i, op = encodeWord i := by
  obtain ⟨d, hd, p, hp, h⟩ := mem_compareSlots.1 h
  obtain ⟨ea, hea, hvalid, hop⟩ := mem_compareSlotsOf.1 h
  obtain ⟨sz, hsz, hexcl⟩ := compareSizes_size hp
  obtain ⟨m, hm, hnot⟩ := eaValid_eq_true hvalid
  obtain ⟨r, rfl, hr⟩ := ea_fields ea hea m hm
  obtain ⟨i, hi⟩ := opcodeOf_eq_encodeWord sz m ⟨d, hd⟩ r (fun e => hnot (e.1 ▸ hexcl e.2)) hr
  refine ⟨i, ?_⟩
  calc
    op = BitVec.ofNat 16 op.toNat := by simp
    _ = opcodeOf sz m ⟨d, hd⟩ r := by
      rw [hop, hsz]
      simp only [opcodeOf, BitVec.ofNat_or, BitVec.or_assoc]
    _ = encodeWord i := hi

/-! ## The builder in closed form -/

/-- The slots that a configuration registers (44 R184, R189). -/
def registeredSlots (classes : List InstrClass) : List Nat := classes.flatMap classSlots

theorem mem_registeredSlots {classes : List InstrClass} {op : Nat} (h : op ∈ registeredSlots classes) :
    op ∈ compareSlots := by
  obtain ⟨c, -, hop⟩ := List.mem_flatMap.1 h
  cases c
  exact hop

/-- The state that a completed `BuildTables` leaves (44 R184). -/
def afterBuild (s : State) : State :=
  { s with
    execTable := writeSlots .illegal .hCmp (registeredSlots s.config.classes) []
    printTable := writeSlots .illegal .pCmp (registeredSlots s.config.classes) []
    built := true }

theorem buildTables_eq {s : State} (h : claimsTwice s.config.classes = false) :
    buildTables s = .next (afterBuild s) := by
  rw [buildTables, if_neg (by simp [h]), afterBuild]
  rcases classes_of_claims h with hc | hc
  · rw [hc]; rfl
  · simp only [hc, registeredSlots, List.flatMap_cons, List.flatMap_nil, List.append_nil, classSlots,
      List.foldl_cons, List.foldl_nil, registerClass, registerCompare, State.clearTables]

theorem buildTables_next_eq {s t : State} (h : buildTables s = .next t) :
    claimsTwice s.config.classes = false ∧ t = afterBuild s := by
  obtain ⟨hc, -⟩ := buildTables_next h
  rw [buildTables_eq hc] at h
  exact ⟨hc, (Result.next.inj h).symm⟩

/-- Building once more changes nothing (44 R184). -/
theorem buildTables_again {s t : State} (h : buildTables s = .next t) : buildTables t = .next t := by
  obtain ⟨hc, rfl⟩ := buildTables_next_eq h
  exact buildTables_eq (s := afterBuild s) hc

/-- In a built table the handler stands only at encodings of instructions (44 R187). -/
theorem built_slot_encodes {s : State} (h : buildTables s = .next s) {op : Word} (hop : s.execAt op = .hCmp) :
    ∃ i, op = encodeWord i := by
  obtain ⟨-, hs⟩ := buildTables_next_eq h
  have hslots : ∀ k ∈ registeredSlots s.config.classes, k < 65536 := fun k hk =>
    compareSlots_lt k (mem_registeredSlots hk)
  rw [State.execAt, hs, afterBuild, writeSlots_read hslots rfl] at hop
  split at hop
  · exact compareSlot_encodes (mem_registeredSlots ‹_›)
  · cases hop

/-! ## What every tick keeps -/

/-- Memory, the tables and the configuration are the same in two states (43 R170). -/
structure SameStore (s t : State) : Prop where
  mem : t.mem = s.mem
  execTable : t.execTable = s.execTable
  printTable : t.printTable = s.printTable
  built : t.built = s.built
  config : t.config = s.config

theorem SameStore.trans {s t u : State} (h : SameStore s t) (h' : SameStore t u) : SameStore s u :=
  ⟨h'.mem.trans h.mem, h'.execTable.trans h.execTable, h'.printTable.trans h.printTable, h'.built.trans h.built,
    h'.config.trans h.config⟩

theorem SameStore.memoryInv {s t : State} (h : SameStore s t) (hs : MemoryInv s) : MemoryInv t := by
  rw [MemoryInv, h.mem]; exact hs

/-- Tables that are what the builder builds stay so. -/
theorem SameStore.keeps_built {s t : State} (h : SameStore s t) (hs : buildTables s = .next s) :
    buildTables t = .next t := by
  obtain ⟨hc, hb⟩ := buildTables_next_eq hs
  rw [buildTables_eq (h.config ▸ hc), afterBuild]
  have he := h.execTable.trans (congrArg State.execTable hb)
  have hp := h.printTable.trans (congrArg State.printTable hb)
  have hbuilt := h.built.trans (congrArg State.built hb)
  simp only [afterBuild, ← h.config] at he hp hbuilt
  rw [← he, ← hp, ← hbuilt]

/-- A tick in state `READ` writes neither memory, the tables nor the configuration. -/
theorem readTick_sameStore {i : Instr} {s t : State} (h : readTick i s = .next t) : SameStore s t := by
  cases ha : s.ea.active with
  | false => simp [readTick, eaPoll, ha] at h
  | true =>
    by_cases hk : s.ea.step.toNat < nSteps s.ea.mode s.ea.size
    · rw [readTick_step i s ha hk] at h
      split at h
      · cases h
      · obtain rfl := Result.next.inj h
        obtain ⟨hmem, hexec, hprint, hbuilt, hconfig⟩ := afterPoll_keeps hk (s := s)
        exact ⟨hmem, hexec, hprint, hbuilt, hconfig⟩
    · rw [readTick_done i s ha (by omega)] at h
      obtain rfl := Result.next.inj h
      exact ⟨rfl, rfl, rfl, rfl, rfl⟩

/-- No tick writes memory, the tables or the configuration (43 R170). -/
theorem exec_sameStore {i : Instr} {s t : State} (h : exec i s = .next t) : SameStore s t := by
  obtain ⟨-, ⟨-, -, hr⟩ | ⟨-, -, hr⟩ | ⟨-, -, rfl⟩ | ⟨-, -, rfl⟩ | ⟨-, rfl⟩⟩ := exec_next_cases h
  · exact SameStore.trans (t := beginRead i s) ⟨rfl, rfl, rfl, rfl, rfl⟩ (readTick_sameStore hr)
  · exact readTick_sameStore hr
  all_goals exact ⟨rfl, rfl, rfl, rfl, rfl⟩

/-! ## What every tick establishes anew -/

/-- The part of the invariant that concerns the instruction in progress and the latch. -/
def TickInv (s : State) : Prop := s.fatal = false ∧ MarkerInv s ∧ InstructionInv s

/-- An operand fetch that has performed a step, begun with a clear ledger. -/
theorem Prog.tickInv {i : Instr} {k : Nat} {s : State} (h : Prog i ⟨0, []⟩ k s) (hk : 0 < k) : TickInv s := by
  obtain ⟨⟨⟨hfatal, hexec⟩, hm, hop, ha, hmode, hreg, hsize, hle⟩, hstep, hledger⟩ := h
  refine ⟨hfatal, ⟨.inr (.inl hm), by simp [ha, hm]⟩, .inr ⟨i, hop, hexec, .inl ?_⟩⟩
  refine ⟨hm, hmode, hreg, hsize, by omega, hle, ?_⟩
  rw [hledger, stepsLedger_clear, hstep]

/-- The ledger of a resolved operand is the one after state `PREFETCH` (43 R164). -/
theorem ledgerAfterPrefetch_eq (c : Cost) (m : Mode) (sz : Size) :
    ledgerAfterPrefetch c m sz =
      Ledger.plus ⟨0, []⟩ (eaCost c m sz + (c.instr + c.prefetch)) (fetchTags m sz ++ [.prefetch]) := by
  simp [ledgerAfterPrefetch, Ledger.plus, compareLog, Nat.add_assoc]

/-- At size B and W the ledger after state `PREFETCH` is the whole one; at L the last tick adds `C_LONG` (41 R138). -/
theorem ledgerAtEnd_eq (c : Cost) (m : Mode) (sz : Size) :
    ledgerAtEnd c m sz = (ledgerAfterPrefetch c m sz).plus (if sz = .l then c.long else 0) [] := by
  simp [ledgerAtEnd, ledgerAfterPrefetch, Ledger.plus, compareCycles]

/-- An operand resolved, of an instruction begun with a clear ledger. -/
theorem Resolved.tickInv {i : Instr} {s : State} (h : Resolved i ⟨0, []⟩ s) : TickInv s := by
  obtain ⟨⟨hfatal, hexec⟩, hop, hm, ha, hledger⟩ := h
  rw [← ledgerAfterPrefetch_eq] at hledger
  by_cases hz : i.size = .l
  · rw [if_pos hz] at hm
    exact ⟨hfatal, ⟨.inr (.inr (.inl hm)), by simp [ha, hm]⟩, .inr ⟨i, hop, hexec, .inr (.inl ⟨hm, hz, hledger⟩)⟩⟩
  · rw [if_neg hz] at hm
    refine ⟨hfatal, ⟨.inr (.inr (.inr hm)), by simp [ha, hm]⟩, .inr ⟨i, hop, hexec, .inr (.inr ⟨hm, ?_⟩)⟩⟩
    rw [hledger, ledgerAtEnd_eq, if_neg hz]
    simp [Ledger.plus]

/-- The first tick of an instruction begun with a clear ledger. -/
theorem Ready.tickInv {i : Instr} {s t : State} (h : Ready i s) (hl : s.ledger = ⟨0, []⟩)
    (ht : exec i s = .next t) : TickInv t := by
  by_cases hk : nSteps i.mode i.size = 0
  · obtain ⟨he, hr⟩ := ready_last h hk
    obtain rfl := Host.Outcome.next.inj (he.symm.trans ht)
    exact (hl ▸ hr).tickInv
  · rcases ready_tick h (Nat.pos_of_ne_zero hk) with he | ⟨he, hp⟩
    · rw [he] at ht; cases ht
    · obtain rfl := Host.Outcome.next.inj (he.symm.trans ht)
      exact (hl ▸ hp).tickInv Nat.one_pos

/-- A later tick of the operand fetch. -/
theorem Prog.exec_tickInv {i : Instr} {k : Nat} {s t : State} (h : Prog i ⟨0, []⟩ k s)
    (ht : exec i s = .next t) : TickInv t := by
  have hle : k ≤ nSteps i.mode i.size := by
    obtain ⟨⟨-, -, -, -, -, -, -, hle⟩, hstep, -⟩ := h
    omega
  obtain hk | rfl := Nat.lt_or_eq_of_le hle
  · rcases prog_tick h hk with he | ⟨he, hp⟩
    · rw [he] at ht; cases ht
    · obtain rfl := Host.Outcome.next.inj (he.symm.trans ht)
      exact hp.tickInv k.succ_pos
  · obtain ⟨he, hr⟩ := prog_last h
    obtain rfl := Host.Outcome.next.inj (he.symm.trans ht)
    exact hr.tickInv

/-- The last tick of a long-word compare (43 R165). -/
theorem Resolved.exec_tickInv {i : Instr} {s t : State} (h : Resolved i ⟨0, []⟩ s) (hz : i.size = .l)
    (ht : exec i s = .next t) : TickInv t := by
  obtain rfl := Host.Outcome.next.inj ((resolved_long h hz).symm.trans ht)
  obtain ⟨⟨hfatal, hexec⟩, hop, -, ha, hledger⟩ := h
  rw [← ledgerAfterPrefetch_eq] at hledger
  refine ⟨hfatal, ⟨.inr (.inr (.inr rfl)), by simp [ha]⟩, .inr ⟨i, hop, hexec, .inr (.inr ⟨rfl, ?_⟩)⟩⟩
  simp [ledgerAtEnd_eq, hz, hledger, Ledger.plus]

theorem Prog.opcode_eq {i : Instr} {l : Ledger} {k : Nat} {s : State} (h : Prog i l k s) :
    s.opcode = some (encodeWord i) := by
  obtain ⟨⟨-, -, hop, -⟩, -⟩ := h
  exact hop

theorem Resolved.opcode_eq {i : Instr} {l : Ledger} {s : State} (h : Resolved i l s) :
    s.opcode = some (encodeWord i) := by
  obtain ⟨-, hop, -⟩ := h
  exact hop

/-- In state `READ` the invariant says how far the operand fetch is. -/
theorem InstructionInv.prog {s : State} (h : InstructionInv s) (hf : s.fatal = false) (hm : s.marker = .read)
    (ha : s.ea.active = true) : ∃ i, Prog i ⟨0, []⟩ s.ea.step.toNat s := by
  obtain hn | ⟨i, hop, hexec, hread | ⟨hl, -⟩ | ⟨hl, -⟩⟩ := h
  · simp [hm] at hn
  · obtain ⟨-, hmode, hreg, hsize, -, hle, hledger⟩ := hread
    exact ⟨i, ⟨⟨hf, hexec⟩, hm, hop, ha, hmode, hreg, hsize, hle⟩, rfl, by rw [hledger, stepsLedger_clear]⟩
  · simp [hm] at hl
  · simp [hm] at hl

/-- In state `LONG` the invariant says that a long-word operand is resolved. -/
theorem InstructionInv.resolved {s : State} (h : InstructionInv s) (hf : s.fatal = false) (hm : s.marker = .long)
    (ha : s.ea.active = false) : ∃ i, Resolved i ⟨0, []⟩ s ∧ i.size = .l := by
  obtain hn | ⟨i, hop, hexec, ⟨hl, -⟩ | ⟨-, hz, hledger⟩ | ⟨hl, -⟩⟩ := h
  · simp [hm] at hn
  · simp [hm] at hl
  · exact ⟨i, ⟨⟨hf, hexec⟩, hop, by rw [if_pos hz, hm], ha, by rw [hledger, ledgerAfterPrefetch_eq]⟩, hz⟩
  · simp [hm] at hl

/-! ## Every step keeps the invariant -/

theorem tablesInv_of_built {s : State} (hb : s.built = true) : TablesInv s ↔ buildTables s = .next s := by
  rw [TablesInv, if_pos hb]

/-- A tick's own part of the invariant, with the stores as the tick found them, is the whole invariant. -/
theorem TickInv.inv {s t : State} (h : TickInv t) (hs : SameStore s t) (hmem : MemoryInv s)
    (htab : buildTables s = .next s) (hb : s.built = true) : Inv t := by
  obtain ⟨hfatal, hmarker, hinstr⟩ := h
  exact ⟨hfatal, hs.memoryInv hmem, (tablesInv_of_built (hs.built.trans hb)).2 (hs.keeps_built htab), hmarker, hinstr⟩

/-- The boot step builds the tables and begins no instruction. -/
theorem Inv.boot {s t : State} (h : Inv s) (hb : s.built = false) (ht : step s = .next t) : Inv t := by
  obtain ⟨hfatal, hmem, htab, hmarker, -⟩ := h
  rw [TablesInv, if_neg (by simp [hb])] at htab
  obtain ⟨-, -, hnone⟩ := htab
  rw [step_boot s hfatal hb] at ht
  have hbuild := Result.toOutcome_eq_next ht
  obtain ⟨-, rfl⟩ := buildTables_next_eq hbuild
  exact ⟨hfatal, hmem, (tablesInv_of_built rfl).2 (buildTables_again hbuild), hmarker, .inl hnone⟩

/-- At an instruction boundary the step is the first tick of an instruction, with the ledger clear. -/
theorem Inv.first {s t : State} (h : Inv s) (hb : s.built = true) (hm : s.marker = .none ∨ s.marker = .finished)
    (ht : step s = .next t) : Inv t := by
  obtain ⟨hfatal, hmem, htab, ⟨-, hactive⟩, -⟩ := h
  rw [tablesInv_of_built hb] at htab
  have ha : s.ea.active = false := by
    rw [← Bool.not_eq_true, hactive]
    rcases hm with hm | hm <;> simp [hm]
  cases hop : s.execAt s.fetchOpcode with
  | illegal =>
    obtain ⟨hfault, hstep⟩ := step_illegal s hfatal hb ha hm hop
    rw [hstep, hfault] at ht; cases ht
  | hCmp =>
    obtain ⟨i, hi⟩ := built_slot_encodes htab hop
    rw [step_first s hfatal hb ha hm hop, hi, tickOpcode_of_decode (decodeWord_encodeWord i)] at ht
    have hready : Ready i (beginInstruction s) := ⟨⟨hfatal, hi ▸ hop⟩, rfl, ha⟩
    have hbegin : SameStore s (beginInstruction s) := ⟨rfl, rfl, rfl, rfl, rfl⟩
    exact (hready.tickInv rfl ht).inv (hbegin.trans (exec_sameStore ht)) hmem htab hb

/-- In mid-instruction the step is one more tick of the instruction that the ghost copy of the opcode names. -/
theorem Inv.later {s t : State} {i : Instr} (h : Inv s) (hb : s.built = true)
    (hm : s.marker = .read ∨ s.marker = .prefetch ∨ s.marker = .long) (hop : s.opcode = some (encodeWord i))
    (htick : exec i s = .next t → TickInv t) (ht : step s = .next t) : Inv t := by
  obtain ⟨hfatal, hmem, htab, -⟩ := h
  rw [tablesInv_of_built hb] at htab
  rw [step_later s _ hfatal hb hm hop, tickOpcode_of_decode (decodeWord_encodeWord i)] at ht
  exact (htick ht).inv (exec_sameStore ht) hmem htab hb

/-- Settles O9: the boot step, the first tick, the ticks of the operand fetch, and the last tick at size L. -/
theorem everyStepKeepsTheInvariant : Obligations.EveryStepKeepsTheInvariant := by
  intro s t h ht
  obtain ⟨hfatal, -, -, ⟨hmarker, hactive⟩, hinstr⟩ := id h
  cases hb : s.built with
  | false => exact h.boot hb ht
  | true =>
    rcases hmarker with hm | hm | hm | hm
    · exact h.first hb (.inl hm) ht
    · obtain ⟨i, hp⟩ := hinstr.prog hfatal hm (hactive.2 hm)
      exact h.later hb (.inl hm) hp.opcode_eq hp.exec_tickInv ht
    · have ha : s.ea.active = false := by rw [← Bool.not_eq_true, hactive, hm]; simp
      obtain ⟨i, hr, hz⟩ := hinstr.resolved hfatal hm ha
      exact h.later hb (.inr (.inr hm)) hr.opcode_eq (hr.exec_tickInv hz) ht
    · exact h.first hb (.inr hm) ht

/-! ## Reset and boot -/

/-- Settles O5: each element is a field of the reset state, and both tables are empty, every slot `ILLEGAL`. -/
theorem resetGivesEveryStatedValue : Obligations.ResetGivesEveryStatedValue := by
  intro u c m
  exact ⟨rfl, rfl, rfl, rfl, rfl, fun op => ⟨rfl, rfl⟩, rfl, rfl, rfl, rfl, rfl, rfl, rfl, rfl, rfl, rfl, rfl⟩

theorem resetWith_inv (u : Unspecified) (c : Config) (m : List Host.Cell) (hm : Memory.wf m = true) :
    Inv (State.resetWith u c m) := by
  have htables : TablesInv (State.resetWith u c m) := ⟨rfl, rfl, rfl⟩
  have hmarker : MarkerInv (State.resetWith u c m) := ⟨.inl rfl, by simp [State.resetWith]⟩
  exact ⟨rfl, hm, htables, hmarker, .inl rfl⟩

/-- Settles O8: at reset the tables are empty, nothing is in progress and no latch is set. -/
theorem resetStatesMeetTheInvariant : Obligations.ResetStatesMeetTheInvariant :=
  ⟨resetWith_inv, resetWith_inv _ _ _ Memory.wf_reset⟩

/-- Settles O7: the first step is the builder, whose result in closed form differs from reset only in the tables. -/
theorem firstStepBuildsTheTables : Obligations.FirstStepBuildsTheTables := by
  intro u c m hc
  have hclaims : claimsTwice (State.resetWith u c m).config.classes = false := by
    rw [show (State.resetWith u c m).config.classes = [.compare] from hc]; exact claimsTwice_one
  have hbuild := buildTables_eq hclaims
  refine ⟨afterBuild (State.resetWith u c m), ?_, buildTables_again hbuild, rfl⟩
  rw [step_boot _ rfl rfl, hbuild, Result.toOutcome_next]

/-! ## After a `Fatal` -/

/-- With the latch set no opcode can be ticked (43 R161, 70 R267). -/
theorem compareTick_afterFatal {s : State} (h : s.fatal = true) (op : Word) (f : Form) :
    compareTick op f s = .refused .afterFatal := by
  rw [compareTick, if_pos h]

theorem step_afterFatal {s : State} (h : s.fatal = true) : step s = .refused .afterFatal := by
  rw [step, machineStep, if_pos h]

/-- A lookup after the build (44 R185). -/
theorem dispatch_built {s : State} (h : s.built = true) (op : Word) :
    dispatch op s = if s.execAt op = .illegal then .illegal op s else .next s := by
  rw [dispatch, if_pos h]
  cases s.execAt op <;> rfl

theorem printDispatch_built {s : State} (h : s.built = true) (op : Word) :
    printDispatch op s = if s.printAt op = .illegal then .illegal op s else .next s := by
  rw [printDispatch, if_pos h]
  cases s.printAt op <;> rfl

theorem printDispatch_unbuilt {s : State} (h : s.built = false) (op : Word) :
    printDispatch op s = .refused .dispatchBeforeBuild := by
  rw [printDispatch, if_neg (by simp [h])]

theorem dispatch_unbuilt {s : State} (h : s.built = false) (op : Word) :
    dispatch op s = .refused .dispatchBeforeBuild := by
  rw [dispatch, if_neg (by simp [h])]

/-- A lookup that answers a next state answers the state it was given (44 R185). -/
theorem dispatch_next {op : Word} {s t : State} (h : dispatch op s = .next t) : t = s := by
  cases hb : s.built with
  | false => rw [dispatch_unbuilt hb] at h; cases h
  | true =>
    rw [dispatch_built hb] at h
    split at h
    · cases h
    · exact (Result.next.inj h).symm

theorem printDispatch_next {op : Word} {s t : State} (h : printDispatch op s = .next t) : t = s := by
  cases hb : s.built with
  | false => rw [printDispatch_unbuilt hb] at h; cases h
  | true =>
    rw [printDispatch_built hb] at h
    split at h
    · cases h
    · exact (Result.next.inj h).symm

/-- `render` does not look at the latch (70 R267). -/
theorem render_fatal (a : Long) (op : Word) (s : State) (b : Bool) :
    render a op { s with fatal := b } = render a op s := by
  rcases Bool.eq_false_or_eq_true s.built with hb | hb
  · have hp : ({ s with fatal := b } : State).printAt op = s.printAt op := rfl
    rw [render, render, printDispatch_built hb, printDispatch_built (s := { s with fatal := b }) hb, hp]
    cases s.printAt op <;> rfl
  · rw [render, render, printDispatch_unbuilt hb, printDispatch_unbuilt (s := { s with fatal := b }) hb]

/-- What an action allowed only between instructions answers is the state it is to give. -/
theorem atBoundary_next_eq {r : Refusal} {s t u : State} (h : atBoundary r s u = .next t) : t = u :=
  (atBoundary_next_iff.1 h).2.symm

/-- A table write that is not refused is done (70 R265). -/
theorem tableWrite_next_eq {s t u : State} (h : tableWrite s u = .next t) : t = u := by
  unfold tableWrite at h
  split at h
  · cases h
  · exact (Result.next.inj h).symm

/-- Only reset leaves the latch clear once it is set: ticks are refused, and no other action writes it (70 R250). -/
theorem act_keeps_fatal {x : Action} {s t : State} (hf : s.fatal = true) (h : act x s = .next t) :
    (∃ u, x = .reset u) ∨ t.fatal = true := by
  cases x with
  | reset u => exact .inl ⟨u, rfl⟩
  | buildTables =>
    obtain ⟨-, rfl⟩ := buildTables_next_eq h
    exact .inr hf
  | writeExec | writePrint =>
    obtain rfl := tableWrite_next_eq h
    exact .inr hf
  | lookup => exact .inr (dispatch_next h ▸ hf)
  | lookupPrint => exact .inr (printDispatch_next h ▸ hf)
  | tick op => rw [act, executePort, compareTick_afterFatal hf] at h; cases h
  | clearLedger | reloadMarker | writeMarker | writeD | writeA | writeFlags | writePc | writeEa =>
    obtain rfl := atBoundary_next_eq h
    exact .inr hf
  | busWrite =>
    obtain rfl := Result.next.inj h
    exact .inr hf

/-- Settles O6: the latch is the first check of a tick and of a step, lookups and `render` do not read it, and no
action but reset writes it. -/
theorem onlyResetClearsFatal : Obligations.OnlyResetClearsFatal := by
  intro s hf
  refine ⟨fun op => compareTick_afterFatal hf op _, step_afterFatal hf, fun hb op => ?_, fun a op => ?_,
    fun x t h ht => ?_, fun u => ⟨_, rfl, rfl⟩⟩
  · exact ⟨dispatch_built hb op, printDispatch_built hb op⟩
  · exact (render_fatal a op s false).symm
  · refine (act_keeps_fatal hf h).resolve_right ?_
    simp [ht]

/-! ## The `Fatal` of the first tick -/

/-- The first tick of a dispatched opcode begins the operand fetch, and a `Fatal` there is the tick's answer
(43 R162, 60 R222). -/
theorem executePort_fatal {op : Word} {s t : State} {r : FatalReason} (hf : s.fatal = false)
    (hop : s.execAt op = .hCmp) (hm : s.marker = .none) (h : eaBeginRead (formOf op) s = .fatal r t) :
    executePort op s = .fatal r t := by
  rw [executePort, compareTick, if_neg (by simp [hf]), hop, hm]
  simp only
  rw [untilConsumed_none op (formOf op) 0 s hm, h]

/-- `EaBeginRead` checks the mode first (40 R100). -/
theorem eaBeginRead_noMode {f : Form} {s : State} (ha : s.ea.active = false) (hm : f.mode = none) :
    eaBeginRead f s = .fatal .unsupportedEaMode (s.raiseFatal .unsupportedEaMode) := by
  simp [eaBeginRead, ha, hm]

/-- Then the size (40 R100). -/
theorem eaBeginRead_noSize {f : Form} {s : State} (ha : s.ea.active = false) (hm : f.mode ≠ none)
    (hz : f.size = none) : eaBeginRead f s = .fatal .badSizeField (s.raiseFatal .badSizeField) := by
  obtain ⟨m, hm⟩ := Option.ne_none_iff_exists'.1 hm
  simp [eaBeginRead, ha, hm, hz]

/-- Then AREG at size B (40 R100). -/
theorem eaBeginRead_aregByte {f : Form} {s : State} (ha : s.ea.active = false) (hm : f.mode = some .areg)
    (hz : f.size = some .b) : eaBeginRead f s = .fatal .unsupportedEaMode (s.raiseFatal .unsupportedEaMode) := by
  simp [eaBeginRead, ha, hm, hz]

/-- Settles O38: the three checks of `EaBeginRead` in order, each the answer of the first tick. -/
theorem fatalTickLatchesAndChangesNothingElse : Obligations.FatalTickLatchesAndChangesNothingElse := by
  intro op s hf hop hm ha
  have hsize {c : BitVec 2} (hc : op.extractLsb' 6 2 = c) : (formOf op).size = sizeOfCode c := congrArg sizeOfCode hc
  refine ⟨fun h => ?_, fun h hc => ?_, fun h hc => ?_⟩
  · exact executePort_fatal hf hop hm (eaBeginRead_noMode ha h)
  · exact executePort_fatal hf hop hm (eaBeginRead_noSize ha h (hsize hc))
  · exact executePort_fatal hf hop hm (eaBeginRead_aregByte ha h (hsize hc))

/-! ## Steps and ticks by the protocol -/

/-- Settles O16: the step at a boundary and the step in mid-instruction both tick the decoded instruction. -/
theorem stepRunsTheDecodedInstruction : Obligations.StepRunsTheDecodedInstruction := by
  constructor
  · intro s i hf hb ha hm hdec hop
    rw [step_first s hf hb ha hm hop, tickOpcode_of_decode hdec]
    rfl
  · intro s i op hf hb hm hop hdec
    rw [step_later s op hf hb hm hop, tickOpcode_of_decode hdec]

theorem Marker.inProgress_iff (m : Marker) : m.inProgress = true ↔ m = .read ∨ m = .prefetch ∨ m = .long := by
  cases m <;> decide

/-- A later tick with another opcode than the first tick's (70 R262). -/
theorem dispatchedTick_opcodeChanged {i : Instr} {s : State} (hm : s.marker.inProgress = true)
    (hop : s.opcode ≠ some (encodeWord i)) : dispatchedTick i s = .refused .opcodeChanged := by
  rcases (Marker.inProgress_iff _).1 hm with hm | hm | hm <;> simp [dispatchedTick, hm, hop]

theorem dispatchedTick_badMarker {i : Instr} {s : State}
    (hm : s.marker = .bad4 ∨ s.marker = .bad5 ∨ s.marker = .bad6) : dispatchedTick i s = .refused .badMarker := by
  rcases hm with hm | hm | hm <;> simp [dispatchedTick, hm]

/-- Settles O37: the two guards of R161 before the marker is read, then the marker, then the ghost copy. -/
theorem ticksOutsideTheProtocolAreRefused : Obligations.TicksOutsideTheProtocolAreRefused := by
  intro i s
  refine ⟨fun hf => ?_, fun hf hop => ?_, fun hd hm => ?_, fun hd hm hop => ?_⟩
  · rw [exec_eq, compareTick_afterFatal hf, Result.toOutcome_refused]
  · rw [exec_eq, compareTick, if_neg (by simp [hf]), hop, Result.toOutcome_refused]
  · rw [exec_dispatched i s hd, dispatchedTick_badMarker hm, Result.toOutcome_refused]
  · rw [exec_dispatched i s hd, dispatchedTick_opcodeChanged hm hop, Result.toOutcome_refused]

/-- Settles O54: every one of these actions is guarded by `atBoundary`, whose three answers go by the marker. -/
theorem midInstructionActionsAreRefused : Obligations.MidInstructionActionsAreRefused := by
  intro s
  refine ⟨fun hm => ?_, fun hm => ?_, fun hm => ?_⟩
  · have h := atBoundary_inProgress hm
    exact ⟨fun _ _ => ⟨h _ _, h _ _⟩, fun _ => h _ _, fun _ => h _ _, fun _ => h _ _, fun _ => h _ _, h _ _, h _ _⟩
  · have h := atBoundary_boundary hm
    exact ⟨fun _ _ => ⟨h _ _, h _ _⟩, fun _ => h _ _, fun _ => h _ _, fun _ => h _ _, fun _ => h _ _, h _ _, h _ _⟩
  · have h := atBoundary_badCode hm
    exact ⟨fun _ _ => ⟨h _ _, h _ _⟩, fun _ => h _ _, fun _ => h _ _, fun _ => h _ _, fun _ => h _ _, h _ _, h _ _⟩

end Sys2Proof.Machine

/-! PROOFS. The statements of the memory (20_memory): how a step of the invariant may stop, that a run's totals do not
depend on what memory holds, the refusal of an odd access, the data reads, the words of memory, what other agents and
the accountant do, and the record that `render` peeks. -/

namespace Sys2Proof.Machine

/-! ## A tick of the invariant goes on or meets an odd access -/

/-- The two answers of a tick within the protocol of 70 R261 to R267 (20_memory R55). -/
def NextOrOdd (o : Host.Outcome State Fault Refusal) : Prop := (∃ t, o = .next t) ∨ o = .refused .oddWordAccess

theorem NextOrOdd.of_next {o : Host.Outcome State Fault Refusal} {t : State} (h : o = .next t) : NextOrOdd o :=
  .inl ⟨t, h⟩

/-- The first tick of an instruction. -/
theorem Ready.nextOrOdd {i : Instr} {s : State} (h : Ready i s) : NextOrOdd (exec i s) := by
  by_cases hk : nSteps i.mode i.size = 0
  · obtain ⟨he, -⟩ := ready_last h hk
    exact .of_next he
  · rcases ready_tick h (Nat.pos_of_ne_zero hk) with he | ⟨he, -⟩
    · exact .inr he
    · exact .of_next he

theorem Prog.le_nSteps {i : Instr} {l : Ledger} {k : Nat} {s : State} (h : Prog i l k s) :
    k ≤ nSteps i.mode i.size := by
  obtain ⟨⟨-, -, -, -, -, -, -, hle⟩, hstep, -⟩ := h
  omega

/-- A later tick of the operand fetch. -/
theorem Prog.nextOrOdd {i : Instr} {l : Ledger} {k : Nat} {s : State} (h : Prog i l k s) : NextOrOdd (exec i s) := by
  obtain hk | rfl := Nat.lt_or_eq_of_le h.le_nSteps
  · rcases prog_tick h hk with he | ⟨he, -⟩
    · exact .inr he
    · exact .of_next he
  · obtain ⟨he, -⟩ := prog_last h
    exact .of_next he

/-- Outside state `READ` no resolution is active (10_state R33). -/
theorem MarkerInv.inactive {s : State} (h : MarkerInv s) (hm : s.marker ≠ .read) : s.ea.active = false := by
  obtain ⟨-, hactive⟩ := h
  rw [← Bool.not_eq_true, hactive]
  exact hm

theorem Marker.ne_read_of_boundary {m : Marker} (h : m = .none ∨ m = .finished) : m ≠ .read := by
  rcases h with rfl | rfl <;> decide

/-- At a boundary of the invariant a dispatched opcode is the encoding of an instruction that is ready, and the step is
its first tick (44 R187, 70 R252). -/
theorem Inv.step_dispatched {s : State} (h : Inv s) (hb : s.built = true)
    (hm : s.marker = .none ∨ s.marker = .finished) (hop : s.execAt s.fetchOpcode = .hCmp) :
    ∃ i, Ready i (beginInstruction s) ∧ step s = exec i (beginInstruction s) := by
  obtain ⟨hfatal, -, htab, hmarker, -⟩ := h
  have ha := hmarker.inactive (Marker.ne_read_of_boundary hm)
  obtain ⟨i, hi⟩ := built_slot_encodes ((tablesInv_of_built hb).1 htab) hop
  refine ⟨i, ⟨⟨hfatal, hi ▸ hop⟩, rfl, ha⟩, ?_⟩
  rw [step_first s hfatal hb ha hm hop, hi, tickOpcode_of_decode (decodeWord_encodeWord i)]

/-- In mid-instruction the step is a tick of the instruction that the ghost copy names (70 R262). -/
theorem step_inProgress {i : Instr} {s : State} (hf : s.fatal = false) (hb : s.built = true)
    (hm : s.marker = .read ∨ s.marker = .prefetch ∨ s.marker = .long) (hop : s.opcode = some (encodeWord i)) :
    step s = exec i s := by
  rw [step_later s _ hf hb hm hop, tickOpcode_of_decode (decodeWord_encodeWord i)]

/-- A boundary of the invariant stops on an illegal opcode or an odd access only. -/
theorem Inv.step_boundary {s : State} (h : Inv s) (hb : s.built = true)
    (hm : s.marker = .none ∨ s.marker = .finished) :
    NextOrOdd (step s) ∨ (s.execAt s.fetchOpcode = .illegal ∧ step s = .fault (.illegal s.fetchOpcode)) := by
  cases hop : s.execAt s.fetchOpcode with
  | hCmp =>
    obtain ⟨i, hready, hstep⟩ := h.step_dispatched hb hm hop
    exact .inl (hstep ▸ hready.nextOrOdd)
  | illegal =>
    obtain ⟨hfatal, -, -, hmarker, -⟩ := h
    have ha := hmarker.inactive (Marker.ne_read_of_boundary hm)
    obtain ⟨hfault, hstep⟩ := step_illegal s hfatal hb ha hm hop
    exact .inr ⟨rfl, hstep.trans hfault⟩

/-- In mid-instruction a step of the invariant stops on an odd access only. -/
theorem Inv.step_midInstruction {s : State} (h : Inv s) (hb : s.built = true)
    (hm : s.marker = .read ∨ s.marker = .long) : NextOrOdd (step s) := by
  obtain ⟨hfatal, -, -, hmarker, hinstr⟩ := h
  rcases hm with hm | hm
  · obtain ⟨-, hactive⟩ := hmarker
    obtain ⟨i, hp⟩ := hinstr.prog hfatal hm (hactive.2 hm)
    rw [step_inProgress hfatal hb (.inl hm) hp.opcode_eq]
    exact hp.nextOrOdd
  · obtain ⟨i, hr, hz⟩ := hinstr.resolved hfatal hm (hmarker.inactive (by simp [hm]))
    rw [step_inProgress hfatal hb (.inr (.inr hm)) hr.opcode_eq]
    exact .of_next (resolved_long hr hz)

/-- Settles O10: before the build the builder decides, and after it the four markers of the invariant do. -/
theorem stepStopsOnlyWhereTheSpecSays : Obligations.StepStopsOnlyWhereTheSpecSays := by
  intro s h
  obtain ⟨hfatal, -, -, ⟨hmarker, -⟩, -⟩ := id h
  cases hb : s.built with
  | false =>
    rw [step_boot s hfatal hb]
    cases hc : claimsTwice s.config.classes with
    | false => exact .inl ⟨_, by rw [buildTables_eq hc, Result.toOutcome_next]⟩
    | true => exact .inr (.inr (.inr ⟨rfl, rfl, by rw [buildTables_claimed hc, Result.toOutcome_refused]⟩))
  | true =>
    have hstep : NextOrOdd (step s) ∨ ((s.marker = .none ∨ s.marker = .finished) ∧
        s.execAt s.fetchOpcode = .illegal ∧ step s = .fault (.illegal s.fetchOpcode)) := by
      rcases hmarker with hm | hm | hm | hm
      · exact (h.step_boundary hb (.inl hm)).imp_right fun hi => ⟨.inl hm, hi⟩
      · exact .inl (h.step_midInstruction hb (.inl hm))
      · exact .inl (h.step_midInstruction hb (.inr hm))
      · exact (h.step_boundary hb (.inr hm)).imp_right fun hi => ⟨.inr hm, hi⟩
    rcases hstep with (hnext | hodd) | ⟨hm, hop, hfault⟩
    · exact .inl hnext
    · exact .inr (.inr (.inl hodd))
    · exact .inr (.inl ⟨rfl, hm, hop, hfault⟩)

/-! ## Runs over any memory -/

/-- A run of `i` begun with ledger `l` ends `FINISHED` with the instruction's own cycles and log added (41 R138), or is
refused on an odd access. -/
def RunEnds (i : Instr) (c : Cost) (l : Ledger) (o : Host.Outcome State Fault Refusal) : Prop :=
  (∃ t, o = .next t ∧ t.marker = .finished ∧
    t.ledger = l.plus (compareCycles c i.mode i.size) (compareLog i.mode i.size)) ∨ o = .refused .oddWordAccess

/-- The ticks left once the operand is resolved: one at size L, none at B and W (43 R164, R165). -/
theorem Resolved.runEnds {i : Instr} {l : Ledger} {s : State} {ms : List (List Host.Cell)} (h : Resolved i l s)
    (hms : ms.length = if i.size = .l then 1 else 0) : RunEnds i s.config.cost l (execTicksWith i ms s) := by
  by_cases hz : i.size = .l
  · rw [if_pos hz] at hms
    obtain ⟨m, rfl⟩ := List.length_eq_one_iff.1 hms
    have hlast := resolved_long (s := { s with mem := m }) h hz
    obtain ⟨-, -, -, -, hledger⟩ := h
    refine .inl ⟨_, by rw [execTicksWith, hlast]; rfl, rfl, ?_⟩
    simp [hledger, Ledger.plus, compareCycles, compareLog, hz, Nat.add_assoc]
  · rw [if_neg hz] at hms
    obtain rfl := List.length_eq_zero_iff.1 hms
    obtain ⟨-, -, hm, -, hledger⟩ := h
    rw [if_neg hz] at hm
    refine .inl ⟨s, rfl, hm, ?_⟩
    simp [hledger, Ledger.plus, compareCycles, compareLog, hz, Nat.add_assoc]

/-- The ticks left after `k` steps: how far an operand fetch is does not depend on the memory (41 R137). -/
theorem Prog.runEnds {i : Instr} {l : Ledger} {k : Nat} {s : State} {ms : List (List Host.Cell)} (h : Prog i l k s)
    (hms : ms.length + k = compareTicks i.mode i.size) : RunEnds i s.config.cost l (execTicksWith i ms s) := by
  have hle := h.le_nSteps
  induction ms generalizing k s with
  | nil => rw [List.length_nil, compareTicks] at hms; omega
  | cons m ms ih =>
    have hmem : Prog i l k { s with mem := m } := h
    rw [List.length_cons] at hms
    rw [execTicksWith]
    obtain hk | rfl := Nat.lt_or_eq_of_le hle
    · rcases prog_tick hmem hk with he | ⟨he, hp⟩
      · rw [he]; exact .inr rfl
      · have hrest := ih hp (by omega) hp.le_nSteps
        obtain ⟨-, -, -, -, hconfig⟩ := afterPoll_keeps hk (s := { s with mem := m })
        rw [hconfig] at hrest
        rw [he]; exact hrest
    · obtain ⟨he, hr⟩ := prog_last hmem
      rw [he]
      exact hr.runEnds (by rw [compareTicks] at hms; omega)

/-- The first tick is the tick of an operand fetch that `EaBeginRead` has just begun (43 R162). -/
theorem Ready.exec_eq_beginRead {i : Instr} {s : State} (h : Ready i s) : exec i s = exec i (beginRead i s) := by
  obtain ⟨hd, -⟩ := id h
  obtain ⟨hf, -⟩ := beginRead_prog hd
  rw [exec_ready i s h, exec_fetching i _ hf]

theorem compareTicks_pos (m : Mode) (sz : Size) : 0 < compareTicks m sz := by
  rw [compareTicks]
  omega

/-- Settles O22: `EaBeginRead` commutes with a change of memory, and from there the run is that of an operand fetch. -/
theorem totalsDoNotDependOnData : Obligations.TotalsDoNotDependOnData := by
  intro i s ms h hms
  have hbegin : execTicksWith i ms s = execTicksWith i ms (beginRead i s) := by
    cases ms with
    | nil => exact absurd hms (Nat.ne_of_lt (compareTicks_pos _ _))
    | cons m ms =>
      have hmem : Ready i { s with mem := m } := h
      rw [execTicksWith, execTicksWith, hmem.exec_eq_beginRead]
      rfl
  obtain ⟨hd, -⟩ := h
  rw [hbegin]
  refine ((beginRead_prog hd).runEnds hms).imp_left ?_
  rintro ⟨t, ht, hm, hledger⟩
  exact ⟨t, ht, hm, congrArg Ledger.cycles hledger, congrArg Ledger.log hledger⟩

/-! ## The steps of an operand fetch in sequence -/

/-- The state after the first `k` steps of an operand fetch, when none of them is refused. -/
def afterPolls (m : Mode) (sz : Size) : Nat → State → State
  | 0, s => s
  | k + 1, s => afterPoll m sz k (afterPolls m sz k s)

theorem execTicks_refused {i : Instr} {a b : Nat} {s : State} {r : Refusal} (h : execTicks i a s = .refused r)
    (hab : a ≤ b) : execTicks i b s = .refused r := by
  obtain ⟨c, rfl⟩ := Nat.exists_eq_add_of_le hab
  rw [execTicks_add, h]

theorem execTicks_succ_of_next {i : Instr} {k : Nat} {s t : State} (h : execTicks i k s = .next t) :
    execTicks i (k + 1) s = exec i t := by
  rw [execTicks_add, h]
  simp only [execTicks]
  cases exec i t <;> rfl

/-- `k` ticks of an operand fetch perform its first `k` steps, or meet an odd access among them. -/
theorem Prog.execTicks_steps {i : Instr} {l : Ledger} {s : State} (h : Prog i l 0 s) {k : Nat}
    (hk : k ≤ nSteps i.mode i.size) :
    execTicks i k s = .refused .oddWordAccess ∨
      (execTicks i k s = .next (afterPolls i.mode i.size k s) ∧ Prog i l k (afterPolls i.mode i.size k s)) := by
  induction k with
  | zero => exact .inr ⟨rfl, h⟩
  | succ k ih =>
    rcases ih (Nat.le_of_succ_le hk) with he | ⟨he, hp⟩
    · exact .inl (execTicks_refused he k.le_succ)
    · rw [execTicks_succ_of_next he]
      exact prog_tick hp hk

/-- One odd access among the steps refuses every run that is long enough to reach it (20_memory R55, 43 R175). -/
theorem Prog.execTicks_odd {i : Instr} {l : Ledger} {s : State} (h : Prog i l 0 s) {k n : Nat}
    (hk : k < nSteps i.mode i.size) (hodd : stepOdd i.mode i.size k (afterPolls i.mode i.size k s) = true)
    (hn : k < n) : execTicks i n s = .refused .oddWordAccess := by
  rcases h.execTicks_steps (Nat.le_of_lt hk) with he | ⟨he, hf, hstep, -⟩
  · exact execTicks_refused he (Nat.le_of_lt hn)
  · refine execTicks_refused (a := k + 1) ?_ hn
    rw [execTicks_succ_of_next he, exec_fetching_step i _ hf (by omega), hstep, if_pos hodd]

/-! ## The data reads of an operand in memory -/

/-- The number of steps before the first data read, in the modes whose operand is in memory (40 R102). -/
def addressSteps : Mode → Nat
  | .predec | .disp16 | .absW => 1
  | .index | .absL => 2
  | .dreg | .areg | .ind | .postinc | .imm => 0

/-- The steps of an operand in memory compute its address and then read its data (40 R102). -/
theorem nSteps_inMemory {m : Mode} (h : Mode.inMemory m = true) (sz : Size) :
    nSteps m sz = addressSteps m + (dataTags sz).length := by
  cases m with
  | dreg | areg | imm => cases h
  | ind | postinc | predec | disp16 | index | absW | absL => cases sz <;> rfl

/-- The first data read uses the latched address in the modes that have computed one (40 R107 to R111). -/
theorem firstRead_latched {m : Mode} (h : 0 < addressSteps m) (sz : Size) (s : State) :
    stepState m sz (addressSteps m) s = afterFirstRead sz s.ea.addr s ∧
      stepOdd m sz (addressSteps m) s = (!(sz == .b) && isOdd s.ea.addr) := by
  cases m with
  | dreg | areg | ind | postinc | imm => cases h
  | predec | disp16 | index | absW | absL => exact ⟨rfl, rfl⟩

/-- The second word read is at the latched address in every mode, and only POSTINC does more (40 R106). -/
theorem secondRead_latched {m : Mode} (h : Mode.inMemory m = true) (s : State) :
    stepState m .l (addressSteps m + 1) s =
        (if m = .postinc then (afterSecondRead s).writeA s.ea.reg (s.readA s.ea.reg + 4) else afterSecondRead s) ∧
      stepOdd m .l (addressSteps m + 1) s = isOdd s.ea.addr := by
  cases m with
  | dreg | areg | imm => cases h
  | ind | postinc | predec | disp16 | index | absW | absL => exact ⟨rfl, rfl⟩

theorem not_accessible_iff {sz : Size} {a : Long} : (!(sz == .b) && isOdd a) = true ↔ ¬Accessible sz a := by
  simp [Accessible]

/-- Settles O32: the five modes have latched their address when the steps left are the data reads. -/
theorem firstDataReadTick : Obligations.FirstDataReadTick := by
  intro i s hm hf hk
  obtain ⟨hpos, hmem⟩ : 0 < addressSteps i.mode ∧ Mode.inMemory i.mode = true := by
    rcases hm with h | h | h | h | h <;> rw [h] <;> decide
  have hdata : 0 < (dataTags i.size).length := by cases i.size <;> decide
  have hstep : s.ea.step.toNat = addressSteps i.mode := by
    rw [nSteps_inMemory hmem] at hk
    omega
  obtain ⟨hstate, hodd⟩ := firstRead_latched hpos i.size s
  rw [exec_fetching_step i s hf (by omega), hstep, hodd]
  constructor
  · intro ha
    rw [if_neg (fun h => not_accessible_iff.1 h ha), afterPoll, hstate]
    simp only [afterFirstRead, State.charge, State.record, State.setEaValue, State.setEaAddr, Ledger.plus, stepCost,
      Nat.add_assoc]
  · intro ha
    rw [if_pos (not_accessible_iff.2 ha)]

/-- Settles O33: the last of a long-word's steps is its second word read, and `Inc` at size L is 4. -/
theorem secondWordReadTick : Obligations.SecondWordReadTick := by
  intro i s hz hmem hf hk heven
  obtain ⟨-, -, -, -, -, hreg, -, -⟩ := id hf
  have hstep : s.ea.step.toNat = addressSteps i.mode + 1 := by
    rw [nSteps_inMemory hmem, hz] at hk
    simpa [dataTags] using hk
  obtain ⟨hstate, hodd⟩ := secondRead_latched hmem s
  rw [exec_fetching_step i s hf (by omega), hstep, hz, hodd, heven, if_neg Bool.false_ne_true, afterPoll, hstate, hreg]
  by_cases hp : i.mode = .postinc <;>
    simp [hp, afterSecondRead, State.charge, State.record, State.setEaValue, State.writeA, Ledger.plus, stepCost,
      Nat.add_assoc]

/-! ## The steps that an odd access refuses -/

/-- An extension word at an odd `pc` is refused at the first fetch: the second step of INDEX, the first of the other
modes with extension words (40 R108 to R112). -/
theorem extension_stepOdd {m : Mode} {sz : Size} {s : State} (hx : 0 < extWords m sz) (hodd : isOdd s.pc = true) :
    ∃ k < nSteps m sz, stepOdd m sz k (afterPolls m sz k s) = true := by
  cases m with
  | dreg | areg | ind | postinc | predec => cases sz <;> cases hx
  | disp16 | absW | absL | imm => exact ⟨0, by cases sz <;> decide, hodd⟩
  | index => exact ⟨1, by cases sz <;> decide, hodd⟩

/-- The first data read of an operand in memory is at the address of the big step (40 R105 to R111). -/
theorem operand_stepOdd {m : Mode} {sz : Size} {s : State} (hmem : Mode.inMemory m = true) :
    stepOdd m sz (addressSteps m) (afterPolls m sz (addressSteps m) s) =
      (!(sz == .b) && isOdd (operandAddress m s.ea.reg sz s)) := by
  cases m with
  | dreg | areg | imm => cases hmem
  | ind | postinc | predec | disp16 | index | absW => rfl
  | absL =>
    rw [operandAddress, ← high_or_low]
    rfl

/-- What the big step calls refused is an odd access of one of the steps. -/
theorem operandRefused_stepOdd {m : Mode} {sz : Size} {s : State}
    (h : operandRefused m s.ea.reg sz s = true) : ∃ k < nSteps m sz, stepOdd m sz k (afterPolls m sz k s) = true := by
  simp only [operandRefused, Bool.or_eq_true, Bool.and_eq_true, decide_eq_true_iff] at h
  rcases h with ⟨hx, hodd⟩ | ⟨⟨hmem, hz⟩, hodd⟩
  · exact extension_stepOdd hx hodd
  · refine ⟨addressSteps m, ?_, ?_⟩
    · have hdata : 0 < (dataTags sz).length := by cases sz <;> decide
      rw [nSteps_inMemory hmem]
      omega
    · rw [operand_stepOdd hmem, hodd]
      simpa using hz

/-- `EaBeginRead` changes nothing that decides whether the operand fetch is refused. -/
theorem operandRefused_beginRead (i : Instr) (m : Mode) (reg : RegNum) (sz : Size) (s : State) :
    operandRefused m reg sz (beginRead i s) = operandRefused m reg sz s := by
  cases m <;> rfl

/-- Settles O19: the odd access is one of the operand's steps, and a whole run is long enough to reach it. -/
theorem oddAccessRefusesTheRun : Obligations.OddAccessRefusesTheRun := by
  intro i s h hrefused
  have hbegin : execTicks i (compareTicks i.mode i.size) s =
      execTicks i (compareTicks i.mode i.size) (beginRead i s) := by
    obtain ⟨n, hn⟩ := Nat.exists_eq_succ_of_ne_zero (Nat.ne_of_gt (compareTicks_pos i.mode i.size))
    rw [hn, execTicks, execTicks, h.exec_eq_beginRead]
  obtain ⟨hd, -⟩ := h
  rw [← operandRefused_beginRead i] at hrefused
  obtain ⟨k, hk, hodd⟩ := operandRefused_stepOdd (s := beginRead i s) hrefused
  rw [hbegin]
  exact (beginRead_prog hd).execTicks_odd hk hodd (by rw [compareTicks]; omega)

/-! ## The bytes of memory -/

theorem Long.add_one_ne (a : Long) : a + 1 ≠ a := by bv_omega

/-- A stored word has its high byte at its own address (20_memory R52, R56). -/
theorem memReadByte_memWriteWord_high (s : State) (a : Long) (v : Word) (h : Memory.wf s.mem = true) :
    (s.memWriteWord a v).memReadByte a = v.extractLsb' 8 8 := by
  rw [State.memReadByte, State.memWriteWord, State.memWriteByte_mem,
    Memory.read_write_other _ _ _ _ (Long.add_one_ne a).symm]
  exact Memory.read_write_same _ a _ h

/-- And its low byte at the next one, wherever that wraps to. -/
theorem memReadByte_memWriteWord_low (s : State) (a : Long) (v : Word) (h : Memory.wf s.mem = true) :
    (s.memWriteWord a v).memReadByte (a + 1) = v.extractLsb' 0 8 :=
  Memory.read_write_same _ (a + 1) _ (Memory.wf_memWriteByte s a _ h)

theorem memReadByte_memWriteWord_other (s : State) (a b : Long) (v : Word) (ha : b ≠ a) (ha1 : b ≠ a + 1) :
    (s.memWriteWord a v).memReadByte b = s.memReadByte b :=
  (Memory.read_write_other _ (a + 1) b _ ha1).trans (Memory.read_write_other _ a b _ ha)

/-- A word read is the join of two byte reads (20_memory R52). -/
theorem memReadWord_eq (s : State) (a : Long) : s.memReadWord a = s.memReadByte a ++ s.memReadByte (a + 1) := rfl

/-- Settles O57: the two bytes of the word, and that they join to it. -/
theorem wordsAreBigEndian : Obligations.WordsAreBigEndian := by
  intro s a v h
  have hhigh := memReadByte_memWriteWord_high s a v h
  have hlow := memReadByte_memWriteWord_low s a v h
  refine ⟨hhigh, hlow, ?_, fun b ha ha1 => memReadByte_memWriteWord_other s a b v ha ha1,
    Memory.wf_memWriteWord s a v h⟩
  rw [memReadWord_eq, hhigh, hlow, bytes_append]

/-- Settles O56: the action is a byte store, which changes the field `mem` alone. -/
theorem otherAgentsChangeOneByte : Obligations.OtherAgentsChangeOneByte := by
  intro s a v h
  exact ⟨s.memWriteByte a v, rfl, rfl, Memory.wf_memWriteByte s a v h, Memory.read_write_same s.mem a v h,
    fun b hb => Memory.read_write_other s.mem a b v hb⟩

/-! ## The accountant -/

/-- A word read by the parity of its address (20_memory R55). -/
theorem busReadWord_eq (s : State) (tag : Tag) (a : Long) :
    s.busReadWord tag a =
      if a.toNat % 2 = 1 then .error .oddWordAccess
      else .ok (s.memReadByte a ++ s.memReadByte (a + 1), s.record tag) := by
  simp only [State.busReadWord, isOdd_iff, memReadWord_eq]

/-- Settles O50: each operation is its own closed form; the parity of a word read's address is its lowest bit. -/
theorem accountantOperations : Obligations.AccountantOperations := by
  intro s c tag a
  exact ⟨rfl, rfl, ⟨rfl, rfl, rfl, rfl, rfl, rfl⟩, rfl, rfl, busReadWord_eq s tag a⟩

/-! ## The peek of a word -/

theorem isOdd_add_four (a : Long) : isOdd (a + 4) = isOdd a :=
  calc
    isOdd (a + 4) = isOdd (a + 2 + 2) := by rw [BitVec.add_assoc]; rfl
    _ = isOdd (a + 2) := isOdd_add_two _
    _ = isOdd a := isOdd_add_two a

/-- A byte address of which the bus layer offers no side-effect-free view (20_memory R58). -/
def Unpeekable (s : State) (a : Long) : Prop := a.toNat ∈ s.config.unpeekable

theorem State.peekWord_odd (s : State) {a : Long} (h : isOdd a = true) : s.peekWord a = .error .oddWordAccess := by
  rw [State.peekWord, if_pos h]

/-- A peek at an even address is refused when one of its two bytes is not offered (20_memory R58). -/
theorem State.peekWord_sideEffect (s : State) {a : Long} (h : isOdd a = false)
    (hu : Unpeekable s a ∨ Unpeekable s (a + 1)) : s.peekWord a = .error .peekHasSideEffect := by
  simp only [Unpeekable] at hu
  rw [State.peekWord, if_neg (by simp [h]), if_pos (by simpa using hu)]

theorem State.peekWord_ok (s : State) {a : Long} (h : isOdd a = false)
    (hu : ¬(Unpeekable s a ∨ Unpeekable s (a + 1))) : s.peekWord a = .ok (s.memReadWord a) := by
  simp only [Unpeekable] at hu
  rw [State.peekWord, if_neg (by simp [h]), if_neg (by simpa using hu)]

/-! ## What `render` answers, by the number of extension words (30_encoding R84) -/

theorem extWords_cases (m : Mode) (sz : Size) : extWords m sz = 0 ∨ extWords m sz = 1 ∨ extWords m sz = 2 := by
  cases m with
  | imm => cases sz <;> decide
  | _ => simp [extWords]

section
variable {a : Long} {m : Mode} {sz : Size} {n d : RegNum} {s : State} {w w2 : Word} {r : Refusal}

theorem renderForm_noWord (h : extWords m sz = 0) :
    renderForm a m sz n d s = .record (recordOf a m sz n d 0 0) := by
  simp only [renderForm, h]

theorem renderForm_oneWord (h : extWords m sz = 1) (hw : s.peekWord (a + 2) = .ok w) :
    renderForm a m sz n d s = .record (recordOf a m sz n d w 0) := by
  simp only [renderForm, h, hw]

theorem renderForm_twoWords (h : extWords m sz = 2) (hw : s.peekWord (a + 2) = .ok w)
    (hw2 : s.peekWord (a + 4) = .ok w2) : renderForm a m sz n d s = .record (recordOf a m sz n d w w2) := by
  simp only [renderForm, h, hw, hw2]

/-- The refusal of the first peek is the answer. -/
theorem renderForm_first_refused (h : extWords m sz ≠ 0) (hw : s.peekWord (a + 2) = .error r) :
    renderForm a m sz n d s = .refused r := by
  rcases extWords_cases m sz with hx | hx | hx
  · exact absurd hx h
  · simp only [renderForm, hx, hw]
  · simp only [renderForm, hx, hw]

theorem renderForm_second_refused (h : extWords m sz = 2) (hw : s.peekWord (a + 2) = .ok w)
    (hw2 : s.peekWord (a + 4) = .error r) : renderForm a m sz n d s = .refused r := by
  simp only [renderForm, h, hw, hw2]

/-- With the peeked bytes all offered, `render` gives the record of the words read (45 R204, R205). -/
theorem renderForm_peekable (hx : extWords m sz ≠ 0) (heven : isOdd a = false)
    (hfirst : ¬(Unpeekable s (a + 2) ∨ Unpeekable s (a + 2 + 1)))
    (hsecond : extWords m sz = 2 → ¬(Unpeekable s (a + 4) ∨ Unpeekable s (a + 4 + 1))) :
    ∃ w2, (extWords m sz = 2 → w2 = s.memReadWord (a + 4)) ∧
      renderForm a m sz n d s = .record (recordOf a m sz n d (s.memReadWord (a + 2)) w2) := by
  have hw := s.peekWord_ok ((isOdd_add_two a).trans heven) hfirst
  rcases extWords_cases m sz with h | h | h
  · exact absurd h hx
  · exact ⟨0, by simp [h], renderForm_oneWord h hw⟩
  · have hw2 := s.peekWord_ok ((isOdd_add_four a).trans heven) (hsecond h)
    exact ⟨_, fun _ => rfl, renderForm_twoWords h hw hw2⟩

/-- With one of the peeked bytes not offered, `render` is refused (20_memory R58). -/
theorem renderForm_unpeekable (hx : extWords m sz ≠ 0) (heven : isOdd a = false)
    (h : (Unpeekable s (a + 2) ∨ Unpeekable s (a + 2 + 1)) ∨
      (extWords m sz = 2 ∧ (Unpeekable s (a + 4) ∨ Unpeekable s (a + 4 + 1)))) :
    renderForm a m sz n d s = .refused .peekHasSideEffect := by
  have heven2 := (isOdd_add_two a).trans heven
  by_cases hfirst : Unpeekable s (a + 2) ∨ Unpeekable s (a + 2 + 1)
  · exact renderForm_first_refused hx (s.peekWord_sideEffect heven2 hfirst)
  · obtain ⟨h2, hsecond⟩ := h.resolve_left hfirst
    exact renderForm_second_refused h2 (s.peekWord_ok heven2 hfirst)
      (s.peekWord_sideEffect ((isOdd_add_four a).trans heven) hsecond)

end

/-- `render` of an instruction with a slot in `PRINT` renders the instruction's own fields (45 R200). -/
theorem render_encodeWord {i : Instr} {s : State} (hb : s.built = true) (hp : s.printAt (encodeWord i) = .pCmp)
    (a : Long) : render a (encodeWord i) s = renderForm a i.mode i.size i.reg i.dreg s := by
  rw [render, printDispatch_built hb, hp, formOf_encodeWord, Instr.form_eq]
  rfl

/-- The two bytes of the first word are peeked whenever there is one, those of the second when there are two. -/
theorem exists_mem_peeked {x : Nat} (hx : x = 1 ∨ x = 2) (a : Long) (p : Long → Prop) :
    (∃ b ∈ List.take (2 * x) [a + 2, a + 3, a + 4, a + 5], p b) ↔
      (p (a + 2) ∨ p (a + 2 + 1)) ∨ (x = 2 ∧ (p (a + 4) ∨ p (a + 4 + 1))) := by
  have h3 : a + 2 + 1 = a + 3 := BitVec.add_assoc a 2 1
  have h5 : a + 4 + 1 = a + 5 := BitVec.add_assoc a 4 1
  rw [h3, h5]
  rcases hx with rfl | rfl <;> simp [or_assoc]

/-- Settles O58: `render` peeks the instruction's own words, and each clause is one case of what the peeks answer. -/
theorem renderGivesTheRecord : Obligations.RenderGivesTheRecord := by
  intro i s a hb hp
  have hmem (hx : extWords i.mode i.size ≠ 0) :=
    exists_mem_peeked ((extWords_cases i.mode i.size).resolve_left hx) a (Unpeekable s)
  rw [render_encodeWord hb hp]
  refine ⟨fun hx => renderForm_noWord hx, fun hx heven hpeek => ?_, fun hx heven hpeek => ?_, fun hx hodd => ?_⟩
  · have hnone := mt (hmem hx).2 (fun ⟨b, hb, hu⟩ => hpeek b hb hu)
    obtain ⟨hfirst, hsecond⟩ := not_or.1 hnone
    exact renderForm_peekable hx heven hfirst fun h2 hu => hsecond ⟨h2, hu⟩
  · exact renderForm_unpeekable hx heven ((hmem hx).1 hpeek)
  · exact renderForm_first_refused hx (s.peekWord_odd ((isOdd_add_two a).trans hodd))

end Sys2Proof.Machine

/-! PROOFS. The statements of the encoding (30_encoding): the decoder against the encoder, the closed form and the
opcode table, and the ticks that take an operand's address or an immediate from extension words. -/

namespace Sys2Proof.Machine

/-! ## The decoder undoes the encoder and accepts nothing else -/

theorem Instr.wellFormed_eq_true (i : Instr) : i.wellFormed = true := by cases i <;> rfl

/-- The fields that the decoder accepts are those of the instruction it gives (30_encoding R81, R83). -/
theorem instrOfForm_formOf_iff {op : Word} {i : Instr} : instrOfForm (formOf op) = .ok i ↔ formOf op = i.form := by
  constructor
  · intro h
    obtain ⟨hsize, hmode, hdreg, hreg⟩ := form_of_instrOfForm h
    rw [Instr.form_eq, ← hsize, ← hmode, ← hdreg, ← hreg (regFits_formOf op)]
  · intro h
    rw [h, instrOfForm_form]

/-- The decoder accepts a word by its class, its `dir` bit and its fields (30_encoding R81, R88). -/
theorem decodeWord_eq_ok_iff {op : Word} {i : Instr} :
    decodeWord op = .ok i ↔ classField op = 0b1011#4 ∧ dirField op = 0#1 ∧ instrOfForm (formOf op) = .ok i := by
  rw [decodeWord]
  by_cases hclass : classField op = 0b1011#4 <;> by_cases hdir : dirField op = 0#1 <;> simp [hclass, hdir]

/-- An accepted word is the join of the fields that the encoder joins (30_encoding R81). -/
theorem encodeWord_of_decodeWord {op : Word} {i : Instr} (h : decodeWord op = .ok i) : encodeWord i = op := by
  obtain ⟨hclass, hdir, hform⟩ := decodeWord_eq_ok_iff.1 h
  rw [instrOfForm_formOf_iff, Instr.form_eq] at hform
  obtain ⟨hsize, hmode, hdreg, hreg⟩ := Form.mk.inj hform
  calc
    encodeWord i = opcodeOf i.size i.mode i.dreg i.reg := encodeWord_eq i
    _ = op := by
      rw [← opcodeOf_fields, ← hclass, ← hdir, ← sizeOfCode_eq_some hsize, ← modeOf_eq_some hmode, ← hdreg, ← hreg]
      exact (opcode_fields op).symm

/-- The decoder reads the word that the first two bytes join, and leaves the rest (20_memory R52). -/
theorem decode_wordsBytes {op : Word} {i : Instr} (h : decodeWord op = .ok i) (rest : List Byte) :
    decode (wordsBytes [op] ++ rest) = .ok (i, rest) := by
  show decode (op.extractLsb' 8 8 :: op.extractLsb' 0 8 :: rest) = _
  rw [decode, bytes_append, h]

/-- Settles O1: the encoder joins the fields that the decoder reads, so each undoes the other. -/
theorem decodeAndEncodeAgree : Obligations.DecodeAndEncodeAgree := by
  constructor
  · intro i rest
    exact decode_wordsBytes (decodeWord_encodeWord i) rest
  · intro op i h
    exact ⟨encodeWord_of_decodeWord h, Instr.wellFormed_eq_true i⟩

/-! ## The closed form -/

/-- Fields are an instruction's unless one of them names nothing or they are AREG at size B (30_encoding R88). -/
theorem exists_instrOfForm_iff {f : Form} :
    (∃ i, instrOfForm f = .ok i) ↔
      f.size ≠ none ∧ f.mode ≠ none ∧ ¬(f.size = some .b ∧ f.mode = some .areg) := by
  obtain ⟨size, mode, d, r⟩ := f
  constructor
  · rintro ⟨i, h⟩
    obtain ⟨rfl, rfl, -⟩ := form_of_instrOfForm h
    have hbyte := Instr.not_areg_byte i
    exact ⟨nofun, nofun, fun ⟨hb, ha⟩ => hbyte ⟨Option.some.inj ha, Option.some.inj hb⟩⟩
  · rintro ⟨hsize, hmode, hbyte⟩
    obtain ⟨sz, rfl⟩ := Option.ne_none_iff_exists'.1 hsize
    obtain ⟨m, rfl⟩ := Option.ne_none_iff_exists'.1 hmode
    exact instrOfForm_ok sz m d r fun ⟨hm, hsz⟩ => hbyte ⟨congrArg some hsz, congrArg some hm⟩

/-- The words that the decoder accepts, by their fields (30_encoding R88, R89). -/
theorem exists_decodeWord_iff {op : Word} :
    (∃ i, decodeWord op = .ok i) ↔
      classField op = 0b1011#4 ∧ dirField op = 0#1 ∧ sizeOfCode (sizeField op) ≠ none ∧
        modeOf (eaField op) ≠ none ∧
        ¬(sizeOfCode (sizeField op) = some .b ∧ modeOf (eaField op) = some .areg) := by
  simp only [decodeWord_eq_ok_iff, exists_and_left, exists_instrOfForm_iff, formOf]

theorem sizeOfCode_ne_none_iff : ∀ c : BitVec 2, sizeOfCode c ≠ none ↔ c ≠ 0b11#2 := by decide

theorem sizeOfCode_eq_b_iff : ∀ c : BitVec 2, sizeOfCode c = some .b ↔ c = 0b00#2 := by decide

theorem modeOf_ne_none_iff :
    ∀ ea : BitVec 6, modeOf ea ≠ none ↔ ea ∉ [0x3A#6, 0x3B#6, 0x3D#6, 0x3E#6, 0x3F#6] := by decide

theorem modeOf_eq_areg_iff : ∀ ea : BitVec 6, modeOf ea = some .areg ↔ ea.extractLsb' 3 3 = 0b001#3 := by decide

theorem dirField_eq_zero_iff (op : Word) : dirField op = 0#1 ↔ op.getLsbD 8 = false := by
  have hbit : ∀ x : BitVec 1, x = 0#1 ↔ x.getLsbD 0 = false := by decide
  rw [hbit, dirField, BitVec.getLsbD_extractLsb']
  rfl

/-- Settles O2: each check of the decoder is one condition of the closed form. -/
theorem decoderAcceptsExactlyTheClosedForm : Obligations.DecoderAcceptsExactlyTheClosedForm := by
  intro op
  rw [exists_decodeWord_iff, dirField_eq_zero_iff, sizeOfCode_ne_none_iff, modeOf_ne_none_iff, sizeOfCode_eq_b_iff,
    modeOf_eq_areg_iff, eaField_mode]
  rfl

/-! ## The opcode table -/

/-- Two words with the same six fields are the same (30_encoding R81). -/
theorem word_eq_of_fields {x y : Word} (hclass : classField x = classField y)
    (hdreg : x.extractLsb' 9 3 = y.extractLsb' 9 3) (hdir : dirField x = dirField y)
    (hsize : sizeField x = sizeField y) (hea : eaField x = eaField y) : x = y := by
  rw [opcode_fields x, opcode_fields y, ← eaField_reg x, ← eaField_reg y, hclass, hdreg, hdir, hsize, hea]

theorem fields_and (x y : Word) :
    classField (x &&& y) = classField x &&& classField y ∧
      (x &&& y).extractLsb' 9 3 = x.extractLsb' 9 3 &&& y.extractLsb' 9 3 ∧
      dirField (x &&& y) = dirField x &&& dirField y ∧ sizeField (x &&& y) = sizeField x &&& sizeField y ∧
      eaField (x &&& y) = eaField x &&& eaField y :=
  ⟨BitVec.extractLsb'_and .., BitVec.extractLsb'_and .., BitVec.extractLsb'_and .., BitVec.extractLsb'_and ..,
    BitVec.extractLsb'_and ..⟩

/-- Every row's mask keeps `class`, `dir` and `size` and drops `dreg`; its match holds the class of COMPARE, `dir` = 0
and the row's size (30_encoding R88). -/
theorem opcodeRow_fields : ∀ r ∈ opcodeRows,
    (classField r.mask = BitVec.allOnes 4 ∧ r.mask.extractLsb' 9 3 = 0#3 ∧ dirField r.mask = BitVec.allOnes 1 ∧
      sizeField r.mask = BitVec.allOnes 2) ∧
    classField r.bits = 0b1011#4 ∧ r.bits.extractLsb' 9 3 = 0#3 ∧ dirField r.bits = 0#1 ∧
      ∀ c, c = sizeField r.bits ↔ sizeOfCode c = some r.size := by
  decide

/-- Under a row's mask the `ea` values of its match are those of its mode (30_encoding R83, R88). -/
theorem opcodeRow_ea : ∀ r ∈ opcodeRows, ∀ ea : BitVec 6,
    ea &&& eaField r.mask = eaField r.bits ↔ modeOf ea = some r.mode := by
  decide

/-- A row selects the words of COMPARE with its size and mode (30_encoding R88). -/
theorem selects_iff_fields {r : OpcodeRow} (hr : r ∈ opcodeRows) (op : Word) :
    r.selects op = true ↔ classField op = 0b1011#4 ∧ dirField op = 0#1 ∧
      sizeOfCode (sizeField op) = some r.size ∧ modeOf (eaField op) = some r.mode := by
  obtain ⟨⟨hclassM, hdregM, hdirM, hsizeM⟩, hclassB, hdregB, hdirB, hsizeB⟩ := opcodeRow_fields r hr
  obtain ⟨hclass, hdreg, hdir, hsize, hea⟩ := fields_and op r.mask
  rw [hclassM, BitVec.and_allOnes] at hclass
  rw [hdregM, BitVec.and_zero, ← hdregB] at hdreg
  rw [hdirM, BitVec.and_allOnes] at hdir
  rw [hsizeM, BitVec.and_allOnes] at hsize
  rw [OpcodeRow.selects, beq_iff_eq, ← hsizeB, ← opcodeRow_ea r hr, ← hclassB, ← hdirB, ← hclass, ← hdir, ← hsize,
    ← hea]
  constructor
  · intro h
    rw [h]
    exact ⟨rfl, rfl, rfl, rfl⟩
  · rintro ⟨h1, h2, h3, h4⟩
    exact word_eq_of_fields h1 hdreg h2 h3 h4

theorem opcodeRow_not_aregByte : ∀ r ∈ opcodeRows, ¬(r.size = .b ∧ r.mode = .areg) := by decide

/-- A row selects exactly the encodings of the instructions of its size and mode (30_encoding R88). -/
theorem selects_iff_decodeWord {r : OpcodeRow} (hr : r ∈ opcodeRows) (op : Word) :
    r.selects op = true ↔ ∃ i, decodeWord op = .ok i ∧ r.size = i.size ∧ r.mode = i.mode := by
  rw [selects_iff_fields hr]
  constructor
  · rintro ⟨hclass, hdir, hsize, hmode⟩
    obtain ⟨i, hi⟩ := instrOfForm_ok r.size r.mode (dregField op) (regField op)
      fun ⟨hm, hsz⟩ => opcodeRow_not_aregByte r hr ⟨hsz, hm⟩
    obtain ⟨hsz, hm, -⟩ := form_of_instrOfForm hi
    rw [← hsize, ← hmode] at hi
    exact ⟨i, decodeWord_eq_ok_iff.2 ⟨hclass, hdir, hi⟩, Option.some.inj hsz,
      Option.some.inj hm⟩
  · rintro ⟨i, hi, hsz, hm⟩
    obtain ⟨hclass, hdir, hform⟩ := decodeWord_eq_ok_iff.1 hi
    obtain ⟨hsize, hmode, -⟩ := form_of_instrOfForm hform
    rw [hsz, hm]
    exact ⟨hclass, hdir, hsize, hmode⟩

/-- Every mode and size but AREG at size B has a row, with the number of extension words of R84. -/
theorem exists_opcodeRow (sz : Size) (m : Mode) (h : ¬(m = .areg ∧ sz = .b)) :
    ∃ r ∈ opcodeRows, r.size = sz ∧ r.mode = m ∧ r.extWords = extWords m sz := by
  revert h
  cases sz <;> cases m <;> decide

/-- No two rows have the same size and mode. -/
theorem opcodeRow_unique : ∀ r ∈ opcodeRows, ∀ r' ∈ opcodeRows, r'.size = r.size → r'.mode = r.mode → r' = r := by
  decide

/-- Settles O3: a row selects the encodings of one size and mode, and each legal pair has one row. -/
theorem opcodeRowsSelectTheDecodedForms : Obligations.OpcodeRowsSelectTheDecodedForms := by
  intro op
  constructor
  · intro i hi
    obtain ⟨r, hr, hsz, hm, hext⟩ := exists_opcodeRow i.size i.mode (Instr.not_areg_byte i)
    refine ⟨r, hr, (selects_iff_decodeWord hr op).2 ⟨i, hi, hsz, hm⟩, hsz, hm, hext, fun r' hr' h' => ?_⟩
    obtain ⟨j, hj, hsz', hm'⟩ := (selects_iff_decodeWord hr' op).1 h'
    obtain rfl : i = j := Except.ok.inj (hi.symm.trans hj)
    exact opcodeRow_unique r hr r' hr' (hsz'.trans hsz.symm) (hm'.trans hm.symm)
  · rintro ⟨r, hr, h⟩
    obtain ⟨i, hi, -⟩ := (selects_iff_decodeWord hr op).1 h
    exact ⟨i, hi⟩

/-- Settles O4: the decoder evaluated on each word. -/
theorem specWordsDecode : Obligations.SpecWordsDecode := by
  unfold Obligations.SpecWordsDecode
  decide

/-! ## The ticks that fetch an extension word -/

section
variable {m : Mode} {sz : Size} {k : Nat} {i : Instr} {s : State} {v : Long}

/-- A poll whose step takes an extension word into the address (40 R108 to R111). -/
theorem afterPoll_fetch_addr (h : stepState m sz k s = (afterFetch s).setEaAddr v) :
    afterPoll m sz k s = { s with
      pc := s.pc + 2
      ea := { s.ea with step := s.ea.step + 1, addr := v }
      ledger := s.ledger.plus (stepCost s .prefetch) [.prefetch] } := by
  rw [afterPoll, h]
  simp only [State.charge, State.setEaAddr, afterFetch, State.record, Ledger.plus, stepCost, Nat.add_assoc]

/-- A poll whose step takes an extension word into the value (40 R112). -/
theorem afterPoll_fetch_value (h : stepState m sz k s = (afterFetch s).setEaValue v) :
    afterPoll m sz k s = { s with
      pc := s.pc + 2
      ea := { s.ea with step := s.ea.step + 1, value := v }
      ledger := s.ledger.plus (stepCost s .prefetch) [.prefetch] } := by
  rw [afterPoll, h]
  simp only [State.charge, State.setEaValue, afterFetch, State.record, Ledger.plus, stepCost, Nat.add_assoc]

/-- A poll whose step records the idle entry alone (40 R109). -/
theorem afterPoll_idle (h : stepState m sz k s = s.record .idleN) :
    afterPoll m sz k s = { s with
      ea := { s.ea with step := s.ea.step + 1 }
      ledger := s.ledger.plus (stepCost s .idleN) [.idleN] } := by
  rw [afterPoll, h]
  simp only [State.charge, State.record, Ledger.plus, stepCost, Nat.add_assoc]

/-- A first tick whose step meets no odd access performs it (43 R162, R163). -/
theorem Ready.exec_first (h : Ready i s) (hm : i.mode = m) (hk : 0 < nSteps m i.size)
    (hodd : stepOdd m i.size 0 (beginRead i s) = false) :
    exec i s = .next (afterPoll m i.size 0 (beginRead i s)) := by
  subst hm
  rw [exec_ready_step i s h hk, hodd, if_neg Bool.false_ne_true]

/-- A second tick whose step meets no odd access performs it (43 R163). -/
theorem Fetching.exec_second (h : Fetching i s) (hm : i.mode = m) (hk : 1 < nSteps m i.size) (hstep : s.ea.step = 1)
    (hodd : stepOdd m i.size 1 s = false) : exec i s = .next (afterPoll m i.size 1 s) := by
  subst hm
  have hnat : s.ea.step.toNat = 1 := by rw [hstep]; rfl
  rw [exec_fetching_step i s h (by omega), hnat, hodd, if_neg Bool.false_ne_true]

end

/-- Settles O28: in both modes the first step is the fetch, and the sign-extended word gives the address. -/
theorem oneWordAddressFirstTick : Obligations.OneWordAddressFirstTick := by
  intro i s hm h heven
  rcases hm with hm | hm
  · rw [h.exec_first hm (by cases i.size <;> decide) heven, afterPoll_fetch_addr rfl, if_pos hm]
    rfl
  · rw [h.exec_first hm (by cases i.size <;> decide) heven, afterPoll_fetch_addr rfl, if_neg (by simp [hm])]
    rfl

/-- Settles O29: the index word's fields are those of R85, and the descriptor's register is the instruction's. -/
theorem indexTicks : Obligations.IndexTicks := by
  constructor
  · intro i s hm h
    rw [h.exec_first hm (by cases i.size <;> decide) rfl, afterPoll_idle rfl, ← hm]
    rfl
  · intro i s hm h hstep heven
    obtain ⟨-, -, -, -, -, hreg, -, -⟩ := id h
    rw [h.exec_second hm (by cases i.size <;> decide) hstep heven, afterPoll_fetch_addr rfl, hstep, ← hreg]
    rfl

/-- Settles O30: the word's two extensions are concatenations with zero (20_memory R54). -/
theorem absoluteLongTicks : Obligations.AbsoluteLongTicks := by
  constructor
  · intro i s hm h heven
    rw [h.exec_first hm (by cases i.size <;> decide) heven, afterPoll_fetch_addr rfl, zext16_shift_eq, ← hm]
    rfl
  · intro i s hm h hstep heven
    rw [h.exec_second hm (by cases i.size <;> decide) hstep heven, afterPoll_fetch_addr rfl, hstep, zext16_eq]
    rfl

theorem immediateFirst_b (w : Word) : immediateFirst .b w = 0#24 ++ w.extractLsb' 0 8 := zext8_eq _

theorem immediateFirst_w (w : Word) : immediateFirst .w w = 0#16 ++ w := zext16_eq w

theorem immediateFirst_l (w : Word) : immediateFirst .l w = w ++ 0#16 := zext16_shift_eq w

/-- Settles O31: by size, what the first word of an immediate gives, and its low half at size L. -/
theorem immediateTicks : Obligations.ImmediateTicks := by
  constructor
  · intro i s hm h heven
    rw [h.exec_first hm (by cases i.size <;> decide) heven, afterPoll_fetch_value rfl, ← hm, beginRead_ea]
    cases i.size with
    | b => rw [immediateFirst_b]; rfl
    | w => rw [immediateFirst_w]; rfl
    | l => rw [immediateFirst_l]; rfl
  · intro i s hm hz h hstep heven
    rw [h.exec_second hm (by rw [hz]; decide) hstep heven, afterPoll_fetch_value rfl, hstep, zext16_eq]
    rfl

end Sys2Proof.Machine

/-! PROOFS. The statements of the EA Resolver (40_ea_resolver): the ticks of a whole instruction against its big step,
the first ticks of the modes without extension words, the tick that resolves the operand, the frame of a tick and of
the resolver, and `EaBeginRead` and `EaPoll` in full. -/

namespace Sys2Proof.Machine

/-! ## All the steps of an operand fetch -/

section
variable {m : Mode} {sz : Size} {k : Nat} {s : State}

/-- A step with a tag changes what `StepEffect` lists; its poll counts the step and charges it (40 R101, R116, R119). -/
theorem afterPoll_frame (hk : k < nSteps m sz) : ∃ tag, (fetchTags m sz)[k]? = some tag ∧
    ∃ a pc addr value, afterPoll m sz k s = { s with
      a := a
      pc := pc
      ea := { s.ea with step := s.ea.step + 1, addr := addr, value := value }
      ledger := s.ledger.plus (stepCost s tag) [tag] } := by
  obtain ⟨tag, htag, heffect⟩ := stepState_effect m sz k s hk
  unfold afterPoll
  generalize stepState m sz k s = t at heffect ⊢
  refine ⟨tag, htag, t.a, t.pc, t.ea.addr, t.ea.value, ?_⟩
  rw [heffect.state]
  simp only [State.charge, Ledger.plus, stepCost, Nat.add_assoc]

/-- After `k` steps only `A`, `pc`, the descriptor and the ledger differ, and the last two count the steps. -/
theorem afterPolls_frame (hk : k ≤ nSteps m sz) : ∃ a pc addr value,
    afterPolls m sz k s = { s with
      a := a
      pc := pc
      ea := { s.ea with step := s.ea.step + BitVec.ofNat 3 k, addr := addr, value := value }
      ledger := stepsLedger s.config.cost m sz s.ledger k } := by
  induction k with
  | zero => exact ⟨s.a, s.pc, s.ea.addr, s.ea.value, by simp [afterPolls]⟩
  | succ k ih =>
    obtain ⟨_, _, _, _, ih⟩ := ih (Nat.le_of_succ_le hk)
    obtain ⟨tag, htag, a, pc, addr, value, hpoll⟩ :=
      afterPoll_frame (s := afterPolls m sz k s) (Nat.lt_of_succ_le hk)
    refine ⟨a, pc, addr, value, ?_⟩
    rw [afterPolls, hpoll, ih, stepsLedger_succ htag, BitVec.ofNat_add, ← BitVec.add_assoc]
    rfl

/-- Reads see the memory and the configuration that the fetch began with. -/
theorem afterPolls_store (hk : k ≤ nSteps m sz) :
    (afterPolls m sz k s).mem = s.mem ∧ (afterPolls m sz k s).config = s.config := by
  obtain ⟨_, _, _, _, h⟩ := afterPolls_frame (s := s) hk
  rw [h]
  exact ⟨rfl, rfl⟩

theorem firstRead_congr {s t : State} (hm : t.mem = s.mem) (hc : t.config = s.config) (sz : Size) (a : Long) :
    firstRead sz t a = firstRead sz s a := by
  simp only [firstRead, State.memReadByte, State.memReadWord, hm, hc]

theorem secondRead_congr {s t : State} (hm : t.mem = s.mem) (hc : t.config = s.config) (a : Long) :
    secondRead t a = secondRead s a := by
  simp only [secondRead, State.memReadWord, hm, hc]

/-- Outside POSTINC and PREDEC no step writes an address register (40 R119). -/
theorem afterPolls_registers (hi : m ≠ .postinc) (hd : m ≠ .predec) (hk : k ≤ nSteps m sz) :
    (afterPolls m sz k s).a = s.a := by
  induction k with
  | zero => rfl
  | succ k ih =>
    obtain ⟨_, -, heffect⟩ := stepState_effect m sz k (afterPolls m sz k s) (Nat.lt_of_succ_le hk)
    exact (heffect.registers hi hd).trans (ih (Nat.le_of_succ_le hk))

/-- The address registers after the whole operand fetch (40 R106, R107). -/
theorem afterPolls_a : (afterPolls m sz (nSteps m sz) s).a = operandA m s.ea.reg sz s := by
  cases m with
  | postinc | predec => cases sz <;> rfl
  | dreg | areg | ind | disp16 | index | absW | absL | imm =>
    exact afterPolls_registers (by decide) (by decide) (Nat.le_refl _)

/-- The modes that compute an address have latched it when they begin to read (40 R107 to R111). -/
theorem afterPolls_address (h : 0 < addressSteps m) :
    (afterPolls m sz (addressSteps m) s).ea.addr = operandAddress m s.ea.reg sz s := by
  cases m with
  | dreg | areg | ind | postinc | imm => cases h
  | predec | disp16 | index | absW => rfl
  | absL =>
    rw [operandAddress, ← high_or_low]
    rfl

/-- The first data read is at the address of the big step, which it leaves latched. -/
theorem afterPolls_firstRead (hmem : Mode.inMemory m = true) :
    (afterPolls m sz (addressSteps m + 1) s).ea.addr = operandAddress m s.ea.reg sz s ∧
      (afterPolls m sz (addressSteps m + 1) s).ea.value = firstRead sz s (operandAddress m s.ea.reg sz s) := by
  rcases Nat.eq_zero_or_pos (addressSteps m) with h | h
  · cases m with
    | dreg | areg | imm => cases hmem
    | predec | disp16 | index | absW | absL => cases h
    | ind => exact ⟨rfl, rfl⟩
    | postinc => cases sz <;> exact ⟨rfl, rfl⟩
  · have hle : addressSteps m ≤ nSteps m sz := by
      rw [nSteps_inMemory hmem]
      omega
    obtain ⟨hm, hc⟩ := afterPolls_store (s := s) hle
    rw [← firstRead_congr hm hc, ← afterPolls_address h, afterPolls, afterPoll, (firstRead_latched h sz _).1]
    exact ⟨rfl, rfl⟩

/-- The second word read keeps the address and adds the other half (20_memory R54). -/
theorem afterPolls_secondRead (hmem : Mode.inMemory m = true) :
    (afterPolls m .l (addressSteps m + 2) s).ea.addr = operandAddress m s.ea.reg .l s ∧
      (afterPolls m .l (addressSteps m + 2) s).ea.value =
        firstRead .l s (operandAddress m s.ea.reg .l s) ||| secondRead s (operandAddress m s.ea.reg .l s) := by
  obtain ⟨haddr, hvalue⟩ := afterPolls_firstRead (sz := .l) (s := s) hmem
  have hle : addressSteps m + 1 ≤ nSteps m .l := by
    rw [nSteps_inMemory hmem]
    exact Nat.le_succ _
  obtain ⟨hm, hc⟩ := afterPolls_store (s := s) hle
  rw [← hvalue, ← haddr, ← secondRead_congr hm hc, afterPolls, afterPoll, (secondRead_latched hmem _).1]
  split <;> exact ⟨rfl, rfl⟩

/-- The two halves of a long-word operand, in the order of `LONG_HIGH_FIRST`, are the operand (20_memory R54). -/
theorem firstRead_or_secondRead (s : State) (a : Long) : firstRead .l s a ||| secondRead s a = memOperand .l s a := by
  cases hc : s.config.longHighFirst with
  | true => simp only [firstRead, secondRead, hc, if_true]; exact high_or_low _ _
  | false => simp only [firstRead, secondRead, hc, Bool.false_eq_true, if_false]; exact low_or_high _ _

/-- The whole fetch of an operand in memory latches its address and assembles its value (40 R101). -/
theorem afterPolls_memOperand (hmem : Mode.inMemory m = true) :
    (afterPolls m sz (nSteps m sz) s).ea.addr = operandAddress m s.ea.reg sz s ∧
      (afterPolls m sz (nSteps m sz) s).ea.value = memOperand sz s (operandAddress m s.ea.reg sz s) := by
  rw [nSteps_inMemory hmem]
  cases sz with
  | b | w => rw [dataTags, List.length_singleton]; exact afterPolls_firstRead hmem
  | l => rw [← firstRead_or_secondRead]; exact afterPolls_secondRead hmem

/-- The whole fetch of an immediate assembles its value and leaves the latched address (30 R86). -/
theorem afterPolls_imm :
    (afterPolls .imm sz (nSteps .imm sz) s).ea.addr = s.ea.addr ∧
      (afterPolls .imm sz (nSteps .imm sz) s).ea.value = immediateOperand sz s := by
  cases sz with
  | b | w => exact ⟨rfl, rfl⟩
  | l =>
    have h : afterPolls .imm .l (nSteps .imm .l) s = afterPoll .imm .l 1 (afterPoll .imm .l 0 s) := rfl
    rw [h, afterPoll_fetch_value rfl, afterPoll_fetch_value rfl]
    exact ⟨rfl, high_or_low _ _⟩

/-- The address latched and the value assembled by the whole operand fetch are those of the big step. -/
theorem afterPolls_ea :
    (afterPolls m sz (nSteps m sz) s).ea.addr = (operandEa m s.ea.reg sz s).addr ∧
      (afterPolls m sz (nSteps m sz) s).ea.value = (operandEa m s.ea.reg sz s).value := by
  cases m with
  | dreg | areg => cases sz <;> exact ⟨rfl, rfl⟩
  | imm => exact afterPolls_imm
  | ind | postinc | predec | disp16 | index | absW | absL => exact afterPolls_memOperand rfl

/-- The data reads leave `pc` where the fetches of extension words put it. -/
theorem afterPoll_dataRead_pc (hmem : Mode.inMemory m = true) (hk : addressSteps m ≤ k) :
    (afterPoll m sz k s).pc = s.pc := by
  obtain ⟨j, rfl⟩ := Nat.exists_eq_add_of_le' hk
  cases m with
  | dreg | areg | imm => cases hmem
  | ind | predec | disp16 | index | absW | absL => rcases j with _ | _ | j <;> rfl
  | postinc => cases sz <;> rcases j with _ | _ | j <;> rfl

theorem afterPolls_dataReads_pc (hmem : Mode.inMemory m = true) (j : Nat) :
    (afterPolls m sz (addressSteps m + j) s).pc = (afterPolls m sz (addressSteps m) s).pc := by
  induction j with
  | zero => rfl
  | succ j ih => exact (afterPoll_dataRead_pc hmem (Nat.le_add_right _ j)).trans ih

/-- `pc` after the whole operand fetch: by 2 for each extension word (10_state R24). -/
theorem afterPolls_pc : (afterPolls m sz (nSteps m sz) s).pc = operandPc m sz s := by
  have two : s.pc + 2 + 2 = s.pc + 4 := BitVec.add_assoc _ _ _
  by_cases hmem : Mode.inMemory m = true
  · rw [nSteps_inMemory hmem, afterPolls_dataReads_pc hmem]
    cases m with
    | dreg | areg | imm => cases hmem
    | ind | postinc | predec => exact (BitVec.add_zero _).symm
    | disp16 | index | absW => rfl
    | absL => exact two
  · cases m with
    | dreg | areg => cases sz <;> exact (BitVec.add_zero _).symm
    | ind | postinc | predec | disp16 | index | absW | absL => exact absurd rfl hmem
    | imm =>
      cases sz with
      | b | w => rfl
      | l => exact two


end

theorem operandA_beginRead (i : Instr) (m : Mode) (reg : RegNum) (sz : Size) (s : State) :
    operandA m reg sz (beginRead i s) = operandA m reg sz s := by
  cases m <;> rfl

theorem operandEa_beginRead (i : Instr) (m : Mode) (reg : RegNum) (sz : Size) (s : State) :
    operandEa m reg sz (beginRead i s) = operandEa m reg sz s := by
  cases m <;> rfl

/-- The operand part of an instruction's big step, before the operand is resolved. -/
def operandFetched (i : Instr) (s : State) : State :=
  { s with
    a := operandA i.mode i.reg i.size s
    pc := operandPc i.mode i.size s
    marker := .read
    ea := { operandEa i.mode i.reg i.size s with active := true }
    opcode := some (encodeWord i)
    ledger := s.ledger.plus (eaCost s.config.cost i.mode i.size) (fetchTags i.mode i.size) }

/-- All the steps of an instruction's operand fetch give the operand part of its big step (40 R101, R116). -/
theorem afterPolls_all (i : Instr) (s : State) :
    afterPolls i.mode i.size (nSteps i.mode i.size) (beginRead i s) = operandFetched i s := by
  obtain ⟨a, pc, addr, value, h⟩ := afterPolls_frame (s := beginRead i s) (Nat.le_refl (nSteps i.mode i.size))
  have ha := afterPolls_a (m := i.mode) (sz := i.size) (s := beginRead i s)
  have hpc := afterPolls_pc (m := i.mode) (sz := i.size) (s := beginRead i s)
  obtain ⟨haddr, hvalue⟩ := afterPolls_ea (m := i.mode) (sz := i.size) (s := beginRead i s)
  rw [h] at ha hpc haddr hvalue
  simp only [beginRead_ea, operandA_beginRead, operandEa_beginRead] at ha hpc haddr hvalue
  rw [h, stepsLedger_all, ha, hpc, haddr, hvalue]
  simp [operandFetched, beginRead, operandEa, operandPc]

/-- The value that the poll reports then is the operand of the big step (40 R101). -/
theorem eaResult_operandFetched (i : Instr) (s : State) :
    eaResult (operandFetched i s) = operandValue i.mode i.reg i.size s := by
  rw [operandFetched, operandEa]
  cases i.mode <;> rfl

/-! ## A fetch without an odd access -/

/-- The steps that compute an address meet no odd access when the extension words are at an even `pc`. -/
theorem addressStep_even {m : Mode} {sz : Size} {k : Nat} {s : State} (hk : k < addressSteps m)
    (hpc : 0 < extWords m sz → isOdd s.pc = false) : stepOdd m sz k (afterPolls m sz k s) = false := by
  cases m with
  | dreg | areg | ind | postinc | imm => cases hk
  | predec =>
    obtain rfl : k = 0 := Nat.lt_one_iff.1 hk
    rfl
  | disp16 | absW =>
    obtain rfl : k = 0 := Nat.lt_one_iff.1 hk
    exact hpc Nat.one_pos
  | index =>
    obtain rfl | rfl : k = 0 ∨ k = 1 := Nat.le_one_iff_eq_zero_or_eq_one.1 (Nat.le_of_lt_succ hk)
    · rfl
    · exact hpc Nat.one_pos
  | absL =>
    obtain rfl | rfl : k = 0 ∨ k = 1 := Nat.le_one_iff_eq_zero_or_eq_one.1 (Nat.le_of_lt_succ hk)
    · exact hpc Nat.two_pos
    · exact (isOdd_add_two _).trans (hpc Nat.two_pos)

/-- The steps that read data meet no odd access when the operand of the big step is accessible. -/
theorem dataStep_even {m : Mode} {sz : Size} {k : Nat} {s : State} (hmem : Mode.inMemory m = true)
    (hk : addressSteps m ≤ k) (hlt : k < nSteps m sz) (ha : Accessible sz (operandAddress m s.ea.reg sz s)) :
    stepOdd m sz k (afterPolls m sz k s) = false := by
  rw [nSteps_inMemory hmem] at hlt
  obtain rfl | hk := Nat.eq_or_lt_of_le hk
  · rw [operand_stepOdd hmem]
    exact Bool.eq_false_iff.2 fun h => not_accessible_iff.1 h ha
  · obtain ⟨rfl, rfl⟩ : sz = .l ∧ k = addressSteps m + 1 := by
      cases sz with
      | b | w => simp only [dataTags, List.length] at hlt; omega
      | l => simp only [dataTags, List.length] at hlt; exact ⟨rfl, by omega⟩
    rw [(secondRead_latched hmem _).2, (afterPolls_firstRead hmem).1]
    exact ha.resolve_left (by decide)

theorem immediateStep_even {sz : Size} {k : Nat} {s : State} (hk : k < nSteps .imm sz) (hpc : isOdd s.pc = false) :
    stepOdd .imm sz k (afterPolls .imm sz k s) = false := by
  have h : k = 0 ∨ k = 1 := by
    have : nSteps .imm sz ≤ 2 := by cases sz <;> decide
    omega
  rcases h with rfl | rfl
  · exact hpc
  · exact (isOdd_add_two _).trans hpc

/-- What the big step does not call refused has no odd access among its steps (20_memory R55). -/
theorem stepOdd_of_not_refused {m : Mode} {sz : Size} {k : Nat} {s : State}
    (h : operandRefused m s.ea.reg sz s = false) (hk : k < nSteps m sz) :
    stepOdd m sz k (afterPolls m sz k s) = false := by
  simp only [operandRefused, Bool.or_eq_false_iff, Bool.and_eq_false_imp, decide_eq_true_iff, Bool.and_eq_true,
    and_imp] at h
  obtain ⟨hpc, hodd⟩ := h
  by_cases hmem : Mode.inMemory m = true
  · rcases Nat.lt_or_ge k (addressSteps m) with hlt | hge
    · exact addressStep_even hlt hpc
    · exact dataStep_even hmem hge hk ((Decidable.em _).imp_right (hodd hmem))
  · cases m with
    | dreg | areg => cases sz <;> cases hk
    | ind | postinc | predec | disp16 | index | absW | absL => exact absurd rfl hmem
    | imm => exact immediateStep_even hk (hpc (by cases sz <;> decide))

/-- A fetch without an odd access performs all its steps, one in each tick. -/
theorem Prog.execTicks_all {i : Instr} {l : Ledger} {s : State} (h : Prog i l 0 s)
    (hr : operandRefused i.mode s.ea.reg i.size s = false) {k : Nat} (hk : k ≤ nSteps i.mode i.size) :
    execTicks i k s = .next (afterPolls i.mode i.size k s) ∧ Prog i l k (afterPolls i.mode i.size k s) := by
  induction k with
  | zero => exact ⟨rfl, h⟩
  | succ k ih =>
    obtain ⟨he, hp⟩ := ih (Nat.le_of_succ_le hk)
    obtain ⟨hf, hstep, -⟩ := id hp
    rw [execTicks_succ_of_next he, exec_fetching_step i _ hf (by omega), hstep, stepOdd_of_not_refused hr hk]
    exact ⟨rfl, afterPoll_prog hp hk⟩

/-! ## The whole instruction -/

/-- The ticks left once the operand is resolved: one at size L, none at B and W (43 R164, R165). -/
theorem Resolved.execTicks_last {i : Instr} {l : Ledger} {s : State} (h : Resolved i l s) :
    execTicks i (if i.size = .l then 1 else 0) s = .next { s with
      marker := .finished
      ledger := s.ledger.plus (if i.size = .l then s.config.cost.long else 0) [] } := by
  by_cases hz : i.size = .l
  · simp only [hz, if_true, execTicks, resolved_long h hz, Ledger.plus, List.append_nil]
  · obtain ⟨-, -, hm, -⟩ := h
    rw [if_neg hz] at hm
    simp only [hz, if_false, execTicks, Ledger.plus, List.append_nil, Nat.add_zero, ← hm]

/-- The operand resolved and its last tick done: the big step in every field (43 section 2, 41 R138). -/
theorem afterResolve_finished (i : Instr) (s : State) :
    let t := afterResolve i (operandValue i.mode i.reg i.size s) (operandFetched i s)
    { t with
      marker := .finished
      ledger := t.ledger.plus (if i.size = .l then s.config.cost.long else 0) [] } =
      compareEffect i.size i.mode i.dreg i.reg s := by
  simp [afterResolve, operandFetched, compareEffect, operandEa, Ledger.plus, compareCycles, compareLog,
    encodeWord_eq, State.readD, Nat.add_assoc]

/-- Settles O18: the steps of the operand fetch one by one, the tick that resolves it, and at size L one more. -/
theorem ticksAreTheBigStep : Obligations.TicksAreTheBigStep := by
  intro i s h hr
  obtain ⟨hd, -⟩ := id h
  rw [← operandRefused_beginRead i] at hr
  obtain ⟨hfetch, hprog⟩ := (beginRead_prog hd).execTicks_all hr (Nat.le_refl _)
  obtain ⟨hlast, hres⟩ := prog_last hprog
  rw [afterPolls_all, eaResult_operandFetched] at hlast hres
  have hbegin : execTicks i (nSteps i.mode i.size + 1) s = execTicks i (nSteps i.mode i.size + 1) (beginRead i s) := by
    rw [execTicks, execTicks, h.exec_eq_beginRead]
  calc execTicks i (compareTicks i.mode i.size) s
    _ = execTicks i (if i.size = .l then 1 else 0)
          (afterResolve i (operandValue i.mode i.reg i.size s) (operandFetched i s)) := by
        rw [compareTicks, execTicks_add, hbegin, execTicks_succ_of_next hfetch, afterPolls_all, hlast]
    _ = .next (compareEffect i.size i.mode i.dreg i.reg s) := by
        rw [hres.execTicks_last, ← afterResolve_finished]
        rfl

/-! ## First ticks of the modes without extension words, and the tick that resolves the operand -/

/-- The value reported when done, by the mode (40 R101). -/
theorem eaResult_eq (s : State) :
    eaResult s = if s.ea.mode = .dreg then mask s.ea.size (s.readD s.ea.reg)
      else if s.ea.mode = .areg then mask s.ea.size (s.readA s.ea.reg) else s.ea.value := by
  unfold eaResult
  cases s.ea.mode <;> rfl

/-- Settles O24: no step is left after `EaBeginRead`, so the first tick resolves the operand. -/
theorem registerDirectCompletesInTheFirstTick : Obligations.RegisterDirectCompletesInTheFirstTick := by
  intro i s hm h
  have hk : nSteps i.mode i.size = 0 := by rcases hm with hm | hm <;> rw [hm] <;> cases i.size <;> rfl
  have hv : eaResult (beginRead i s) = mask i.size (if i.mode = .dreg then s.readD i.reg else s.readA i.reg) := by
    rw [eaResult_eq]
    rcases hm with hm | hm <;> simp [hm]
  rw [exec_ready_done i s h hk, hv]
  rfl

/-- Settles O34: with every step performed the tick resolves the operand, and the descriptor is the instruction's. -/
theorem resolvedTickCommitsTheFlags : Obligations.ResolvedTickCommitsTheFlags := by
  intro i s h hk
  obtain ⟨-, -, -, -, hmode, hreg, hsize, -⟩ := id h
  rw [exec_fetching_done i s h hk, eaResult_eq, hmode, hreg, hsize]
  rfl

section
variable {m : Mode} {sz : Size} {k : Nat} {i : Instr} {s : State}

/-- A poll whose step reads memory first at `a` (20_memory R53, R54). -/
theorem afterPoll_firstRead {a : Long} (h : stepState m sz k s = afterFirstRead sz a s) :
    afterPoll m sz k s = { s with
      ea := { s.ea with step := s.ea.step + 1, addr := a, value := firstRead sz s a }
      ledger := s.ledger.plus (stepCost s (dataTag sz)) [dataTag sz] } := by
  rw [afterPoll, h]
  simp only [afterFirstRead, State.charge, State.record, State.setEaValue, State.setEaAddr, Ledger.plus, stepCost,
    Nat.add_assoc]

/-- A poll whose step reads memory first at `a` and then increments the register (40 R106). -/
theorem afterPoll_firstRead_increment {a v : Long}
    (h : stepState m sz k s = (afterFirstRead sz a s).writeA s.ea.reg v) :
    afterPoll m sz k s = { s with
      a := s.a.set s.ea.reg v
      ea := { s.ea with step := s.ea.step + 1, addr := a, value := firstRead sz s a }
      ledger := s.ledger.plus (stepCost s (dataTag sz)) [dataTag sz] } := by
  rw [afterPoll, h]
  simp only [afterFirstRead, State.charge, State.record, State.setEaValue, State.setEaAddr, State.writeA, Ledger.plus,
    stepCost, Nat.add_assoc]

/-- A poll whose step decrements the register (40 R107). -/
theorem afterPoll_decrement (h : stepState m sz k s = s.decrement sz) :
    afterPoll m sz k s = { s with
      a := s.a.set s.ea.reg (s.readA s.ea.reg - inc s.config sz s.ea.reg)
      ea := { s.ea with step := s.ea.step + 1, addr := s.readA s.ea.reg - inc s.config sz s.ea.reg }
      ledger := s.ledger.plus (stepCost s .idleN) [.idleN] } := by
  rw [afterPoll, h]
  simp only [State.decrement, State.charge, State.record, State.setEaAddr, State.writeA, Ledger.plus, stepCost,
    Nat.add_assoc]

theorem accessible_even {a : Long} (h : Accessible sz a) : (!(sz == .b) && isOdd a) = false :=
  Bool.eq_false_iff.2 fun hodd => not_accessible_iff.1 hodd h

end

/-- Settles O25: the one step at sizes B and W, and the first at L, is the first data read at `A[reg]`. -/
theorem indirectFirstTick : Obligations.IndirectFirstTick := by
  intro i s hm h ha
  rw [h.exec_first hm (by cases i.size <;> decide) (accessible_even ha), afterPoll_firstRead rfl, ← hm]
  rfl

/-- `Inc` at the sizes B and W (40 R115). -/
theorem inc_of_ne_long (c : Config) {sz : Size} (hz : sz ≠ .l) (reg : RegNum) :
    inc c sz reg = if sz = .b then (if reg = 7 then BitVec.ofNat 32 c.a7ByteStep else 1) else 2 := by
  cases sz with
  | b | w => rfl
  | l => exact absurd rfl hz

/-- `Inc` at every size (40 R115). -/
theorem inc_eq (c : Config) (sz : Size) (reg : RegNum) :
    inc c sz reg = if sz = .b then (if reg = 7 then BitVec.ofNat 32 c.a7ByteStep else 1)
      else if sz = .w then 2 else 4 := by
  cases sz <;> rfl

/-- Settles O26: at size L the increment waits for the second word; at B and W it follows the read. -/
theorem postincrementFirstTick : Obligations.PostincrementFirstTick := by
  intro i s hm h ha amount
  rw [h.exec_first hm (by cases i.size <;> decide) (accessible_even ha)]
  by_cases hz : i.size = .l
  · have hstep : stepState .postinc i.size 0 (beginRead i s) =
        afterFirstRead i.size (s.readA i.reg) (beginRead i s) := if_pos hz
    rw [afterPoll_firstRead hstep, if_pos hz, ← hm]
    rfl
  · have hstep : stepState .postinc i.size 0 (beginRead i s) =
        (afterFirstRead i.size (s.readA i.reg) (beginRead i s)).writeA i.reg
          (s.readA i.reg + inc s.config i.size i.reg) := if_neg hz
    rw [afterPoll_firstRead_increment hstep, inc_of_ne_long _ hz, if_neg hz, ← hm]
    rfl

/-- Settles O27: the first step is the decrement, which no odd address refuses. -/
theorem predecrementFirstTick : Obligations.PredecrementFirstTick := by
  intro i s hm h
  rw [h.exec_first hm (by cases i.size <;> decide) rfl, afterPoll_decrement rfl, inc_eq, ← hm]
  rfl

/-! ## What the resolver's two entries answer -/

theorem eaBeginRead_busy {f : Form} {s : State} (ha : s.ea.active = true) : eaBeginRead f s = .refused .eaBusy := by
  rw [eaBeginRead, if_pos ha]

/-- Past its checks `EaBeginRead` begins the descriptor (40 R100). -/
theorem eaBeginRead_begins {f : Form} {s : State} {m : Mode} {sz : Size} (ha : s.ea.active = false)
    (hm : f.mode = some m) (hz : f.size = some sz) (h : ¬(m = .areg ∧ sz = .b)) :
    eaBeginRead f s =
      .begun { s with ea := { s.ea with active := true, mode := m, reg := f.reg, size := sz, step := 0 } } := by
  simp only [eaBeginRead, ha, hm, hz, Bool.false_eq_true, if_false, h]

/-- Settles O42: one lemma for each of the checks, and one past them all. -/
theorem beginReadChecksInOrder : Obligations.BeginReadChecksInOrder := fun _ _ =>
  ⟨eaBeginRead_busy, eaBeginRead_noMode, eaBeginRead_noSize, eaBeginRead_aregByte,
    fun _ _ => eaBeginRead_begins⟩

/-- What `EaBeginRead` begins differs in the descriptor alone (40 R119). -/
theorem eaBeginRead_begun {f : Form} {s t : State} (h : eaBeginRead f s = .begun t) : t = { s with ea := t.ea } := by
  cases ha : s.ea.active with
  | true => rw [eaBeginRead_busy ha] at h; cases h
  | false =>
    cases hm : f.mode with
    | none => rw [eaBeginRead_noMode ha hm] at h; cases h
    | some m =>
      cases hz : f.size with
      | none => rw [eaBeginRead_noSize ha (by simp [hm]) hz] at h; cases h
      | some sz =>
        by_cases hareg : m = .areg ∧ sz = .b
        · obtain ⟨rfl, rfl⟩ := hareg
          rw [eaBeginRead_aregByte ha hm hz] at h; cases h
        · rw [eaBeginRead_begins ha hm hz hareg] at h
          obtain rfl := Begin.begun.inj h
          rfl

theorem eaPoll_idle {s : State} (ha : s.ea.active = false) : eaPoll s = .refused .eaIdle := by
  rw [eaPoll, if_neg (by simp [ha])]

/-- What an unresolved poll changes: what its step does, and one more step counted (40 R101, R119). -/
structure PollEffect (tag : Tag) (s t : State) : Prop where
  state : t = { s with
    a := t.a, pc := t.pc, ea := { s.ea with step := s.ea.step + 1, addr := t.ea.addr, value := t.ea.value },
    ledger := { cycles := s.ledger.cycles + Tag.cost s.config.cost tag, log := s.ledger.log ++ [tag] } }
  others : ∀ j, j ≠ s.ea.reg → t.readA j = s.readA j
  registers : s.ea.mode ≠ .postinc → s.ea.mode ≠ .predec → t.a = s.a
  counter : t.pc = s.pc ∨ (t.pc = s.pc + 2 ∧ 0 < extWords s.ea.mode s.ea.size)

theorem StepEffect.pollEffect {tag : Tag} {s t : State} (h : StepEffect s.ea.mode s.ea.size tag s t) :
    PollEffect tag s { t with ea := { t.ea with step := s.ea.step + 1 } } :=
  ⟨by rw [h.state], h.others, h.registers, h.counter⟩

/-- A poll with a step left performs it, or is refused on an odd access (40 R101, 20_memory R55). -/
theorem eaPoll_of_step_left {s : State} (ha : s.ea.active = true) (hk : s.ea.step.toNat < nSteps s.ea.mode s.ea.size) :
    (∃ tag t, eaPoll s = .unresolved t ∧ PollEffect tag s t) ∨ eaPoll s = .refused .oddWordAccess := by
  obtain ⟨tag, -, heffect⟩ := stepState_effect _ _ _ s hk
  rw [eaPoll_step s ha hk]
  split
  · exact .inr rfl
  · exact .inl ⟨tag, _, rfl, heffect.pollEffect⟩

/-- An unresolved poll had a step left and has performed it (40 R101). -/
theorem eaPoll_unresolved {s t : State} (h : eaPoll s = .unresolved t) : ∃ tag, PollEffect tag s t := by
  cases ha : s.ea.active with
  | false => rw [eaPoll_idle ha] at h; cases h
  | true =>
    by_cases hk : s.ea.step.toNat < nSteps s.ea.mode s.ea.size
    · rcases eaPoll_of_step_left ha hk with ⟨tag, u, hu, heffect⟩ | hodd
      · obtain rfl := Poll.unresolved.inj (hu.symm.trans h)
        exact ⟨tag, heffect⟩
      · rw [hodd] at h; cases h
    · rw [eaPoll_done s ha (Nat.le_of_not_lt hk)] at h; cases h

/-- A poll that reports done had no step left, and ends the resolution (40 R101). -/
theorem eaPoll_eq_done {v : Long} {s t : State} (h : eaPoll s = .done v t) :
    v = eaResult s ∧ t = { s with ea := { s.ea with active := false } } := by
  cases ha : s.ea.active with
  | false => rw [eaPoll_idle ha] at h; cases h
  | true =>
    by_cases hk : s.ea.step.toNat < nSteps s.ea.mode s.ea.size
    · rcases eaPoll_of_step_left ha hk with ⟨tag, u, hu, -⟩ | hodd
      · rw [hu] at h; cases h
      · rw [hodd] at h; cases h
    · rw [eaPoll_done s ha (Nat.le_of_not_lt hk)] at h
      obtain ⟨rfl, rfl⟩ := Poll.done.inj h
      exact ⟨rfl, rfl⟩

/-- Settles O40: `EaBeginRead` and a poll that reports done write the descriptor alone, an unresolved poll what its step
writes. -/
theorem resolverWritesOnlyWhatIsListed : Obligations.ResolverWritesOnlyWhatIsListed := by
  refine ⟨fun _ _ _ => eaBeginRead_begun, fun s t h => ?_, fun v s t h => ?_⟩
  · obtain ⟨tag, hstate, hothers, hregs, hpc⟩ := eaPoll_unresolved h
    refine ⟨?_, fun ha => ?_, hothers, fun hne => ?_, tag, congrArg State.ledger hstate⟩
    · rw [hstate]
    · by_contra hmode
      obtain ⟨hi, hd⟩ := not_or.1 hmode
      exact ha (hregs hi hd)
    · exact Nat.ne_of_gt (hpc.resolve_left hne).2
  · obtain ⟨-, rfl⟩ := eaPoll_eq_done h
    rfl

/-- Settles O41: the tag of the step's effect is the one that the table has there. -/
theorem eachStepRecordsItsTag : Obligations.EachStepRecordsItsTag := by
  intro m sz
  refine ⟨fetchTags_length m sz, fun k tag htag s t h => ?_⟩
  obtain ⟨hk, -⟩ := List.getElem?_eq_some_iff.1 htag
  rw [fetchTags_length] at hk
  obtain ⟨tag', htag', heffect⟩ := stepState_effect m sz k s hk
  obtain rfl := Option.some.inj (htag.symm.trans htag')
  rw [eaStep_eq] at h
  split at h
  · cases h
  · obtain rfl := Except.ok.inj h
    rw [heffect.state]

/-- Settles O43: whether a step is left decides between the step and done; the value is the mode's. -/
theorem pollPerformsAStepOrReportsDone : Obligations.PollPerformsAStepOrReportsDone := by
  intro s
  refine ⟨eaPoll_idle, fun ha hk => ?_, fun ha hk => ⟨eaResult s, eaPoll_done s ha hk, fun hm => ?_, fun hm => ?_,
    fun hd ha => ?_⟩⟩
  · have hlt := nSteps_le_four s.ea.mode s.ea.size
    refine (eaPoll_of_step_left ha hk).imp_left ?_
    rintro ⟨tag, t, ht, heffect⟩
    have hea := congrArg State.ea heffect.state
    refine ⟨t, ht, ?_⟩
    rw [hea]
    exact ⟨ha, step_succ_toNat rfl (by omega), rfl, rfl, rfl⟩
  · rw [eaResult_eq, if_pos hm]
  · rw [eaResult_eq, if_neg (by simp [hm]), if_pos hm]
  · rw [eaResult_eq, if_neg hd, if_neg ha]

/-! ## The frame of a tick -/

/-- What a tick of an instruction may change (43 R170, 40 R119, 42 R157). -/
structure TickEffect (i : Instr) (s t : State) : Prop where
  state : t = { s with
    a := t.a, flags := t.flags, pc := t.pc, marker := t.marker, ea := t.ea, ledger := t.ledger, opcode := t.opcode }
  others : ∀ j, j ≠ i.reg → t.readA j = s.readA j
  registers : i.mode ≠ .postinc → i.mode ≠ .predec → t.a = s.a
  counter : t.pc = s.pc ∨ (t.pc = s.pc + 2 ∧ 0 < extWords i.mode i.size)
  flags : t.flags = s.flags ∨
    ((s.marker = .none ∨ s.marker = .read) ∧ (t.marker = .long ∨ t.marker = .finished))
  opcode : t.opcode = s.opcode ∨ (s.marker = .none ∧ t.opcode = some (encodeWord i))

/-- A tick that writes only `MARKER` and the ledger. -/
theorem TickEffect.of_marker_ledger (i : Instr) (s : State) (m : Marker) (l : Ledger) :
    TickEffect i s { s with marker := m, ledger := l } :=
  ⟨rfl, fun _ _ => rfl, fun _ _ => rfl, .inl rfl, .inl rfl, .inl rfl⟩

/-- The poll of a tick in state `READ` (43 R163). -/
theorem PollEffect.tickEffect {i : Instr} {tag : Tag} {s t : State} (h : PollEffect tag s t)
    (hd : s.ea.mode = i.mode ∧ s.ea.reg = i.reg ∧ s.ea.size = i.size) (c : Nat) : TickEffect i s (t.charge c) := by
  obtain ⟨hmode, hreg, hsize⟩ := hd
  obtain ⟨hstate, hothers, hregs, hpc⟩ := h
  rw [hmode, hsize] at hpc
  refine ⟨?_, hreg ▸ hothers, hmode ▸ hregs, hpc, .inl ?_, .inl ?_⟩
  · rw [hstate]; rfl
  · rw [hstate]; rfl
  · rw [hstate]; rfl

/-- A tick in state `READ` polls, or resolves the operand and commits the flags (43 R163, R164). -/
theorem readTick_effect {i : Instr} {s t : State} (h : readTick i s = .next t) (hm : s.marker = .read)
    (hd : s.ea.mode = i.mode ∧ s.ea.reg = i.reg ∧ s.ea.size = i.size) : TickEffect i s t := by
  unfold readTick at h
  split at h
  next => cases h
  next u hu =>
    obtain rfl := Result.next.inj h
    obtain ⟨tag, heffect⟩ := eaPoll_unresolved hu
    exact heffect.tickEffect hd _
  next v u hu =>
    obtain rfl := Result.next.inj h
    obtain ⟨-, rfl⟩ := eaPoll_eq_done hu
    refine ⟨rfl, fun _ _ => rfl, fun _ _ => rfl, .inl rfl, .inr ⟨.inr hm, ?_⟩, .inl rfl⟩
    exact ite_eq_or_eq _ _ _

/-- The first tick is the tick of the fetch just begun, and takes the ghost copy of the opcode (70 R262). -/
theorem TickEffect.of_beginRead {i : Instr} {s t : State} (h : TickEffect i (beginRead i s) t)
    (hm : s.marker = .none) : TickEffect i s t := by
  refine ⟨h.state, h.others, h.registers, h.counter, h.flags.imp_right fun hf => ⟨.inl hm, hf.2⟩, .inr ⟨hm, ?_⟩⟩
  exact h.opcode.elim id And.right

/-- Every tick that answers a next state has the effect of a tick, by the marker (43 R161, R170). -/
theorem exec_effect {i : Instr} {s t : State} (h : exec i s = .next t) (hd : DescriptorIsOf i s) :
    TickEffect i s t := by
  obtain ⟨-, ⟨hm, -, hr⟩ | ⟨hm, -, hr⟩ | ⟨-, -, rfl⟩ | ⟨-, -, rfl⟩ | ⟨-, rfl⟩⟩ := exec_next_cases h
  · exact (readTick_effect hr rfl ⟨rfl, rfl, rfl⟩).of_beginRead hm
  · exact readTick_effect hr hm (hd hm)
  · exact .of_marker_ledger _ _ _ _
  · exact .of_marker_ledger _ _ _ _
  · exact .of_marker_ledger _ _ _ _

/-- Settles O39: the effect of the tick, clause by clause. -/
theorem tickFrame : Obligations.TickFrame := by
  intro i s t h hd
  obtain ⟨hstate, hothers, hregs, hpc, hflags, hop⟩ := exec_effect h hd
  obtain ⟨hmem, hexec, hprint, hbuilt, hconfig⟩ := exec_sameStore h
  refine ⟨by rw [hstate], State.memReadByte_mem s t hmem, hmem, by rw [hstate], by rw [hstate], hexec, hprint, hbuilt,
    hconfig, hregs, hothers, hpc.imp_right And.left, fun hx => ?_, hflags, hop⟩
  exact hpc.resolve_right fun hfetch => Nat.ne_of_gt hfetch.2 hx

end Sys2Proof.Machine

/-! PROOFS. The statements of the accountant (41_bus_cycle_accountant): the steps that run a whole instruction, the
growth of the ledger, and the timing table. -/

namespace Sys2Proof.Machine

/-! ## The steps of one instruction are its ticks -/

section
variable {M : Host.Core} {n : Nat} {s t : M.State}

theorem run_succ_of_next (h : M.step s = .next t) : M.run (n + 1) s = M.run n t := by
  rw [Host.Core.run, h]

theorem run_succ_of_fault {r : M.Fault} (h : M.step s = .fault r) : M.run (n + 1) s = .fault r := by
  rw [Host.Core.run, h]

theorem run_succ_of_refused {r : M.Refusal} (h : M.step s = .refused r) : M.run (n + 1) s = .refused r := by
  rw [Host.Core.run, h]

/-- A run depends on its first state through the first step alone. -/
theorem run_succ_congr (h : M.step s = M.step t) : M.run (n + 1) s = M.run (n + 1) t := by
  rw [Host.Core.run, Host.Core.run, h]

end

section
variable {i : Instr} {l : Ledger} {k n : Nat} {s : State}

/-- A step that ticks `i`, followed by steps that tick `i`. -/
theorem core_run_succ_eq_execTicks (hstep : step s = exec i s)
    (hrest : ∀ t, exec i s = .next t → core.run n t = execTicks i n t) :
    core.run (n + 1) s = execTicks i (n + 1) s := by
  cases ht : exec i s with
  | next t =>
    rw [execTicks, ht]
    exact (run_succ_of_next (M := core) (hstep.trans ht)).trans (hrest t ht)
  | fault r =>
    rw [execTicks, ht]
    exact run_succ_of_fault (M := core) (hstep.trans ht)
  | refused r =>
    rw [execTicks, ht]
    exact run_succ_of_refused (M := core) (hstep.trans ht)

/-- Once the operand is resolved the machine steps through the tick that size L has left (43 R165). -/
theorem Resolved.run_eq_execTicks (h : Resolved i l s) (hb : s.built = true)
    (hn : n ≤ if i.size = .l then 1 else 0) : core.run n s = execTicks i n s := by
  cases n with
  | zero => rfl
  | succ n =>
    have hz : i.size = .l := by
      by_contra hz
      rw [if_neg hz] at hn
      omega
    rw [if_pos hz] at hn
    obtain rfl : n = 0 := by omega
    obtain ⟨⟨hfatal, -⟩, hop, hm, -⟩ := h
    rw [if_pos hz] at hm
    exact core_run_succ_eq_execTicks (step_inProgress hfatal hb (.inr (.inr hm)) hop) fun _ _ => rfl

/-- After `k` steps of the operand fetch the machine steps through the ticks that the instruction has left: the ghost
copy of the opcode names it, and no step begins another before `FINISHED` (70 R252, R262). -/
theorem Prog.run_eq_execTicks (h : Prog i l k s) (hb : s.built = true) (hn : n + k ≤ compareTicks i.mode i.size) :
    core.run n s = execTicks i n s := by
  induction n generalizing k s with
  | zero => rfl
  | succ n ih =>
    obtain ⟨⟨⟨hfatal, -⟩, hm, hop, -⟩, -⟩ := id h
    refine core_run_succ_eq_execTicks (step_inProgress hfatal hb (.inl hm) hop) fun t ht => ?_
    have htb : t.built = true := (exec_sameStore ht).built.trans hb
    obtain hk | rfl := Nat.lt_or_eq_of_le h.le_nSteps
    · rcases prog_tick h hk with he | ⟨he, hp⟩
      · rw [he] at ht; cases ht
      · obtain rfl := Host.Outcome.next.inj (he.symm.trans ht)
        exact ih hp htb (by omega)
    · obtain ⟨he, hr⟩ := prog_last h
      obtain rfl := Host.Outcome.next.inj (he.symm.trans ht)
      exact hr.run_eq_execTicks htb (by rw [compareTicks] at hn; omega)

/-- From a boundary the machine steps through the ticks of the instruction that is ready there: its first step is the
step from the operand fetch just begun (43 R162). -/
theorem Ready.run_eq_execTicks {t : State} (h : Ready i s) (hb : s.built = true) (hstep : step t = exec i s) :
    core.run (compareTicks i.mode i.size) t = execTicks i (compareTicks i.mode i.size) s := by
  obtain ⟨hd, -⟩ := id h
  obtain ⟨hfatal, -⟩ := id hd
  have hbegin : step (beginRead i s) = exec i (beginRead i s) := step_inProgress hfatal hb (.inl rfl) rfl
  obtain ⟨n, hn⟩ := Nat.exists_eq_succ_of_ne_zero (Nat.ne_of_gt (compareTicks_pos i.mode i.size))
  have hfirst : core.run (n + 1) t = core.run (n + 1) (beginRead i s) :=
    run_succ_congr (M := core) (hstep.trans (h.exec_eq_beginRead.trans hbegin.symm))
  have hrun : core.run (n + 1) (beginRead i s) = execTicks i (n + 1) (beginRead i s) :=
    (beginRead_prog hd).run_eq_execTicks hb (Nat.le_of_eq hn.symm)
  have hticks : execTicks i (n + 1) (beginRead i s) = execTicks i (n + 1) s := by
    rw [execTicks, execTicks, h.exec_eq_beginRead]
  rw [hn]
  exact hfirst.trans (hrun.trans hticks)

end

/-- Settles O21: the steps are the ticks of the instruction from `beginInstruction`, and those are its big step. -/
theorem stepsRunTheWholeInstruction : Obligations.StepsRunTheWholeInstruction := by
  intro s i hinv hb hm hdec hop hr
  obtain ⟨hfatal, -, -, hmarker, -⟩ := hinv
  have ha := hmarker.inactive (Marker.ne_read_of_boundary hm)
  have hstep : step s = exec i (beginInstruction s) := by
    rw [step_first s hfatal hb ha hm hop, tickOpcode_of_decode hdec]
  have hready : Ready i (beginInstruction s) :=
    ⟨⟨hfatal, encodeWord_of_decodeWord hdec ▸ hop⟩, rfl, ha⟩
  exact (hready.run_eq_execTicks hb hstep).trans (ticksAreTheBigStep i _ hready hr)

/-! ## The ledger only grows -/

/-- From `s` to `t` the cycles do not fall and the log is only extended (41 R135). -/
def LedgerGrows (s t : State) : Prop :=
  s.ledger.cycles ≤ t.ledger.cycles ∧ ∃ tags, t.ledger.log = s.ledger.log ++ tags

theorem LedgerGrows.trans {s t u : State} (h : LedgerGrows s t) (h' : LedgerGrows t u) : LedgerGrows s u := by
  obtain ⟨hcycles, tags, hlog⟩ := h
  obtain ⟨hcycles', tags', hlog'⟩ := h'
  exact ⟨hcycles.trans hcycles', tags ++ tags', by rw [hlog', hlog, List.append_assoc]⟩

theorem LedgerGrows.of_plus {s t : State} (c : Nat) (tags : List Tag) (h : t.ledger = s.ledger.plus c tags) :
    LedgerGrows s t := by
  rw [LedgerGrows, h]
  exact ⟨Nat.le_add_right _ _, tags, rfl⟩

theorem LedgerGrows.of_eq {s t : State} (h : t.ledger = s.ledger) : LedgerGrows s t :=
  .of_plus 0 [] (by simp [h, Ledger.plus])

theorem LedgerGrows.charge (s : State) (c : Nat) : LedgerGrows s (s.charge c) :=
  .of_plus c [] (by simp [State.charge, Ledger.plus])

theorem LedgerGrows.record (s : State) (tag : Tag) : LedgerGrows s (s.record tag) :=
  .of_plus _ [tag] rfl

/-- An unresolved poll records the tag of its step (40 R102). -/
theorem PollEffect.ledgerGrows {tag : Tag} {s t : State} (h : PollEffect tag s t) : LedgerGrows s t :=
  .of_plus _ [tag] (congrArg State.ledger h.state)

/-- State `NONE` begins the operand fetch, which charges nothing (40 R100). -/
theorem microNone_ledgerGrows {op : Word} {f : Form} {s t : State}
    (h : microNone op f s = .again t ∨ microNone op f s = .consumed t) : LedgerGrows s t := by
  unfold microNone at h
  split at h
  next u hu =>
    obtain rfl := Micro.again.inj (h.resolve_right (by simp))
    have hledger : u.ledger = s.ledger := by rw [eaBeginRead_begun hu]
    exact .of_eq hledger
  next => simp at h
  next => simp at h

/-- State `READ` polls: an unresolved poll is charged, one that reports done charges nothing (43 R163). -/
theorem microRead_ledgerGrows {f : Form} {s t : State}
    (h : microRead f s = .again t ∨ microRead f s = .consumed t) : LedgerGrows s t := by
  unfold microRead at h
  split at h
  next => simp at h
  next =>
    split at h
    next => simp at h
    next u hu =>
      obtain rfl := Micro.consumed.inj (h.resolve_left (by simp))
      obtain ⟨tag, heffect⟩ := eaPoll_unresolved hu
      exact heffect.ledgerGrows.trans (.charge u _)
    next v u hu =>
      obtain rfl := Micro.again.inj (h.resolve_right (by simp))
      obtain ⟨-, rfl⟩ := eaPoll_eq_done hu
      exact .of_eq rfl

/-- No micro-step of the handler, whatever opcode it is given, lets the ledger decrease (43 R161). -/
theorem microStep_ledgerGrows {op : Word} {f : Form} {s t : State}
    (h : microStep op f s = .again t ∨ microStep op f s = .consumed t) : LedgerGrows s t := by
  cases hm : s.marker with
  | none =>
    simp only [microStep, hm] at h
    exact microNone_ledgerGrows h
  | read =>
    simp only [microStep, hm] at h
    exact microRead_ledgerGrows h
  | prefetch =>
    simp only [microStep, hm, microPrefetch, reduceCtorEq, false_or] at h
    obtain rfl := Micro.consumed.inj h
    exact (LedgerGrows.charge s _).trans (.record _ .prefetch)
  | long =>
    simp only [microStep, hm, microLong, reduceCtorEq, false_or] at h
    obtain rfl := Micro.consumed.inj h
    exact .charge s _
  | finished =>
    simp only [microStep, hm, reduceCtorEq, false_or] at h
    obtain rfl := Micro.consumed.inj h
    exact .of_eq rfl
  | bad4 | bad5 | bad6 => simp [microStep, hm] at h

theorem untilConsumed_ledgerGrows {op : Word} {f : Form} {k : Nat} {s t : State}
    (h : untilConsumed op f k s = .next t) : LedgerGrows s t := by
  induction k generalizing s with
  | zero => exact .of_eq (congrArg State.ledger (Result.next.inj h).symm)
  | succ k ih =>
    rw [untilConsumed_succ] at h
    split at h
    next u hu => exact (microStep_ledgerGrows (.inl hu)).trans (ih h)
    next u hu =>
      obtain rfl := Result.next.inj h
      exact microStep_ledgerGrows (.inr hu)
    next => cases h
    next => cases h

/-- A tick that answers a next state has passed its guards and run the handler's loop (43 R161). -/
theorem compareTick_next {op : Word} {f : Form} {s t : State} (h : compareTick op f s = .next t) :
    untilConsumed op f 3 s = .next t := by
  cases hf : s.fatal with
  | true => rw [compareTick_afterFatal hf] at h; cases h
  | false =>
    cases hop : s.execAt op with
    | illegal => simp [compareTick, hf, hop] at h
    | hCmp =>
      cases hm : s.marker with
      | none => simpa [compareTick, hf, hop, hm] using h
      | read | prefetch | long =>
        simp only [compareTick, hf, hop, hm, Bool.false_eq_true, if_false] at h
        split at h
        · exact h
        · cases h
      | finished =>
        have hloop : untilConsumed op f 3 s = .next s := by simp only [untilConsumed_succ, microStep, hm]
        simp only [compareTick, hf, hop, hm, Bool.false_eq_true, if_false] at h
        exact hloop.trans h
      | bad4 | bad5 | bad6 => simp [compareTick, hf, hop, hm] at h

theorem executePort_ledgerGrows {op : Word} {s t : State} (h : executePort op s = .next t) : LedgerGrows s t :=
  untilConsumed_ledgerGrows (compareTick_next h)

/-- Every action but reset and the external clear leaves the ledger or ticks (41 R135). -/
theorem act_ledgerGrows {x : Action} {s t : State} (h : act x s = .next t) (hclear : x ≠ .clearLedger)
    (hreset : ∀ u, x ≠ .reset u) : LedgerGrows s t := by
  cases x with
  | reset u => exact absurd rfl (hreset u)
  | clearLedger => exact absurd rfl hclear
  | tick op => exact executePort_ledgerGrows h
  | buildTables =>
    obtain ⟨-, rfl⟩ := buildTables_next_eq h
    exact .of_eq rfl
  | writeExec | writePrint =>
    obtain rfl := tableWrite_next_eq h
    exact .of_eq rfl
  | lookup => exact .of_eq (dispatch_next h ▸ rfl)
  | lookupPrint => exact .of_eq (printDispatch_next h ▸ rfl)
  | reloadMarker | writeMarker | writeD | writeA | writeFlags | writePc | writeEa =>
    obtain rfl := atBoundary_next_eq h
    exact .of_eq rfl
  | busWrite =>
    obtain rfl := Result.next.inj h
    exact .of_eq rfl

/-- Settles O51: an instruction's tick is one call of the execute port, whose micro-steps only charge and record, and
the other actions do not write the ledger. -/
theorem ledgerNeverDecreases : Obligations.LedgerNeverDecreases := by
  constructor
  · intro i s t h
    rw [exec_eq_executePort] at h
    exact executePort_ledgerGrows (Result.toOutcome_eq_next h)
  · intro x s t h hclear hreset
    exact act_ledgerGrows h hclear hreset

/-! ## Every tick takes time -/

/-- A tick in state `READ` charges `C_READ_WAIT` or `C_INSTR` (43 R163, R164). -/
theorem readTick_takesTime {i : Instr} {s t : State} (hwait : 0 < s.config.cost.readWait)
    (hinstr : 0 < s.config.cost.instr) (h : readTick i s = .next t) : s.ledger.cycles < t.ledger.cycles := by
  unfold readTick at h
  split at h
  next => cases h
  next u hu =>
    obtain rfl := Result.next.inj h
    obtain ⟨tag, heffect⟩ := eaPoll_unresolved hu
    obtain ⟨hcycles, -⟩ := heffect.ledgerGrows
    exact Nat.lt_of_le_of_lt hcycles (Nat.lt_add_of_pos_right hwait)
  next v u hu =>
    obtain rfl := Result.next.inj h
    obtain ⟨-, rfl⟩ := eaPoll_eq_done hu
    exact Nat.lt_add_right _ (Nat.lt_add_of_pos_right hinstr)

/-- Settles O52: in each of the ways a tick can go on, but the no-op at `FINISHED`, one of the three charges is made. -/
theorem everyTickTakesTime : Obligations.EveryTickTakesTime := by
  intro i s t hwait hinstr hlong hm h
  obtain ⟨-, ⟨-, -, hr⟩ | ⟨-, -, hr⟩ | ⟨-, -, rfl⟩ | ⟨-, -, rfl⟩ | ⟨hfin, -⟩⟩ := exec_next_cases h
  · exact readTick_takesTime (s := beginRead i s) hwait hinstr hr
  · exact readTick_takesTime hwait hinstr hr
  · exact Nat.lt_add_right _ (Nat.lt_add_of_pos_right hinstr)
  · exact Nat.lt_add_of_pos_right hlong
  · exact absurd hfin hm

/-! ## The timing table -/

/-- Settles O23: each row is computed from the step table and the default costs. -/
theorem timingTableAtTheDefaults : Obligations.TimingTableAtTheDefaults :=
  ⟨rfl, rfl, rfl, rfl, rfl, rfl, rfl, rfl, rfl, rfl, rfl, rfl⟩

end Sys2Proof.Machine

/-! PROOFS. The statements of the flag engine (42_flag_engine): the subtraction in numbers, each of the four flags from
what the subtraction returns, and the truth table of `V` and `C`. -/

namespace Sys2Proof.Machine

/-! ## The four flags of what `Sub` returns -/

@[simp] theorem compareFlags_n (x : SubResult) : (compareFlags x).n = x.rm := rfl

theorem compareFlags_z_iff (x : SubResult) : (compareFlags x).z = true ↔ x.r = 0 := decide_eq_true_iff

/-- `V` by the sign bits, as 42 R154 words it. -/
theorem compareFlags_v_iff (x : SubResult) : (compareFlags x).v = true ↔ x.sm ≠ x.dm ∧ x.rm ≠ x.dm := by
  simp [compareFlags, overflowFlag]

/-- `C` by the sign bits (42 R155). -/
theorem compareFlags_c_iff (x : SubResult) : (compareFlags x).c = true ↔
    (x.sm = true ∧ x.dm = false) ∨ (x.rm = true ∧ x.dm = false) ∨ (x.sm = true ∧ x.rm = true) := by
  simp [compareFlags, carryFlag, or_assoc]

section
variable (sz : Size) (dst src : Long)

/-! ## The subtraction (42 R150) -/

/-- The subtraction masks its operands itself (42 R158). -/
theorem sub_mask_mask : sub sz (mask sz dst) (mask sz src) = sub sz dst src := by
  simp only [sub, mask_mask]

/-! ## Zero and negative (42 R152, R153) -/

theorem sub_r_eq_zero_iff : (sub sz dst src).r = 0 ↔ mask sz dst = mask sz src := by
  obtain ⟨N, x, y, r, -, -, -, hx, hy, hxd, hys, hr, hsub, -⟩ := sub_facts sz dst src
  rw [← BitVec.toNat_inj, ← BitVec.toNat_inj, ← hxd, ← hys, ← hr]
  change r = 0 ↔ x = y
  split at hsub <;> omega

theorem compareFlags_z_iff_mask_eq :
    (compareFlags (sub sz dst src)).z = true ↔ mask sz dst = mask sz src :=
  (compareFlags_z_iff _).trans (sub_r_eq_zero_iff sz dst src)

/-- The sign bit of the result, at its place in the masked result. -/
theorem sub_rm_eq_getLsbD : (sub sz dst src).rm = (sub sz dst src).r.getLsbD (Size.bits sz - 1) := rfl

/-! ## Carry (42 R155) -/

theorem compareFlags_c_iff_lt :
    (compareFlags (sub sz dst src)).c = true ↔ (mask sz dst).toNat < (mask sz src).toNat := by
  obtain ⟨N, x, y, r, hN, -, -, hx, hy, hxd, hys, -, hsub, hdm, hsm, hrm⟩ := sub_facts sz dst src
  rw [compareFlags_c_iff, hdm, hsm, hrm, ← hxd, ← hys]
  simp only [decide_eq_true_iff, decide_eq_false_iff_not]
  split at hsub <;> omega

/-! ## The signed difference (42 R153, R154) -/

theorem mask_lt_int (v : Long) : ((mask sz v).toNat : Int) < 2 * 2 ^ (Size.bits sz - 1) :=
  mod_cast (two_pow_bits sz).2.1 ▸ mask_lt sz v

theorem msb_iff_int (v : Long) : msb sz v = true ↔ (2 : Int) ^ (Size.bits sz - 1) ≤ (mask sz v).toNat :=
  mod_cast msb_iff sz v

/-- Two's complement at a width: the sign bit takes the modulus off the masked value. -/
theorem signedValue_eq (v : Long) : signedValue sz v =
    if (2 : Int) ^ (Size.bits sz - 1) ≤ (mask sz v).toNat then ((mask sz v).toNat : Int) - 2 * 2 ^ (Size.bits sz - 1)
    else (mask sz v).toNat := by
  have hdouble : (2 : Int) ^ Size.bits sz = 2 * 2 ^ (Size.bits sz - 1) := mod_cast (two_pow_bits sz).2.1
  simp only [signedValue, msb_iff_int, hdouble]

theorem signedValue_bounds (v : Long) :
    -2 ^ (Size.bits sz - 1) ≤ signedValue sz v ∧ signedValue sz v < 2 ^ (Size.bits sz - 1) := by
  have hlt := mask_lt_int sz v
  rw [signedValue_eq]
  split <;> omega

theorem msb_eq_decide_signedValue_neg (v : Long) : msb sz v = decide (signedValue sz v < 0) := by
  have hlt := mask_lt_int sz v
  rw [Bool.eq_iff_iff, decide_eq_true_iff, msb_iff_int, signedValue_eq]
  split <;> omega

/-- The three sign bits of the subtraction, as the signs of the numbers that its operands and its result spell. -/
theorem sub_signs : (sub sz dst src).dm = decide (signedValue sz dst < 0) ∧
    (sub sz dst src).sm = decide (signedValue sz src < 0) ∧
    (sub sz dst src).rm = decide (signedValue sz (sub sz dst src).r < 0) := by
  rw [sub_dm, sub_sm]
  exact ⟨msb_eq_decide_signedValue_neg sz dst, msb_eq_decide_signedValue_neg sz src, msb_eq_decide_signedValue_neg sz _⟩

/-- The result spells the signed difference, off by the modulus where that is out of range. -/
theorem signedValue_sub : signedValue sz (sub sz dst src).r =
    if signedValue sz dst - signedValue sz src < -2 ^ (Size.bits sz - 1) then
      signedValue sz dst - signedValue sz src + 2 * 2 ^ (Size.bits sz - 1)
    else if 2 ^ (Size.bits sz - 1) ≤ signedValue sz dst - signedValue sz src then
      signedValue sz dst - signedValue sz src - 2 * 2 ^ (Size.bits sz - 1)
    else signedValue sz dst - signedValue sz src := by
  obtain ⟨N, x, y, r, hN, -, hpow, hx, hy, hxd, hys, hr, hsub, -⟩ := sub_facts sz dst src
  have hpowInt : (2 : Int) ^ (Size.bits sz - 1) = N := mod_cast hpow
  have hmask : mask sz (sub sz dst src).r = (sub sz dst src).r := mask_mask sz _
  rw [signedValue_eq, signedValue_eq sz dst, signedValue_eq sz src, hmask, hpowInt, ← hxd, ← hys, ← hr]
  split at hsub <;> split_ifs <;> omega

/-- `V` (42 R154): the operands' signs differ and the result has the source's, when the difference does not fit. -/
theorem compareFlags_v_iff_out_of_range : (compareFlags (sub sz dst src)).v = true ↔
    signedValue sz dst - signedValue sz src < -2 ^ (Size.bits sz - 1) ∨
      2 ^ (Size.bits sz - 1) ≤ signedValue sz dst - signedValue sz src := by
  have hd := signedValue_bounds sz dst
  have hs := signedValue_bounds sz src
  obtain ⟨hdm, hsm, hrm⟩ := sub_signs sz dst src
  rw [compareFlags_v_iff, hdm, hsm, hrm, signedValue_sub]
  simp only [ne_eq, decide_eq_decide]
  split_ifs <;> omega

/-- The result's sign is that of the difference unless `V` says that it overflowed. -/
theorem compareFlags_n_xor_v_iff_lt :
    ((compareFlags (sub sz dst src)).n ^^ (compareFlags (sub sz dst src)).v) = true ↔
      signedValue sz dst < signedValue sz src := by
  have hd := signedValue_bounds sz dst
  have hs := signedValue_bounds sz src
  obtain ⟨-, -, hrm⟩ := sub_signs sz dst src
  rw [Bool.xor_iff_ne, ne_eq, Bool.eq_iff_iff, compareFlags_v_iff_out_of_range, compareFlags_n, hrm, decide_eq_true_iff,
    signedValue_sub]
  split_ifs <;> omega

/-! ## Equal operands -/

theorem compareFlags_of_mask_eq (h : mask sz dst = mask sz src) :
    compareFlags (sub sz dst src) = { n := false, z := true, v := false, c := false } := by
  have hr : (sub sz dst src).r = 0 := (sub_r_eq_zero_iff sz dst src).2 h
  have hrm : (sub sz dst src).rm = false := by
    rw [sub_rm_eq_getLsbD, hr]
    exact BitVec.getLsbD_zero
  have hsigns : (sub sz dst src).sm = (sub sz dst src).dm := by rw [sub_sm, sub_dm, ← msb_mask, ← h, msb_mask]
  simp [compareFlags, negativeFlag, zeroFlag, overflowFlag, carryFlag, hr, hrm, hsigns]

end

/-! ## The statements of the single flags -/

/-- Settles O44: the operands are taken modulo the width, and a sign bit is an order on the masked value. -/
theorem subtractionIsModularAtTheWidth : Obligations.SubtractionIsModularAtTheWidth := by
  intro sz dst src
  refine ⟨?_, sub_dm sz dst src, sub_sm sz dst src, sub_rm sz dst src⟩
  rw [sub_r_toNat, mask_toNat, mask_toNat]

/-- Settles O45: the result is zero for equal masked operands, and `N` is its sign bit, whose place is the width's. -/
theorem zeroAndNegativeFlags : Obligations.ZeroAndNegativeFlags := by
  refine ⟨fun sz dst src => ⟨compareFlags_z_iff _, compareFlags_z_iff_mask_eq sz dst src⟩, fun dst src => ?_⟩
  exact ⟨sub_rm_eq_getLsbD .b dst src, sub_rm_eq_getLsbD .w dst src, sub_rm_eq_getLsbD .l dst src⟩

/-- Settles O46: the signs of the operands and of the wrapped result, against the range of the difference. -/
theorem overflowFlagMeansOutOfSignedRange : Obligations.OverflowFlagMeansOutOfSignedRange := fun sz dst src =>
  ⟨compareFlags_v_iff (sub sz dst src), compareFlags_v_iff_out_of_range sz dst src⟩

/-- Settles O47: the sign bits as orders on the masked operands and on the result modulo the width. -/
theorem carryFlagMeansUnsignedBorrow : Obligations.CarryFlagMeansUnsignedBorrow := fun sz dst src =>
  ⟨compareFlags_c_iff (sub sz dst src), compareFlags_c_iff_lt sz dst src⟩

/-- Settles O49: masking is idempotent, the orders are those of `N`, `V` and `C`, and `Z` means equal operands. -/
theorem flagsCompareTheMaskedOperands : Obligations.FlagsCompareTheMaskedOperands := by
  intro sz dst src
  refine ⟨by rw [sub_mask_mask], compareFlags_n_xor_v_iff_lt sz dst src, compareFlags_c_iff_lt sz dst src, fun hz => ?_⟩
  exact compareFlags_of_mask_eq sz dst src ((compareFlags_z_iff_mask_eq sz dst src).1 hz)

/-! ## The truth table (42 R156) -/

/-- A row of the truth table: the sign bits of source, destination and result, then `V` and `C`. -/
def flagRow (x : SubResult) : Bool × Bool × Bool × Bool × Bool :=
  (x.sm, x.dm, x.rm, (compareFlags x).v, (compareFlags x).c)

/-- The eight rows of 42 R156. -/
def flagRows : List (Bool × Bool × Bool × Bool × Bool) :=
  [(false, false, false, false, false), (false, false, true, false, true), (false, true, false, true, false),
   (false, true, true, false, false), (true, false, false, false, true), (true, false, true, true, true),
   (true, true, false, false, false), (true, true, true, false, true)]

/-- The operands `(d, s)` of the byte examples of 42 R156, in the order of the rows. -/
def byteExamples : List (Long × Long) :=
  [(0x07, 0x05), (0x05, 0x07), (0x80, 0x01), (0xFF, 0x01), (0x01, 0xFF), (0x7F, 0x80), (0xFF, 0x80), (0x80, 0xFF)]

/-- The other two bits of a row are functions of the sign bits, so the eight rows are all. -/
theorem flagRow_mem_flagRows (x : SubResult) : flagRow x ∈ flagRows := by
  obtain ⟨r, sm, dm, rm⟩ := x
  simp only [flagRow, compareFlags, overflowFlag, carryFlag]
  decide +revert

/-- The row of an example's bytes, each moved to the top byte of the width. -/
def exampleRow (sz : Size) (e : Long × Long) : Bool × Bool × Bool × Bool × Bool :=
  flagRow (sub sz (e.1 <<< (Size.bits sz - 8)) (e.2 <<< (Size.bits sz - 8)))

/-- At every width the examples reach the rows, in their order. -/
theorem map_exampleRow_byteExamples (sz : Size) : byteExamples.map (exampleRow sz) = flagRows := by
  cases sz <;> decide

/-- Settles O48: the rows are all the combinations of three sign bits, and the byte examples reach them. -/
theorem flagTruthTable : Obligations.FlagTruthTable := by
  refine ⟨fun sz => ⟨fun dst src => flagRow_mem_flagRows (sub sz dst src), fun row hrow => ?_⟩, by decide, by decide⟩
  have hreached : row ∈ byteExamples.map (exampleRow sz) := map_exampleRow_byteExamples sz ▸ hrow
  obtain ⟨e, -, he⟩ := List.mem_map.1 hreached
  exact ⟨_, _, he⟩

end Sys2Proof.Machine

/-! PROOFS. The statements of the compare state machine (43_compare_state_machine): the tick in state `LONG`, the tick
at `FINISHED`, and the six ticks that are enough for every run. -/

namespace Sys2Proof.Machine

/-- Settles O35: with the opcode that the first tick presented, state `LONG` consumes its tick at once. -/
theorem longStateTick : Obligations.LongStateTick := by
  intro i s hd hm hop
  rw [exec_dispatched i s hd, dispatchedTick, hm]
  simp only [if_pos hop]
  rfl

/-- Settles O36: at `FINISHED` a dispatched tick answers the state it was given. -/
theorem finishedTickChangesNothing : Obligations.FinishedTickChangesNothing := by
  intro i s hd hm
  rw [exec_dispatched i s hd, dispatchedTick, hm]
  rfl

/-- The longest operand fetch has four steps (40 R102), so an instruction has at most six ticks (43 R171). -/
theorem compareTicks_le_six (m : Mode) (sz : Size) : compareTicks m sz ≤ 6 := by
  have hsteps := nSteps_le_four m sz
  rw [compareTicks]
  split <;> omega

/-- Ticks past the end of an instruction change nothing (43 R166). -/
theorem execTicks_finished {i : Instr} {s : State} (hd : Dispatched i s) (hm : s.marker = .finished) (k : Nat) :
    execTicks i k s = .next s := by
  induction k with
  | zero => rfl
  | succ k ih =>
    rw [execTicks, finishedTickChangesNothing i s hd hm]
    exact ih

/-- A run that has finished stays as it is, however many more ticks it is given. -/
theorem execTicks_of_finished {i : Instr} {a b : Nat} {s t : State} (h : execTicks i a s = .next t) (hab : a ≤ b)
    (hd : Dispatched i t) (hm : t.marker = .finished) : execTicks i b s = .next t := by
  obtain ⟨c, rfl⟩ := Nat.exists_eq_add_of_le hab
  rw [execTicks_add, h]
  exact execTicks_finished hd hm c

/-- Settles O20: an instruction's own ticks reach its big step, which is `FINISHED`, or its odd access, and
the ticks left of the six change neither. -/
theorem runsFinishWithinSixTicks : Obligations.RunsFinishWithinSixTicks := by
  intro i s h
  have hsix := compareTicks_le_six i.mode i.size
  refine ⟨hsix, ?_⟩
  cases hr : operandRefused i.mode i.reg i.size s with
  | true => exact .inr (execTicks_refused (oddAccessRefusesTheRun i s h hr) hsix)
  | false =>
    obtain ⟨hd, -⟩ := id h
    have hend : Dispatched i (compareEffect i.size i.mode i.dreg i.reg s) := hd
    exact .inl ⟨_, execTicks_of_finished (ticksAreTheBigStep i s h hr) hsix hend rfl, rfl⟩

end Sys2Proof.Machine

/-! PROOFS. The statements of the dispatch table builder (44_dispatch_table_builder): what a built table reads, the
slots of COMPARE against the decoder and their number, and the lookups. -/

namespace Sys2Proof.Machine

/-! ## What a built table reads -/

theorem registeredSlots_lt (classes : List InstrClass) : ∀ k ∈ registeredSlots classes, k < 65536 := fun k hk =>
  compareSlots_lt k (mem_registeredSlots hk)

/-- In a built table the handler stands exactly at the registered slots (44 R184). -/
theorem afterBuild_execAt (s : State) (op : Word) :
    (afterBuild s).execAt op = if op.toNat ∈ registeredSlots s.config.classes then .hCmp else .illegal :=
  writeSlots_read (registeredSlots_lt _) rfl op.toNat

theorem afterBuild_printAt (s : State) (op : Word) :
    (afterBuild s).printAt op = if op.toNat ∈ registeredSlots s.config.classes then .pCmp else .illegal :=
  writeSlots_read (registeredSlots_lt _) rfl op.toNat

theorem afterBuild_execAt_eq_illegal_iff {s : State} {op : Word} :
    (afterBuild s).execAt op = .illegal ↔ op.toNat ∉ registeredSlots s.config.classes := by
  rw [afterBuild_execAt]
  split <;> simp [*]

theorem afterBuild_printAt_eq_illegal_iff {s : State} {op : Word} :
    (afterBuild s).printAt op = .illegal ↔ op.toNat ∉ registeredSlots s.config.classes := by
  rw [afterBuild_printAt]
  split <;> simp [*]

theorem registeredSlots_compare : registeredSlots [.compare] = compareSlots :=
  List.append_nil compareSlots

/-! ## The slots of COMPARE are the words that the decoder accepts -/

/-- A mode's code and a register number that fits the mode join to an `ea` of that mode (30_encoding R83). -/
theorem modeOf_join : ∀ (m : Mode) (r : RegNum), (Form.mk none (some m) 0 r).regFits = true →
    modeOf (BitVec.ofNat 6 (m.code <<< 3 ||| r.val)) = some m := by
  intro m
  cases m <;> decide

theorem ea_join_lt (m : Mode) (r : RegNum) : m.code <<< 3 ||| r.val < 64 := by
  have hcode : m.code <<< 3 < 2 ^ 6 := by cases m <;> decide
  exact Nat.or_lt_two_pow hcode (by omega)

theorem Instr.regFits_reg (i : Instr) : (Form.mk none (some i.mode) 0 i.reg).regFits = true := by
  have h := regFits_formOf (encodeWord i)
  rwa [formOf_encodeWord, Instr.form_eq] at h

theorem eaValid_of_modeOf {ea : BitVec 6} {excl : List Mode} {m : Mode} (hm : modeOf ea = some m) (h : m ∉ excl) :
    eaValid ea excl = true := by
  simpa [eaValid, hm] using h

/-- The registration has a pair for every size, which excludes at most AREG at size B (44 R183). -/
theorem exists_compareSizes (sz : Size) :
    ∃ p ∈ compareSizes, p.1 = sz.code ∧ ∀ m ∈ p.2, m = .areg ∧ sz = .b := by
  cases sz <;> decide

/-- The slot that the registration writes for an instruction's fields is the instruction's opcode word (44 R183). -/
theorem encodeWord_mem_compareSlots (i : Instr) : (encodeWord i).toNat ∈ compareSlots := by
  obtain ⟨p, hp, hcode, hexcl⟩ := exists_compareSizes i.size
  have hvalid := eaValid_of_modeOf (modeOf_join i.mode i.reg (Instr.regFits_reg i))
    fun h => Instr.not_areg_byte i (hexcl _ h)
  have hmem := mem_compareSlots.2 ⟨i.dreg.val, i.dreg.isLt, p, hp,
    mem_compareSlotsOf.2 ⟨_, ea_join_lt i.mode i.reg, hvalid, rfl⟩⟩
  have hword : encodeWord i =
      BitVec.ofNat 16 (0xB000 ||| i.dreg.val <<< 9 ||| p.1 <<< 6 ||| (i.mode.code <<< 3 ||| i.reg.val)) := by
    rw [encodeWord_eq, hcode]
    simp only [opcodeOf, BitVec.ofNat_or, BitVec.or_assoc]
  rw [hword, BitVec.toNat_ofNat, Nat.mod_eq_of_lt (compareSlots_lt _ hmem)]
  exact hmem

/-- The COMPARE registration writes exactly the words that the decoder accepts (44 R183, R187). -/
theorem mem_compareSlots_iff_decodeWord {op : Word} : op.toNat ∈ compareSlots ↔ ∃ i, decodeWord op = .ok i := by
  constructor
  · intro h
    obtain ⟨i, rfl⟩ := compareSlot_encodes h
    exact ⟨i, decodeWord_encodeWord i⟩
  · rintro ⟨i, h⟩
    rw [← encodeWord_of_decodeWord h]
    exact encodeWord_mem_compareSlots i

/-! ## The number of slots of COMPARE -/

/-- The fields of a slot do not overlap, so their join is a sum (30_encoding R81). -/
theorem slot_eq_add {dreg c ea : Nat} (hd : dreg < 8) (hc : c < 8) (he : ea < 64) :
    0xB000 ||| dreg <<< 9 ||| c <<< 6 ||| ea = 0xB000 + dreg * 512 + c * 64 + ea := by
  have hd' : dreg <<< 9 < 2 ^ 12 := by rw [Nat.shiftLeft_eq]; omega
  have hc' : c <<< 6 < 2 ^ 9 := by rw [Nat.shiftLeft_eq]; omega
  calc
    0xB000 ||| dreg <<< 9 ||| c <<< 6 ||| ea = 11 <<< 12 ||| (dreg <<< 9 ||| (c <<< 6 ||| ea)) := by
      simp only [Nat.or_assoc]; rfl
    _ = 11 <<< 12 + (dreg <<< 9 + (c <<< 6 + ea)) := by
      rw [← Nat.shiftLeft_add_eq_or_of_lt (show ea < 2 ^ 6 from he) c,
        ← Nat.shiftLeft_add_eq_or_of_lt (show c <<< 6 + ea < 2 ^ 9 by rw [Nat.shiftLeft_eq]; omega) dreg,
        ← Nat.shiftLeft_add_eq_or_of_lt (show dreg <<< 9 + (c <<< 6 + ea) < 2 ^ 12 by
          simp only [Nat.shiftLeft_eq]; omega) 11]
    _ = 0xB000 + dreg * 512 + c * 64 + ea := by
      simp only [Nat.shiftLeft_eq]; omega

theorem compareSizes_lt : ∀ p ∈ compareSizes, p.1 < 8 := by decide

/-- A slot tells its destination register and size code. -/
theorem keys_of_mem_compareSlotsOf {dreg c op : Nat} {excl : List Mode} (hd : dreg < 8) (hc : c < 8)
    (h : op ∈ compareSlotsOf dreg c excl) : op / 512 = 88 + dreg ∧ op / 64 % 8 = c := by
  obtain ⟨ea, he, -, rfl⟩ := mem_compareSlotsOf.1 h
  rw [slot_eq_add hd hc he]
  omega

theorem compareSlotsOf_nodup {dreg c : Nat} (excl : List Mode) (hd : dreg < 8) (hc : c < 8) :
    (compareSlotsOf dreg c excl).Nodup := by
  refine List.Nodup.map_on (fun x hx y hy h => ?_) (List.nodup_range.filter _)
  have hx' := List.mem_range.1 (List.mem_filter.1 hx).1
  have hy' := List.mem_range.1 (List.mem_filter.1 hy).1
  rw [slot_eq_add hd hc hx', slot_eq_add hd hc hy'] at h
  exact Nat.add_left_cancel h

/-- Lists without repetition, told apart by a key of their members, join to a list without repetition. -/
theorem nodup_flatMap_of_key {α β κ : Type} {l : List α} {f : α → List β} (key : α → κ) (keyOf : β → κ)
    (hl : (l.map key).Nodup) (hf : ∀ x ∈ l, (f x).Nodup) (hkey : ∀ x ∈ l, ∀ y ∈ f x, keyOf y = key x) :
    (l.flatMap f).Nodup := by
  refine List.nodup_flatMap.2 ⟨hf, (List.pairwise_map.1 hl).imp_of_mem fun {x x'} hx hx' hne => ?_⟩
  intro y hy hy'
  exact hne ((hkey x hx y hy).symm.trans (hkey x' hx' y hy'))

/-- The COMPARE registration writes no slot twice (44 R183). -/
theorem compareSlots_nodup : compareSlots.Nodup := by
  have hkeys {dreg : Nat} (hd : dreg < 8) {p : Nat × List Mode} (hp : p ∈ compareSizes) {op : Nat}
      (hop : op ∈ compareSlotsOf dreg p.1 p.2) := keys_of_mem_compareSlotsOf hd (compareSizes_lt p hp) hop
  refine nodup_flatMap_of_key (fun dreg => 88 + dreg) (· / 512) (by decide) (fun dreg hd => ?_)
    fun dreg hd op hop => ?_
  · have hd' := List.mem_range.1 hd
    exact nodup_flatMap_of_key Prod.fst (· / 64 % 8) (by decide)
      (fun p hp => compareSlotsOf_nodup p.2 hd' (compareSizes_lt p hp)) fun p hp op hop => (hkeys hd' hp hop).2
  · obtain ⟨p, hp, hop'⟩ := List.mem_flatMap.1 hop
    exact (hkeys (List.mem_range.1 hd) hp hop').1

/-- A destination register has 51 slots at size B and 59 at each of W and L (44 R183, R187). -/
theorem compareSizes_slots_length (dreg : Nat) :
    (compareSizes.flatMap fun p => compareSlotsOf dreg p.1 p.2).length = 51 + 59 + 59 := by
  have hb : ((List.range 64).filter fun ea => eaValid (BitVec.ofNat 6 ea) [.areg]).length = 51 := by decide
  have hwl : ((List.range 64).filter fun ea => eaValid (BitVec.ofNat 6 ea) []).length = 59 := by decide
  simp only [compareSizes, List.flatMap_cons, List.flatMap_nil, List.length_append, compareSlotsOf, List.length_map,
    hb, hwl, List.length_nil]

theorem compareSlots_length : compareSlots.length = 1352 := by
  rw [compareSlots, List.length_flatMap]
  simp only [compareSizes_slots_length]
  rfl

/-- The slots of COMPARE as words. -/
def compareWords : List Word := compareSlots.map (BitVec.ofNat 16)

theorem mem_compareWords {op : Word} : op ∈ compareWords ↔ op.toNat ∈ compareSlots := by
  constructor
  · intro h
    obtain ⟨k, hk, rfl⟩ := List.mem_map.1 h
    rwa [BitVec.toNat_ofNat, Nat.mod_eq_of_lt (compareSlots_lt k hk)]
  · intro h
    exact List.mem_map.2 ⟨op.toNat, h, BitVec.ofNat_toNat 16 op ▸ BitVec.setWidth_eq op⟩

theorem compareWords_nodup : compareWords.Nodup := by
  refine List.Nodup.map_on (fun x hx y hy h => ?_) compareSlots_nodup
  have h' := congrArg BitVec.toNat h
  rwa [BitVec.toNat_ofNat, BitVec.toNat_ofNat, Nat.mod_eq_of_lt (compareSlots_lt x hx),
    Nat.mod_eq_of_lt (compareSlots_lt y hy)] at h'

theorem compareWords_length : compareWords.length = 1352 := by
  rw [compareWords, List.length_map, compareSlots_length]

/-! ## The statements -/

/-- Settles O11: the registered slots are the words that the decoder accepts, whose closed form is O2's. -/
theorem builtTableIsTheClosedForm : Obligations.BuiltTableIsTheClosedForm := by
  intro s hc
  have hexec (op : Word) : (afterBuild s).execAt op = if op.toNat ∈ compareSlots then .hCmp else .illegal := by
    rw [afterBuild_execAt, hc, registeredSlots_compare]
  refine ⟨afterBuild s, buildTables_eq (hc ▸ claimsTwice_one), fun op => ?_, compareWords, compareWords_nodup,
    compareWords_length, fun op => ?_⟩
  · have hclosed := mem_compareSlots_iff_decodeWord.trans (decoderAcceptsExactlyTheClosedForm op)
    rw [hexec]
    split
    next h => exact if_pos (hclosed.2 h)
    next h => exact if_neg (mt hclosed.1 h)
  · rw [mem_compareWords, hexec]
    split <;> simp [*]

/-- Settles O12: the tables that the builder leaves are determined by the configuration, which it does not change. -/
theorem buildTablesIsIdempotent : Obligations.BuildTablesIsIdempotent := by
  intro s t h
  refine ⟨buildTables_again h, fun x y => ?_⟩
  obtain ⟨hc, rfl⟩ := buildTables_next_eq h
  exact ⟨_, buildTables_eq (s := { s with execTable := x, printTable := y }) hc, rfl, rfl⟩

/-- Settles O13: in both tables the sentinel stands exactly outside the registered slots. -/
theorem builtTablesAreParallel : Obligations.BuiltTablesAreParallel := by
  intro s t h op
  obtain ⟨-, rfl⟩ := buildTables_next_eq h
  rw [afterBuild_execAt_eq_illegal_iff, afterBuild_printAt_eq_illegal_iff]

/-- Settles O14: two entries of COMPARE claim one slot, and no entry registers none. -/
theorem classesMayNotShareASlot : Obligations.ClassesMayNotShareASlot := by
  constructor
  · intro s t hc
    exact buildTables_claimed (hc ▸ claimsTwice_cons_cons t)
  · intro s hc
    refine ⟨afterBuild s, buildTables_eq (hc ▸ rfl), fun op => ?_⟩
    rw [afterBuild_execAt_eq_illegal_iff, hc]
    exact List.not_mem_nil

/-- Settles O15: the lookups before and after the build, and the step that dispatches an illegal opcode. -/
theorem lookupReportsIllegalAndChangesNothing : Obligations.LookupReportsIllegalAndChangesNothing := by
  intro op s
  refine ⟨fun hb => ⟨dispatch_unbuilt hb op, printDispatch_unbuilt hb op⟩,
    fun hb => ⟨dispatch_built hb op, printDispatch_built hb op⟩, fun hb hf ha hm he => ?_⟩
  obtain ⟨hfirst, hstep⟩ := step_illegal s hf hb ha hm he
  exact hstep.trans hfirst

end Sys2Proof.Machine

/-! PROOFS. The statements of the print adapter (45_print_adapter): the golden strings, and what `render` depends on. -/

namespace Sys2Proof.Machine

/-- Settles O59: the strings are computed from the given fields and words. -/
theorem renderedTextIsTheGoldenText : Obligations.RenderedTextIsTheGoldenText := by
  unfold Obligations.RenderedTextIsTheGoldenText
  decide

section
variable {s t : State} {op : Word}

/-! ## `render` by what its lookup answers -/

theorem printDispatch_pCmp (hb : s.built = true) (hp : s.printAt op = .pCmp) : printDispatch op s = .next s := by
  rw [printDispatch_built hb, if_neg (by simp [hp])]

theorem render_unbuilt (hb : s.built = false) (a : Long) : render a op s = .refused .dispatchBeforeBuild := by
  rw [render, printDispatch_unbuilt hb]

/-- An opcode whose slot is the sentinel has no record (45 R207). -/
theorem render_illegal (hb : s.built = true) (hp : s.printAt op = .illegal) (a : Long) :
    render a op s = .illegal op := by
  rw [render, printDispatch_built hb, if_pos hp]

/-! ## What `render` depends on -/

/-- A peek depends on memory and on the views that the bus layer offers (20_memory R58). -/
theorem State.peekWord_congr (hmem : t.mem = s.mem) (hviews : t.config.unpeekable = s.config.unpeekable) (a : Long) :
    t.peekWord a = s.peekWord a := by
  simp only [State.peekWord, State.memReadWord, hmem, hviews]

/-- The state enters the record through the peeked words alone (45 R205). -/
theorem renderForm_congr (hpeek : ∀ b, t.peekWord b = s.peekWord b) (a : Long) (m : Mode) (sz : Size) (n d : RegNum) :
    renderForm a m sz n d t = renderForm a m sz n d s := by
  simp only [renderForm, hpeek]

/-- `render` depends on its lookup's slot, on whether the tables are built, and on the peeked words (45 R200). -/
theorem render_congr (hslot : t.printAt op = s.printAt op) (hbuilt : t.built = s.built)
    (hpeek : ∀ b, t.peekWord b = s.peekWord b) (a : Long) : render a op t = render a op s := by
  cases hb : s.built with
  | false => rw [render_unbuilt hb, render_unbuilt (hbuilt.trans hb)]
  | true =>
    have hbt := hbuilt.trans hb
    cases hp : s.printAt op with
    | illegal => rw [render_illegal hb hp, render_illegal hbt (hslot.trans hp)]
    | pCmp =>
      simp only [render, printDispatch_pCmp hb hp, printDispatch_pCmp hbt (hslot.trans hp), renderForm_congr hpeek]

end

/-- Settles O60: equal print tables have equal slots, and equal memories and bus layers give equal peeks. -/
theorem renderReadsNoProcessorState : Obligations.RenderReadsNoProcessorState := by
  refine ⟨fun a op s t htable hbuilt hmem hviews => ?_, fun a op s hb hp => render_illegal hb hp a,
    fun a op s hb => render_unbuilt hb a⟩
  have hslot : t.printAt op = s.printAt op := by rw [State.printAt, State.printAt, htable]
  exact render_congr hslot hbuilt (State.peekWord_congr hmem hviews) a

end Sys2Proof.Machine

/-! PROOFS. The statements of reset and hazards (70_reset_and_hazards): a tick against the same tick with another ledger
and other costs, a step against the core's actions, and the tables after the build. -/

namespace Sys2Proof.Machine

/-! ## The ledger and the costs steer nothing -/

/-- The state with another ledger and other costs. -/
def State.withLedgerAndCost (s : State) (l : Ledger) (c : Cost) : State :=
  { s with ledger := l, config := { s.config with cost := c } }

section
variable (s : State) (l : Ledger) (c : Cost)

@[simp] theorem State.withLedgerAndCost_marker : (s.withLedgerAndCost l c).marker = s.marker := rfl

@[simp] theorem State.withLedgerAndCost_opcode : (s.withLedgerAndCost l c).opcode = s.opcode := rfl

@[simp] theorem State.withLedgerAndCost_ea : (s.withLedgerAndCost l c).ea = s.ea := rfl

end

/-- `t` and `t'` differ only in their ledgers and in the costs, `c` in `t'`, and the same tags have been appended to the
logs of `l` and `l'` (70 R271). -/
structure LockStep (l l' : Ledger) (c : Cost) (t t' : State) : Prop where
  state : t' = t.withLedgerAndCost t'.ledger c
  tags : ∃ tags, t.ledger.log = l.log ++ tags ∧ t'.ledger.log = l'.log ++ tags

/-- Two outcomes of one kind: next states in lock step, or the same reason to stop. -/
inductive SameOutcome (l l' : Ledger) (c : Cost) :
    Host.Outcome State Fault Refusal → Host.Outcome State Fault Refusal → Prop
  | next {t t' : State} (h : LockStep l l' c t t') : SameOutcome l l' c (.next t) (.next t')
  | fault (r : Fault) : SameOutcome l l' c (.fault r) (.fault r)
  | refused (r : Refusal) : SameOutcome l l' c (.refused r) (.refused r)

section
variable (i : Instr) (m : Mode) (sz : Size) (k : Nat) (s : State) (l : Ledger) (c : Cost)

/-- A step of an operand fetch writes the same values whatever the ledger and the costs are. -/
theorem stepState_withLedgerAndCost :
    ∃ l', stepState m sz k (s.withLedgerAndCost l c) = (stepState m sz k s).withLedgerAndCost l' c := by
  cases m with
  | dreg | areg => exact ⟨_, rfl⟩
  | ind | imm => rcases k with _ | k <;> exact ⟨_, rfl⟩
  | postinc =>
    rcases k with _ | k
    · cases sz <;> exact ⟨_, rfl⟩
    · exact ⟨_, rfl⟩
  | predec | disp16 | absW => rcases k with _ | _ | k <;> exact ⟨_, rfl⟩
  | index | absL => rcases k with _ | _ | _ | k <;> exact ⟨_, rfl⟩

/-- The odd accesses do not depend on the ledger and the costs. -/
theorem stepOdd_withLedgerAndCost : stepOdd m sz k (s.withLedgerAndCost l c) = stepOdd m sz k s := rfl

/-- A polled step leaves states in lock step: both steps record the tag that the table has there (40 R102). -/
theorem afterPoll_lockStep (hk : k < nSteps m sz) :
    LockStep s.ledger l c (afterPoll m sz k s) (afterPoll m sz k (s.withLedgerAndCost l c)) := by
  obtain ⟨tag, htag, heffect⟩ := stepState_effect m sz k s hk
  obtain ⟨tag', htag', heffect'⟩ := stepState_effect m sz k (s.withLedgerAndCost l c) hk
  obtain rfl := Option.some.inj (htag.symm.trans htag')
  obtain ⟨l', hstate⟩ := stepState_withLedgerAndCost m sz k s l c
  refine ⟨?_, [tag], ?_, ?_⟩
  · rw [afterPoll, hstate]; rfl
  · exact congrArg (·.ledger.log) heffect.state
  · exact congrArg (·.ledger.log) heffect'.state

/-- A tick in state `READ` (43 R163). -/
theorem readTick_sameOutcome :
    SameOutcome s.ledger l c (readTick i s).toOutcome (readTick i (s.withLedgerAndCost l c)).toOutcome := by
  cases ha : s.ea.active with
  | false =>
    have hidle := eaPoll_idle ha
    have hidle' := eaPoll_idle (s := s.withLedgerAndCost l c) ha
    rw [readTick, readTick, hidle, hidle']
    exact .refused _
  | true =>
    by_cases hk : s.ea.step.toNat < nSteps s.ea.mode s.ea.size
    · rw [readTick_step i s ha hk, readTick_step i (s.withLedgerAndCost l c) ha hk, stepOdd_withLedgerAndCost,
        State.withLedgerAndCost_ea]
      split
      · exact .refused _
      · exact .next (afterPoll_lockStep _ _ _ s l c hk)
    · rw [readTick_done i s ha (Nat.le_of_not_lt hk),
        readTick_done i (s.withLedgerAndCost l c) ha (Nat.le_of_not_lt hk)]
      exact .next ⟨rfl, [.prefetch], rfl, rfl⟩

/-- A tick of a dispatched instruction, by the marker (43 R161). -/
theorem dispatchedTick_sameOutcome :
    SameOutcome s.ledger l c (dispatchedTick i s).toOutcome
      (dispatchedTick i (s.withLedgerAndCost l c)).toOutcome := by
  rw [dispatchedTick, dispatchedTick, State.withLedgerAndCost_marker, State.withLedgerAndCost_opcode,
    State.withLedgerAndCost_ea]
  cases s.marker with
  | none =>
    simp only
    split
    · exact .refused _
    · exact readTick_sameOutcome i (beginRead i s) l c
  | read =>
    simp only
    split
    · exact readTick_sameOutcome i s l c
    · exact .refused _
  | prefetch =>
    simp only
    split
    · exact .next ⟨rfl, [.prefetch], rfl, rfl⟩
    · exact .refused _
  | long =>
    simp only
    split
    · exact .next ⟨rfl, [], (List.append_nil _).symm, (List.append_nil _).symm⟩
    · exact .refused _
  | finished => exact .next ⟨rfl, [], (List.append_nil _).symm, (List.append_nil _).symm⟩
  | bad4 | bad5 | bad6 => exact .refused _

/-- The guards of a tick read neither (43 R161), so every tick answers the same. -/
theorem exec_sameOutcome : SameOutcome s.ledger l c (exec i s) (exec i (s.withLedgerAndCost l c)) := by
  obtain ⟨hfatal, hillegal, -⟩ := ticksOutsideTheProtocolAreRefused i s
  obtain ⟨hfatal', hillegal', -⟩ := ticksOutsideTheProtocolAreRefused i (s.withLedgerAndCost l c)
  cases hf : s.fatal with
  | true =>
    rw [hfatal hf, hfatal' hf]
    exact .refused _
  | false =>
    cases hop : s.execAt (encodeWord i) with
    | illegal =>
      rw [hillegal hf hop, hillegal' hf hop]
      exact .refused _
    | hCmp =>
      rw [exec_dispatched i s ⟨hf, hop⟩, exec_dispatched i (s.withLedgerAndCost l c) ⟨hf, hop⟩]
      exact dispatchedTick_sameOutcome i s l c

end

/-- Settles O53: the two ticks have the same outcome, and two next states are in lock step. -/
theorem ledgerAndCostsSteerNothing : Obligations.LedgerAndCostsSteerNothing := by
  intro i s l c
  have h := exec_sameOutcome i s l c
  rw [State.withLedgerAndCost] at h
  revert h
  generalize exec i s = o, exec i { s with ledger := l, config := { s.config with cost := c } } = o'
  rintro (⟨hstate, htags⟩ | _ | _)
  · exact ⟨hstate, htags⟩
  · rfl
  · rfl

/-! ## A step is the core's actions -/

/-- Whether or not the decoder accepts the opcode, the core ticks the execute port (10_state R36). -/
theorem tickOpcode_eq_executePort (op : Word) (s : State) : tickOpcode op s = (executePort op s).toOutcome := by
  cases h : decodeWord op with
  | ok i => rw [tickOpcode_of_decode h, exec_eq_executePort, encodeWord_of_decodeWord h]
  | error r => rw [tickOpcode, h]

theorem actAll_cons_of_next {x : Action} {s t : State} (h : act x s = .next t) (xs : List Action) :
    actAll (x :: xs) s = actAll xs t := by
  rw [actAll, h]

theorem actAll_cons_of_illegal {x : Action} {op : Word} {s t : State} (h : act x s = .illegal op t)
    (xs : List Action) : actAll (x :: xs) s = .illegal op t := by
  rw [actAll, h]

theorem actAll_singleton (x : Action) (s : State) : actAll [x] s = act x s := by
  rw [actAll]
  cases act x s <;> rfl

/-- After a lookup that finds the handler, the core's actions at a boundary begin the instruction and tick it. -/
theorem actAll_runOneActions {s : State} (hlookup : act (.lookup s.fetchOpcode) s = .next s)
    (hm : s.marker = .none ∨ s.marker = .finished) :
    actAll (runOneActions s) s = executePort s.fetchOpcode (beginInstruction s) := by
  have hpast : act (.writePc (s.pc + 2)) s = .next { s with pc := s.pc + 2 } := atBoundary_boundary hm _ _
  have hclear : act .clearLedger { s with pc := s.pc + 2 } = .next { s.ledgerClear with pc := s.pc + 2 } :=
    atBoundary_boundary hm _ _
  have hreload : act .reloadMarker { s.ledgerClear with pc := s.pc + 2 } = .next (beginInstruction s) :=
    atBoundary_boundary hm _ _
  rw [runOneActions, actAll_cons_of_next hlookup, actAll_cons_of_next hpast, actAll_cons_of_next hclear,
    actAll_cons_of_next hreload, actAll_singleton, act]

/-- Settles O17: the lookup answers `Illegal`, which ends both, or the handler, which both then tick from the same
state. -/
theorem stepIsTheCoresActions : Obligations.StepIsTheCoresActions := by
  intro s hf hb ha hm
  have hlookup : act (.lookup s.fetchOpcode) s = _ := dispatch_built hb s.fetchOpcode
  cases hop : s.execAt s.fetchOpcode with
  | illegal =>
    obtain ⟨hfault, hstep⟩ := step_illegal s hf hb ha hm hop
    rw [if_pos hop] at hlookup
    rw [hstep, hfault, runOneActions, actAll_cons_of_illegal hlookup, Result.toOutcome_illegal]
  | hCmp =>
    rw [if_neg (by simp [hop])] at hlookup
    rw [step_first s hf hb ha hm hop, tickOpcode_eq_executePort, actAll_runOneActions hlookup hm]

/-! ## The tables after the build -/

theorem PollEffect.sameStore {tag : Tag} {s t : State} (h : PollEffect tag s t) : SameStore s t := by
  rw [h.state]
  exact ⟨rfl, rfl, rfl, rfl, rfl⟩

/-- The loop from state `READ` polls, and a poll that reports done commits the flags and ends the tick (43 R163). -/
theorem untilConsumed_read_sameStore {op : Word} {f : Form} {k : Nat} {s t : State} (hm : s.marker = .read)
    (h : untilConsumed op f (k + 2) s = .next t) : SameStore s t := by
  rw [untilConsumed_read _ _ _ _ hm] at h
  split at h
  next => cases h
  next =>
    split at h
    next => cases h
    next u hu =>
      obtain rfl := Result.next.inj h
      obtain ⟨tag, heffect⟩ := eaPoll_unresolved hu
      exact heffect.sameStore.trans ⟨rfl, rfl, rfl, rfl, rfl⟩
    next v u hu =>
      obtain rfl := Result.next.inj h
      obtain ⟨-, rfl⟩ := eaPoll_eq_done hu
      exact ⟨rfl, rfl, rfl, rfl, rfl⟩

/-- No tick, whatever opcode it is given, writes memory, the tables or the configuration (43 R170). -/
theorem executePort_sameStore {op : Word} {s t : State} (h : executePort op s = .next t) : SameStore s t := by
  have hloop := compareTick_next h
  cases hm : s.marker with
  | none =>
    rw [untilConsumed_none _ _ 0 _ hm] at hloop
    split at hloop
    next u hu =>
      have hbegun : SameStore s { u with marker := .read, opcode := some op } := by
        rw [eaBeginRead_begun hu]
        exact ⟨rfl, rfl, rfl, rfl, rfl⟩
      exact hbegun.trans (untilConsumed_read_sameStore (k := 0) rfl hloop)
    next => cases hloop
    next => cases hloop
  | read => exact untilConsumed_read_sameStore (k := 1) hm hloop
  | prefetch =>
    rw [untilConsumed_prefetch _ _ 2 _ hm] at hloop
    obtain rfl := Result.next.inj hloop
    exact ⟨rfl, rfl, rfl, rfl, rfl⟩
  | long =>
    rw [untilConsumed_long _ _ 2 _ hm] at hloop
    obtain rfl := Result.next.inj hloop
    exact ⟨rfl, rfl, rfl, rfl, rfl⟩
  | finished =>
    simp only [untilConsumed_succ, microStep, hm] at hloop
    obtain rfl := Result.next.inj hloop
    exact ⟨rfl, rfl, rfl, rfl, rfl⟩
  | bad4 | bad5 | bad6 => simp [untilConsumed_succ, microStep, hm] at hloop

theorem tableWrite_built {s : State} (hb : s.built = true) (t : State) :
    tableWrite s t = .refused .tableWriteAfterBuild := if_pos hb

/-- Settles O55: lookups and table writes look at `built`, building again changes nothing, no tick writes a table. -/
theorem builtTablesAreNeverWritten : Obligations.BuiltTablesAreNeverWritten := by
  intro s
  refine ⟨fun hb op => ⟨dispatch_unbuilt hb op, printDispatch_unbuilt hb op⟩, fun hb => ?_⟩
  refine ⟨fun _ _ => tableWrite_built hb _, fun _ _ => tableWrite_built hb _, fun _ => buildTables_again,
    fun op t ht => ?_⟩
  obtain ⟨-, hexec, hprint, hbuilt, -⟩ := executePort_sameStore ht
  exact ⟨hexec, hprint, hbuilt.trans hb⟩

end Sys2Proof.Machine
